-- ==== Sys2Proof/Word.lean ====
section
/-! DEFINITION. The two bit-vector widths software can see: a byte of memory and a 32-bit register
(00_scope.md R7; `XLEN` = 32, pixel sample 8 bits). -/

namespace Sys2Proof

/-- One byte of memory (10_state.md R38). -/
abbrev Byte := BitVec 8

/-- One operand, result or control register (00_scope.md R7, `XLEN`). -/
abbrev Word := BitVec 32

end Sys2Proof
end

