-- ==== Sys2Proof/Config.lean ====
section
/-! DEFINITION. What an implementation fixes (00_scope.md R7, R8: parameters of the step relation, 10_state.md R43)
and the values the spec leaves open (00_scope.md R13). -/

namespace Sys2Proof

/-- The parameters of 00_scope.md R7 that a rule uses. They are fixed for the life of a machine (log 2). -/
structure Config where
  /-- `MEM_SIZE`: the addresses of memory are `0 .. memSize - 1`. -/
  memSize : Nat
  /-- `HPEL_REF0`, one plane number 0..3 for each of the 16 luma phases. -/
  hpelRef0 : Vector (Fin 4) 16
  /-- `HPEL_REF1`, likewise. -/
  hpelRef1 : Vector (Fin 4) 16
  /-- `ZIGZAG4`, the raster position that goes to each output position. -/
  zigzag4 : Vector (Fin 16) 16
  deriving DecidableEq, Repr

/-- The constraints of 00_scope.md R7 and R8 on the parameters: `16 <= MEM_SIZE <= 2^32`, `HPEL_REF0[0] = 0`,
`ZIGZAG4` a permutation of 0..15. -/
def Config.wf (c : Config) : Bool :=
  decide (16 ≤ c.memSize ∧ c.memSize ≤ 2 ^ 32) && decide (c.hpelRef0[0] = 0) &&
    decide (c.zigzag4.toList.Nodup)

/-- The default tables of 00_scope.md R8; `MEM_SIZE` has no default in the spec and is 0x10000 here, the size
95_test_vectors.md section 0 uses (DESIGN CHOICE, unsafe: log 2). -/
def Config.standard : Config where
  memSize := 0x10000
  hpelRef0 := #v[0, 1, 1, 1, 0, 1, 1, 1, 2, 3, 3, 3, 0, 1, 1, 1]
  hpelRef1 := #v[0, 0, 0, 0, 2, 2, 3, 2, 2, 2, 3, 2, 2, 2, 3, 2]
  zigzag4 := #v[0, 1, 4, 8, 5, 2, 3, 6, 9, 12, 13, 10, 7, 11, 14, 15]

/-- Free value: the `n`-th unspecified byte (00_scope.md R13, 93_implementation_defined.md U1). It has no body, so
nothing can be proved of it (DESIGN CHOICE of form, safe: log 9). -/
opaque Config.freeByte : Nat → Byte

/-- Free value: the `n`-th unspecified register (00_scope.md R13, 93_implementation_defined.md U1), likewise (log 9). -/
opaque Config.freeWord : Nat → Word

/-- Free value: the `n`-th free choice between two racing accesses (20_memory.md R67, 93_implementation_defined.md U3),
likewise (log 9). -/
opaque Config.freeBit : Nat → Bool

/-- Free value: how far beyond the bound of an ending run an endless run is looked at, at the `n`-th index (10_state.md R47;
logs 7 and 9). -/
opaque Config.freeCount : Nat → Nat

end Sys2Proof
end

