-- ==== Sys2Proof/Syntax.lean ====
section
/-! DEFINITION. The commands of the engine as syntax: one constructor for each row of spec/opcode_table.json, in the
table's order. A command names no operand register (30_encoding.md R82): it carries its size, its register number or
its immediate and nothing else. -/

namespace Sys2Proof

/-- A block width or height code, two bits of the control word (30_encoding.md R81): 0 is 4, 1 is 8, 2 is 16 pixels;
code 3 is reserved, and a command that has it is legal as a word and raises `INVALID_SIZE` when executed (R86). -/
inductive SizeCode where
  | four | eight | sixteen | reserved
  deriving DecidableEq, Repr

/-- The size sets of 30_encoding.md R87. -/
inductive SizeSet where
  | metric7 | sa8d2 | square3 | mc9
  deriving DecidableEq, Repr

/-- The 73 instructions (30_encoding.md R92). -/
inductive Instr where
  /-- `END` (46_control_dispatch.md R300). -/
  | endList
  /-- `LDI` (46_control_dispatch.md R301). -/
  | ldi (r : Fin 16) (imm : Word)
  /-- `STQ` (46_control_dispatch.md R302). -/
  | stq (r : Fin 4) (imm : Word)
  /-- `INIT` (46_control_dispatch.md R303). -/
  | init (imm : Word)
  /-- `SAD`.WxH (41_metrics.md R113). -/
  | sad (wc hc : SizeCode)
  /-- `SADX3`.WxH (41_metrics.md R114). -/
  | sadx3 (wc hc : SizeCode)
  /-- `SADX4`.WxH (41_metrics.md R115). -/
  | sadx4 (wc hc : SizeCode)
  /-- `SSD`.WxH (41_metrics.md R117). -/
  | ssd (wc hc : SizeCode)
  /-- `SSDWH` (41_metrics.md R119). -/
  | ssdwh
  /-- `SATD`.WxH (41_metrics.md R122). -/
  | satd (wc hc : SizeCode)
  /-- `SA8D`.WxH (41_metrics.md R125). -/
  | sa8d (wc hc : SizeCode)
  /-- `ADS1` (41_metrics.md R128). -/
  | ads1
  /-- `ADS2` (41_metrics.md R129). -/
  | ads2
  /-- `ADS4` (41_metrics.md R130). -/
  | ads4
  /-- `SSIM4` (41_metrics.md R135). -/
  | ssim4
  /-- `FDCT4`.WxH (42_transform_quant.md R143). -/
  | fdct4 (wc hc : SizeCode)
  /-- `IDCT4`.WxH (42_transform_quant.md R146). -/
  | idct4 (wc hc : SizeCode)
  /-- `FDCT8` (42_transform_quant.md R149). -/
  | fdct8
  /-- `IDCT8` (42_transform_quant.md R151). -/
  | idct8
  /-- `FDC4` (42_transform_quant.md R154). -/
  | fdc4
  /-- `IDC4` (42_transform_quant.md R155). -/
  | idc4
  /-- `FDC2` (42_transform_quant.md R157). -/
  | fdc2
  /-- `IDC2` (42_transform_quant.md R158). -/
  | idc2
  /-- `QUANT4` (42_transform_quant.md R162). -/
  | quant4
  /-- `QUANT8` (42_transform_quant.md R163). -/
  | quant8
  /-- `QUANTDC4` (42_transform_quant.md R164). -/
  | quantdc4
  /-- `QUANTDC2` (42_transform_quant.md R165). -/
  | quantdc2
  /-- `ZIGZAG4` (42_transform_quant.md R167). -/
  | zigzag4
  /-- `PRED4.V` (43_intra_4x4.md R186). -/
  | pred4V
  /-- `PRED4.H` (43_intra_4x4.md R187). -/
  | pred4H
  /-- `PRED4.DC` (43_intra_4x4.md R188). -/
  | pred4DC
  /-- `PRED4.DDL` (43_intra_4x4.md R189). -/
  | pred4DDL
  /-- `PRED4.DDR` (43_intra_4x4.md R190). -/
  | pred4DDR
  /-- `PRED4.VR` (43_intra_4x4.md R191). -/
  | pred4VR
  /-- `PRED4.HD` (43_intra_4x4.md R192). -/
  | pred4HD
  /-- `PRED4.VL` (43_intra_4x4.md R193). -/
  | pred4VL
  /-- `PRED4.HU` (43_intra_4x4.md R194). -/
  | pred4HU
  /-- `PRED4.DCL` (43_intra_4x4.md R195). -/
  | pred4DCL
  /-- `PRED4.DCT` (43_intra_4x4.md R196). -/
  | pred4DCT
  /-- `PRED4.DC128` (43_intra_4x4.md R197). -/
  | pred4DC128
  /-- `PRED8.V` (44_intra_8x8_16x16_chroma.md R222). -/
  | pred8V
  /-- `PRED8.H` (44_intra_8x8_16x16_chroma.md R223). -/
  | pred8H
  /-- `PRED8.DC` (44_intra_8x8_16x16_chroma.md R224). -/
  | pred8DC
  /-- `PRED8.DDL` (44_intra_8x8_16x16_chroma.md R225). -/
  | pred8DDL
  /-- `PRED8.DDR` (44_intra_8x8_16x16_chroma.md R226). -/
  | pred8DDR
  /-- `PRED8.VR` (44_intra_8x8_16x16_chroma.md R227). -/
  | pred8VR
  /-- `PRED8.HD` (44_intra_8x8_16x16_chroma.md R228). -/
  | pred8HD
  /-- `PRED8.VL` (44_intra_8x8_16x16_chroma.md R229). -/
  | pred8VL
  /-- `PRED8.HU` (44_intra_8x8_16x16_chroma.md R230). -/
  | pred8HU
  /-- `PRED8.DCL` (44_intra_8x8_16x16_chroma.md R231). -/
  | pred8DCL
  /-- `PRED8.DCT` (44_intra_8x8_16x16_chroma.md R232). -/
  | pred8DCT
  /-- `PRED8.DC128` (44_intra_8x8_16x16_chroma.md R233). -/
  | pred8DC128
  /-- `PRED16.V` (44_intra_8x8_16x16_chroma.md R236). -/
  | pred16V
  /-- `PRED16.H` (44_intra_8x8_16x16_chroma.md R237). -/
  | pred16H
  /-- `PRED16.DC` (44_intra_8x8_16x16_chroma.md R238). -/
  | pred16DC
  /-- `PRED16.DCL` (44_intra_8x8_16x16_chroma.md R239). -/
  | pred16DCL
  /-- `PRED16.DCT` (44_intra_8x8_16x16_chroma.md R240). -/
  | pred16DCT
  /-- `PRED16.DC128` (44_intra_8x8_16x16_chroma.md R241). -/
  | pred16DC128
  /-- `PRED16.P` (44_intra_8x8_16x16_chroma.md R242). -/
  | pred16P
  /-- `PREDC.V` (44_intra_8x8_16x16_chroma.md R245). -/
  | predCV
  /-- `PREDC.H` (44_intra_8x8_16x16_chroma.md R246). -/
  | predCH
  /-- `PREDC.DC` (44_intra_8x8_16x16_chroma.md R247). -/
  | predCDC
  /-- `PREDC.DCL` (44_intra_8x8_16x16_chroma.md R248). -/
  | predCDCL
  /-- `PREDC.DCT` (44_intra_8x8_16x16_chroma.md R249). -/
  | predCDCT
  /-- `PREDC.DC128` (44_intra_8x8_16x16_chroma.md R250). -/
  | predCDC128
  /-- `PREDC.P` (44_intra_8x8_16x16_chroma.md R251). -/
  | predCP
  /-- `MCLUMA`.WxH (45_motion_comp.md R272). -/
  | mcluma (wc hc : SizeCode)
  /-- `MCCHROMA`.WxH (45_motion_comp.md R276). -/
  | mcchroma (wc hc : SizeCode)
  /-- `COPY`.WxH (45_motion_comp.md R278). -/
  | copy (wc hc : SizeCode)
  /-- `AVG`.WxH (45_motion_comp.md R279). -/
  | avg (wc hc : SizeCode)
  /-- `HPELH`.WxH (45_motion_comp.md R281). -/
  | hpelh (wc hc : SizeCode)
  /-- `HPELV`.WxH (45_motion_comp.md R282). -/
  | hpelv (wc hc : SizeCode)
  /-- `HPELC`.WxH (45_motion_comp.md R283). -/
  | hpelc (wc hc : SizeCode)
  deriving DecidableEq, Repr

end Sys2Proof
end

