-- ==== Sys2Proof/Machine/Sizes.lean ====
section
/-! DEFINITION. What the two size codes of a Format B command mean, and the size sets (30_encoding.md R81, R86, R87). -/

namespace Sys2Proof

/-- The width or height in pixels; the reserved code 3 names no size, and no rule uses its 0. -/
def SizeCode.pixels : SizeCode → Nat
  | .four => 4
  | .eight => 8
  | .sixteen => 16
  | .reserved => 0

/-- The two bits of the code (30_encoding.md R81). -/
def SizeCode.bits : SizeCode → BitVec 2
  | .four => 0#2
  | .eight => 1#2
  | .sixteen => 2#2
  | .reserved => 3#2

/-- Whether a set has the size width × height (30_encoding.md R87). -/
def SizeSet.has : SizeSet → SizeCode → SizeCode → Bool
  | _, .reserved, _ => false
  | _, _, .reserved => false
  | .metric7, .sixteen, .four => false
  | .metric7, .four, .sixteen => false
  | .metric7, _, _ => true
  | .sa8d2, wc, hc => wc == hc && wc != .four
  | .square3, wc, hc => wc == hc
  | .mc9, _, _ => true

/-- The size set of a Format B command and the size it names; `none` for the other formats (30_encoding.md R87). -/
def Instr.size? : Instr → Option (SizeSet × SizeCode × SizeCode)
  | .sad wc hc | .sadx3 wc hc | .sadx4 wc hc | .ssd wc hc | .satd wc hc => some (.metric7, wc, hc)
  | .sa8d wc hc => some (.sa8d2, wc, hc)
  | .fdct4 wc hc | .idct4 wc hc => some (.square3, wc, hc)
  | .mcluma wc hc | .mcchroma wc hc | .copy wc hc | .avg wc hc | .hpelh wc hc | .hpelv wc hc
  | .hpelc wc hc => some (.mc9, wc, hc)
  | .endList | .ldi _ _ | .stq _ _ | .init _ | .ssdwh | .ads1 | .ads2 | .ads4 | .ssim4 | .fdct8 | .idct8
  | .fdc4 | .idc4 | .fdc2 | .idc2 | .quant4 | .quant8 | .quantdc4 | .quantdc2 | .zigzag4 | .pred4V
  | .pred4H | .pred4DC | .pred4DDL | .pred4DDR | .pred4VR | .pred4HD | .pred4VL | .pred4HU | .pred4DCL
  | .pred4DCT | .pred4DC128 | .pred8V | .pred8H | .pred8DC | .pred8DDL | .pred8DDR | .pred8VR | .pred8HD
  | .pred8VL | .pred8HU | .pred8DCL | .pred8DCT | .pred8DC128 | .pred16V | .pred16H | .pred16DC
  | .pred16DCL | .pred16DCT | .pred16DC128 | .pred16P | .predCV | .predCH | .predCDC | .predCDCL
  | .predCDCT | .predCDC128 | .predCP => none

end Sys2Proof
end

