-- ==== Sys2Proof/WellFormed.lean ====
section
/-! DEFINITION. The check that an instruction is one of the 73 instructions with a legal size (30_encoding.md R94).
Register numbers are in range by their types (`Fin 16` for `LDI`, `Fin 4` for `STQ`, R85), so the one check left is the
size of a Format B command (R86). -/

namespace Sys2Proof

/-- The instruction's size, where it names one, is in its command's size set (30_encoding.md R86, R87). -/
def Instr.wf (i : Instr) : Bool :=
  match i.size? with
  | some (set, wc, hc) => set.has wc hc
  | none => true

end Sys2Proof
end

