-- ==== Sys2Proof/Decode.lean ====
section
/-! DEFINITION. Decoding and encoding (30_encoding.md R80 to R95). A command is 8 bytes: `W0` then `W1`, both
little-endian. The decoder is total on bytes and rejects by name. It follows the procedure of R95 up to the size test:
whether a Format B command's size is in its set is tested when the command executes, because `NOT_INITIALIZED` comes
before `INVALID_SIZE` (60_exceptions.md R333; DEDUCED, safe: log 12). -/

namespace Sys2Proof

/-- Why 64 bits are no command (30_encoding.md R93). Every reason raises `ILLEGAL_COMMAND`; `tooShort` cannot arise
from a fetch, which always delivers 8 bytes. -/
inductive DecodeError where
  | tooShort
  | unknownOpcode
  | reservedBits
  | strayField
  | strayImmediate
  | initRegister
  | resultRegister
  | noSuchPrediction
  deriving DecidableEq, Repr

/-! ## The fields of the control word (R81) -/

def opField (w0 : Word) : BitVec 8 := w0.extractLsb' 0 8
def rField (w0 : Word) : BitVec 4 := w0.extractLsb' 8 4
def wcField (w0 : Word) : BitVec 2 := w0.extractLsb' 12 2
def hcField (w0 : Word) : BitVec 2 := w0.extractLsb' 14 2
def modeField (w0 : Word) : BitVec 4 := w0.extractLsb' 16 4
def clsField (w0 : Word) : BitVec 2 := w0.extractLsb' 20 2
def reservedField (w0 : Word) : BitVec 10 := w0.extractLsb' 22 10

/-- The code two bits of `wc` or `hc` stand for (R81). -/
def SizeCode.ofBits (b : BitVec 2) : SizeCode :=
  match b.toNat with
  | 0 => .four
  | 1 => .eight
  | 2 => .sixteen
  | _ => .reserved

/-- The class and mode pairs of R89; a pair without an arm names no slot (R90). -/
def predictionOf (cls mode : Nat) : Option Instr :=
  match cls, mode with
  | 0, 0 => some .pred4V
  | 0, 1 => some .pred4H
  | 0, 2 => some .pred4DC
  | 0, 3 => some .pred4DDL
  | 0, 4 => some .pred4DDR
  | 0, 5 => some .pred4VR
  | 0, 6 => some .pred4HD
  | 0, 7 => some .pred4VL
  | 0, 8 => some .pred4HU
  | 0, 9 => some .pred4DCL
  | 0, 10 => some .pred4DCT
  | 0, 11 => some .pred4DC128
  | 1, 0 => some .pred8V
  | 1, 1 => some .pred8H
  | 1, 2 => some .pred8DC
  | 1, 3 => some .pred8DDL
  | 1, 4 => some .pred8DDR
  | 1, 5 => some .pred8VR
  | 1, 6 => some .pred8HD
  | 1, 7 => some .pred8VL
  | 1, 8 => some .pred8HU
  | 1, 9 => some .pred8DCL
  | 1, 10 => some .pred8DCT
  | 1, 11 => some .pred8DC128
  | 2, 0 => some .pred16V
  | 2, 1 => some .pred16H
  | 2, 2 => some .pred16DC
  | 2, 9 => some .pred16DCL
  | 2, 10 => some .pred16DCT
  | 2, 11 => some .pred16DC128
  | 2, 12 => some .pred16P
  | 3, 0 => some .predCV
  | 3, 1 => some .predCH
  | 3, 2 => some .predCDC
  | 3, 9 => some .predCDCL
  | 3, 10 => some .predCDCT
  | 3, 11 => some .predCDC128
  | 3, 12 => some .predCP
  | _, _ => none

/-! ## The formats (R83): which fields must be zero -/

/-- Formats C and Z: every field but `op` is zero and `W1` is zero (R84, R88). -/
def readZ (w0 w1 : Word) (i : Instr) : Except DecodeError Instr :=
  if rField w0 ≠ 0 ∨ wcField w0 ≠ 0 ∨ hcField w0 ≠ 0 ∨ modeField w0 ≠ 0 ∨ clsField w0 ≠ 0 then .error .strayField
  else if w1 ≠ 0 then .error .strayImmediate
  else .ok i

/-- Format I: every field but `op` and `r` is zero; `W1` is the immediate (R85). -/
def readI (w0 : Word) (build : Nat → Except DecodeError Instr) : Except DecodeError Instr :=
  if wcField w0 ≠ 0 ∨ hcField w0 ≠ 0 ∨ modeField w0 ≠ 0 ∨ clsField w0 ≠ 0 then .error .strayField
  else build (rField w0).toNat

/-- Format B: every field but `op`, `wc` and `hc` is zero and `W1` is zero (R86). -/
def readB (w0 w1 : Word) (build : SizeCode → SizeCode → Instr) : Except DecodeError Instr :=
  if rField w0 ≠ 0 ∨ modeField w0 ≠ 0 ∨ clsField w0 ≠ 0 then .error .strayField
  else if w1 ≠ 0 then .error .strayImmediate
  else .ok (build (SizeCode.ofBits (wcField w0)) (SizeCode.ofBits (hcField w0)))

/-- Format P: every field but `op`, `mode` and `cls` is zero, `W1` is zero, and the pair is one of R89's (R89, R90). -/
def readP (w0 w1 : Word) : Except DecodeError Instr :=
  if rField w0 ≠ 0 ∨ wcField w0 ≠ 0 ∨ hcField w0 ≠ 0 then .error .strayField
  else if w1 ≠ 0 then .error .strayImmediate
  else match predictionOf (clsField w0).toNat (modeField w0).toNat with
    | some i => .ok i
    | none => .error .noSuchPrediction

/-- The operation codes of R92. -/
def decodeOpcode (w0 w1 : Word) : Except DecodeError Instr :=
  match (opField w0).toNat with
  | 0x01 => readZ w0 w1 .endList
  | 0x02 => readI w0 fun r => .ok (.ldi (Fin.ofNat 16 r) w1)
  | 0x03 => readI w0 fun r => if r ≤ 3 then .ok (.stq (Fin.ofNat 4 r) w1) else .error .resultRegister
  | 0x04 => readI w0 fun r => if r = 0 then .ok (.init w1) else .error .initRegister
  | 0x10 => readB w0 w1 .sad
  | 0x11 => readB w0 w1 .sadx3
  | 0x12 => readB w0 w1 .sadx4
  | 0x13 => readB w0 w1 .ssd
  | 0x14 => readZ w0 w1 .ssdwh
  | 0x15 => readB w0 w1 .satd
  | 0x16 => readB w0 w1 .sa8d
  | 0x17 => readZ w0 w1 .ads1
  | 0x18 => readZ w0 w1 .ads2
  | 0x19 => readZ w0 w1 .ads4
  | 0x1A => readZ w0 w1 .ssim4
  | 0x20 => readB w0 w1 .fdct4
  | 0x21 => readB w0 w1 .idct4
  | 0x22 => readZ w0 w1 .fdct8
  | 0x23 => readZ w0 w1 .idct8
  | 0x24 => readZ w0 w1 .fdc4
  | 0x25 => readZ w0 w1 .idc4
  | 0x26 => readZ w0 w1 .fdc2
  | 0x27 => readZ w0 w1 .idc2
  | 0x28 => readZ w0 w1 .quant4
  | 0x29 => readZ w0 w1 .quant8
  | 0x2A => readZ w0 w1 .quantdc4
  | 0x2B => readZ w0 w1 .quantdc2
  | 0x2C => readZ w0 w1 .zigzag4
  | 0x30 => readP w0 w1
  | 0x40 => readB w0 w1 .mcluma
  | 0x41 => readB w0 w1 .mcchroma
  | 0x42 => readB w0 w1 .copy
  | 0x43 => readB w0 w1 .avg
  | 0x44 => readB w0 w1 .hpelh
  | 0x45 => readB w0 w1 .hpelv
  | 0x46 => readB w0 w1 .hpelc
  | _ => .error .unknownOpcode

/-- Decoding of the two words of a command (R95). -/
def decodeWords (w0 w1 : Word) : Except DecodeError Instr :=
  if reservedField w0 ≠ 0 then .error .reservedBits else decodeOpcode w0 w1

/-! ## Bytes (R80; 20_memory.md R50, R51) -/

/-- The word whose bytes, lowest address first, are the four given. -/
def wordOfBytes (b0 b1 b2 b3 : Byte) : Word := b3 ++ b2 ++ b1 ++ b0

/-- The four bytes of a word, lowest address first. -/
def bytesOfWord (w : Word) : List Byte :=
  [w.extractLsb' 0 8, w.extractLsb' 8 8, w.extractLsb' 16 8, w.extractLsb' 24 8]

/-- Decoding of the bytes at a command's address, total on any list of bytes; bytes after the eighth belong to later
commands. -/
def decode : List Byte → Except DecodeError Instr
  | b0 :: b1 :: b2 :: b3 :: b4 :: b5 :: b6 :: b7 :: _ =>
    decodeWords (wordOfBytes b0 b1 b2 b3) (wordOfBytes b4 b5 b6 b7)
  | _ => .error .tooShort

/-! ## The encoder, from the same tables -/

/-- The control word with the given fields and zero reserved bits (R81). -/
def packW0 (op : BitVec 8) (r : BitVec 4) (wc hc : BitVec 2) (mode : BitVec 4) (cls : BitVec 2) : Word :=
  0#10 ++ cls ++ mode ++ hc ++ wc ++ r ++ op

def formatZ (op : BitVec 8) : Word × Word := (packW0 op 0 0 0 0 0, 0)
def formatI (op : BitVec 8) (r : BitVec 4) (imm : Word) : Word × Word := (packW0 op r 0 0 0 0, imm)
def formatB (op : BitVec 8) (wc hc : SizeCode) : Word × Word := (packW0 op 0 wc.bits hc.bits 0 0, 0)
def formatP (cls : BitVec 2) (mode : BitVec 4) : Word × Word := (packW0 0x30 0 0 0 mode cls, 0)

/-- The words `(W0, W1)` of an instruction (R83 to R92). -/
def encodeWords : Instr → Word × Word
  | .endList => formatZ 0x01
  | .ldi r imm => formatI 0x02 (BitVec.ofNat 4 r.val) imm
  | .stq r imm => formatI 0x03 (BitVec.ofNat 4 r.val) imm
  | .init imm => formatI 0x04 0#4 imm
  | .sad wc hc => formatB 0x10 wc hc
  | .sadx3 wc hc => formatB 0x11 wc hc
  | .sadx4 wc hc => formatB 0x12 wc hc
  | .ssd wc hc => formatB 0x13 wc hc
  | .ssdwh => formatZ 0x14
  | .satd wc hc => formatB 0x15 wc hc
  | .sa8d wc hc => formatB 0x16 wc hc
  | .ads1 => formatZ 0x17
  | .ads2 => formatZ 0x18
  | .ads4 => formatZ 0x19
  | .ssim4 => formatZ 0x1A
  | .fdct4 wc hc => formatB 0x20 wc hc
  | .idct4 wc hc => formatB 0x21 wc hc
  | .fdct8 => formatZ 0x22
  | .idct8 => formatZ 0x23
  | .fdc4 => formatZ 0x24
  | .idc4 => formatZ 0x25
  | .fdc2 => formatZ 0x26
  | .idc2 => formatZ 0x27
  | .quant4 => formatZ 0x28
  | .quant8 => formatZ 0x29
  | .quantdc4 => formatZ 0x2A
  | .quantdc2 => formatZ 0x2B
  | .zigzag4 => formatZ 0x2C
  | .pred4V => formatP 0 0
  | .pred4H => formatP 0 1
  | .pred4DC => formatP 0 2
  | .pred4DDL => formatP 0 3
  | .pred4DDR => formatP 0 4
  | .pred4VR => formatP 0 5
  | .pred4HD => formatP 0 6
  | .pred4VL => formatP 0 7
  | .pred4HU => formatP 0 8
  | .pred4DCL => formatP 0 9
  | .pred4DCT => formatP 0 10
  | .pred4DC128 => formatP 0 11
  | .pred8V => formatP 1 0
  | .pred8H => formatP 1 1
  | .pred8DC => formatP 1 2
  | .pred8DDL => formatP 1 3
  | .pred8DDR => formatP 1 4
  | .pred8VR => formatP 1 5
  | .pred8HD => formatP 1 6
  | .pred8VL => formatP 1 7
  | .pred8HU => formatP 1 8
  | .pred8DCL => formatP 1 9
  | .pred8DCT => formatP 1 10
  | .pred8DC128 => formatP 1 11
  | .pred16V => formatP 2 0
  | .pred16H => formatP 2 1
  | .pred16DC => formatP 2 2
  | .pred16DCL => formatP 2 9
  | .pred16DCT => formatP 2 10
  | .pred16DC128 => formatP 2 11
  | .pred16P => formatP 2 12
  | .predCV => formatP 3 0
  | .predCH => formatP 3 1
  | .predCDC => formatP 3 2
  | .predCDCL => formatP 3 9
  | .predCDCT => formatP 3 10
  | .predCDC128 => formatP 3 11
  | .predCP => formatP 3 12
  | .mcluma wc hc => formatB 0x40 wc hc
  | .mcchroma wc hc => formatB 0x41 wc hc
  | .copy wc hc => formatB 0x42 wc hc
  | .avg wc hc => formatB 0x43 wc hc
  | .hpelh wc hc => formatB 0x44 wc hc
  | .hpelv wc hc => formatB 0x45 wc hc
  | .hpelc wc hc => formatB 0x46 wc hc

/-- The 8 bytes of an instruction, lowest address first (R80). -/
def encode (i : Instr) : List Byte := bytesOfWord (encodeWords i).1 ++ bytesOfWord (encodeWords i).2

/-! ## The host's question about one row of the opcode table -/

/-- The 8 bytes of the instruction whose bits the table numbers as `w`: a command is `W1 * 2^32 + W0` (R80), bits above
`nbits` are zero, and the bytes lie little-endian from the lowest address. -/
def tableBytes (nbits w : Nat) : List Byte :=
  (List.range 8).map fun k => BitVec.ofNat 8 ((w % 2 ^ nbits) >>> (8 * k))

/-- What the decoder reads from that instruction. -/
def decodeTableWord (nbits w : Nat) : Option Instr :=
  match decode (tableBytes nbits w) with
  | .ok i => some i
  | .error _ => none

end Sys2Proof
end

