-- ==== Sys2Proof/Machine/State.lean ====
section
/-! DEFINITION. The state of one engine, the memory and the host's schedule, as plain data (10_state.md R20). -/

namespace Sys2Proof.Machine

/-- `STATUS.STATE` (10_state.md R31): 0 `IDLE`, 1 `RUNNING`, 2 `HALTED`, 3 `FAULTED`. -/
inductive EngineState where
  | idle | running | halted | faulted
  deriving DecidableEq, Repr

/-- The causes of `PreconditionViolation`, in the order of their codes 1 to 9 (60_exceptions.md R320). -/
inductive Cause where
  | notInitialized | illegalCommand | invalidSize | nullBuffer | badStride | misaligned | badParam | access | reinit
  deriving DecidableEq, Repr

/-- A raised `PreconditionViolation(cause, info)` (00_scope.md R17). -/
structure Violation where
  cause : Cause
  info : Word
  deriving DecidableEq, Repr

/-- What the host can do: the four port operations (10_state.md R44) and direct access to one byte of memory
(20_memory.md R67). -/
inductive HostOp where
  | reset
  | start (addr : Word)
  | read (n : Word)
  | write (n v : Word)
  | memRead (addr : Nat)
  | memWrite (addr : Nat) (v : Byte)
  deriving DecidableEq, Repr

/-- One move of the machine: a step of the engine or an operation of the host (70_reset_and_hazards.md R375; log 5). -/
inductive Move where
  | engine
  | host (op : HostOp)
  deriving DecidableEq, Repr

/-- Memory: the bytes that differ from what an unlisted address reads as, by rising address. -/
abbrev Memory := List Host.Cell

/-- The bytes `base + (y0 + y)*stride + x0 + x` for `0 <= x < w`, `0 <= y < h`. -/
structure Rect where
  base : Int
  stride : Int
  x0 : Int
  y0 : Int
  w : Nat
  h : Nat
  deriving DecidableEq, Repr

/-- The state: 10_state.md R20, then the model's own fields (INVENTORY.md, State). -/
structure State where
  /-- The operand registers `g0..g15` (10_state.md R21). -/
  g : Vector Word 16
  /-- The result registers `q0..q3` (10_state.md R25). -/
  q : Vector Word 4
  /-- `CP` (10_state.md R27). -/
  cp : Word
  /-- `STATUS.STATE` (10_state.md R31). -/
  st : EngineState
  /-- `STATUS.INITED` (10_state.md R33). -/
  inited : Bool
  /-- `CAP` (10_state.md R34). -/
  cap : Word
  /-- `FCAUSE.CAUSE`; `none` is code 0, no fault since reset (10_state.md R35; log 11). -/
  fcause : Option Cause
  /-- `FCP` (10_state.md R36). -/
  fcp : Word
  /-- `FINFO` (10_state.md R37). -/
  finfo : Word
  /-- The memory (10_state.md R38). -/
  mem : Memory
  /-- The model's own: the parameters, which no step changes (10_state.md R43; log 2). -/
  cfg : Config
  /-- The model's own: the index of the next free value (00_scope.md R13; log 9). -/
  fresh : Nat
  /-- The model's own: the coming moves; when it is empty every move is the engine's (log 5). -/
  moves : List Move
  /-- The model's own: what the host's last `READ` or memory read returned (10_state.md R44; log 7). -/
  reply : Option Word
  /-- The model's own: the bytes that the completed commands of the run have written (20_memory.md R67; log 22). -/
  written : List Rect
  /-- The model's own: the values that an engine's read of a byte may return beside the one in memory, since the host wrote
  the byte during the run (20_memory.md R67; log 6). -/
  raced : List Host.Cell
  deriving DecidableEq, Repr

/-- Why the machine stops with a fault. A `PreconditionViolation` is none of these: taking it is a next state. -/
inductive Fault where
  /-- Raised by the host's direct access to an address outside `0 .. MEM_SIZE-1`, which does not exist
  (10_state.md R38). Safe: the model stops where the spec gives no behaviour (log 8). -/
  | hostAddressOutside (addr : Nat)
  deriving DecidableEq, Repr

/-- Why the model has no meaning for a move. -/
inductive Refusal where
  /-- Raised by an arm of `exec` whose instruction has no meaning yet. Safe: nothing is claimed of it. -/
  | notModelled (mnemonic : String)
  /-- Raised by a step of the engine whose parameters break the constraints of 00_scope.md R7 and R8
  (93_implementation_defined.md U17, "else `refuse`"). Safe: such a machine is outside the spec (log 3). -/
  | badConfiguration
  deriving DecidableEq, Repr

/-- The outcome of a step of this machine. -/
abbrev Out := Host.Outcome State Fault Refusal

/-- After power-on, which is a `RESET` (10_state.md R46, 70_reset_and_hazards.md R361): every register 0, `IDLE`,
*uninitialized*, no fault; memory lists nothing (its power-on contents are unspecified: log 4); the model's own fields
as logs 2, 5, 7, 9 and 22 say. -/
def State.reset : State where
  g := Vector.replicate 16 0
  q := Vector.replicate 4 0
  cp := 0
  st := .idle
  inited := false
  cap := 0
  fcause := none
  fcp := 0
  finfo := 0
  mem := []
  cfg := Config.standard
  fresh := 0
  moves := []
  reply := none
  written := []
  raced := []

end Sys2Proof.Machine
end

