-- ==== Sys2Proof/Machine/Ops.lean ====
section
/-! DEFINITION. The shared operations over memory and registers, taking a `PreconditionViolation`, the integer
primitives of 00_scope.md R11, R12, and the host port (10_state.md R44, R45). -/

namespace Sys2Proof.Machine

/-! ## Integers (00_scope.md R9 to R12) -/

/-- `a >> n = floor(a / 2^n)` for any integer `a` (00_scope.md R11). -/
def asr (a : Int) (n : Nat) : Int := a / 2 ^ n

/-- `abs(a)` (00_scope.md R12). -/
def iabs (a : Int) : Int := a.natAbs

/-- `sign(a)` (00_scope.md R12). -/
def isign (a : Int) : Int := if a < 0 then -1 else if a = 0 then 0 else 1

/-- `clip8(a) = min(255, max(0, a))` (00_scope.md R12). -/
def clip8 (a : Int) : Int := min 255 (max 0 a)

/-- `Σ_{i=0..n-1} f(i)`. -/
def sumTo : Nat → (Nat → Int) → Int
  | 0, _ => 0
  | n + 1, f => sumTo n f + f n

/-- `Σ_{y=0..h-1} Σ_{x=0..w-1} f(x, y)`. -/
def sumBlock (w h : Nat) (f : Nat → Nat → Int) : Int := sumTo h fun y => sumTo w fun x => f x y

/-- The values of a block in raster order (00_scope.md R18). -/
def raster {α : Type} (w h : Nat) (f : Nat → Nat → α) : List α :=
  (List.range h).flatMap fun y => (List.range w).map fun x => f x y

/-! ## Memory (10_state.md R38, 20_memory.md R50) -/

/-- What an address that memory does not list reads as (DESIGN CHOICE, unsafe: log 4). -/
def unlisted : Byte := 0

/-- The one canonical form: addresses strictly rising, no entry equal to what an unlisted address reads as. -/
abbrev Memory.wf (m : Memory) : Prop :=
  m.Pairwise (fun c d => c.1 < d.1) ∧ ∀ c ∈ m, c.2 ≠ unlisted

/-- The byte at an address. -/
def Memory.read : Memory → Nat → Byte
  | [], _ => unlisted
  | (b, u) :: m, a => if a = b then u else Memory.read m a

/-- Memory after one byte is written; a byte equal to what an unlisted address reads as is not listed. -/
def Memory.write : Memory → Nat → Byte → Memory
  | [], a, v => if v = unlisted then [] else [(a, v)]
  | (b, u) :: m, a, v =>
    if a < b then (if v = unlisted then (b, u) :: m else (a, v) :: (b, u) :: m)
    else if a = b then (if v = unlisted then m else (a, v) :: m)
    else (b, u) :: Memory.write m a v

/-- Memory after a list of bytes is written, in order. -/
def Memory.storeAll (m : Memory) (stores : List (Nat × Byte)) : Memory :=
  stores.foldl (fun m c => m.write c.1 c.2) m

/-- `MemRead(addr, n)`: the unsigned little-endian integer of `n` bytes (00_scope.md R15, 20_memory.md R50). -/
def Memory.readLE (m : Memory) : Nat → Nat → Nat
  | _, 0 => 0
  | a, n + 1 => (m.read a).toNat + 256 * m.readLE (a + 1) n

/-- The `n` bytes `MemWrite(addr, n, v)` stores, lowest address first: `trunc_(8n)(v)` little-endian (00_scope.md R15). -/
def leBytes (n : Nat) (v : Int) : List Byte := (List.range n).map fun k : Nat => BitVec.ofInt 8 (asr v (8 * k))

/-- The 8 bytes at an address, as a fetch takes them (20_memory.md R51). -/
def Memory.fetch (m : Memory) (a : Nat) : List Byte := (List.range 8).map fun k => m.read (a + k)

/-! ## Registers and the command pointer -/

/-- `g[r] <- v` (10_state.md R22). -/
def State.setG (s : State) (r : Fin 16) (v : Word) : State := { s with g := s.g.set r v }

/-- `q[i] <- v`, one after the other (10_state.md R25, R26). -/
def setResults (q : Vector Word 4) (vs : List (Fin 4 × Word)) : Vector Word 4 :=
  vs.foldl (fun q c => q.set c.1 c.2) q

/-- `cp <- cp + 8`, modulo 2^32 (10_state.md R28, R29). -/
def State.advance (s : State) : State := { s with cp := s.cp + 8 }

/-! ## Taking an exception, and the one way on from it -/

/-- The code of a cause, `FCAUSE[7:0]` (60_exceptions.md R320). -/
def Cause.code : Cause → Byte
  | .notInitialized => 1
  | .illegalCommand => 2
  | .invalidSize => 3
  | .nullBuffer => 4
  | .badStride => 5
  | .misaligned => 6
  | .badParam => 7
  | .access => 8
  | .reinit => 9

/-- Fault entry (60_exceptions.md R336): `FCAUSE`, `FINFO`, `FCP` are written, the engine is `FAULTED`, `CP` keeps its
value and nothing else changes. -/
def State.raise (s : State) (v : Violation) : State :=
  { s with fcause := some v.cause, finfo := v.info, fcp := s.cp, st := .faulted }

/-- The host's `RESET`, the only way on from `FAULTED` (60_exceptions.md R337, R338): every register at its reset value,
memory unchanged (10_state.md R44, R46); of the model's own fields the record of the run ends with it, the others stay
(log 19). -/
def State.hostReset (s : State) : State :=
  { State.reset with mem := s.mem, cfg := s.cfg, fresh := s.fresh, moves := s.moves, reply := s.reply }

/-! ## The host port (10_state.md R44, R45) -/

/-- `STATUS.STATE`, bits [1:0] (10_state.md R31). -/
def EngineState.code : EngineState → Word
  | .idle => 0
  | .running => 1
  | .halted => 2
  | .faulted => 3

/-- The word `STATUS`: `STATE` in bits [1:0], `INITED` in bit [2], zero above (10_state.md R30). -/
def State.status (s : State) : Word := s.st.code ||| (if s.inited then 4 else 0)

/-- The word `FCAUSE`: the cause's code in bits [7:0], zero above (10_state.md R35). -/
def State.fcauseWord (s : State) : Word :=
  match s.fcause with
  | some c => c.code.setWidth 32
  | none => 0

/-- The register with a host port number; a number that names no register reads 0 (10_state.md R44, R45). -/
def State.port (s : State) (n : Word) : Word :=
  if h : n.toNat < 16 then s.g[n.toNat]
  else if h : 16 ≤ n.toNat ∧ n.toNat < 20 then s.q[n.toNat - 16]
  else match n.toNat with
    | 0x20 => s.cp
    | 0x21 => s.status
    | 0x22 => s.cap
    | 0x23 => s.fcauseWord
    | 0x24 => s.fcp
    | 0x25 => s.finfo
    | _ => 0

/-- `START(addr)`: accepted in `IDLE` and `HALTED`, ignored otherwise (10_state.md R32, R44); a run begins, and with it the
record of what it writes and of racing writes (log 22). -/
def State.hostStart (s : State) (addr : Word) : State :=
  match s.st with
  | .idle | .halted => { s with cp := addr, st := .running, written := [], raced := [] }
  | .running | .faulted => s

/-- `WRITE(n, v)`: writes an operand register when the engine is not `RUNNING`, does nothing otherwise (10_state.md R44). -/
def State.hostWrite (s : State) (n v : Word) : State :=
  if s.st = .running then s
  else if n.toNat < 16 then s.setG (Fin.ofNat 16 n.toNat) v
  else s

end Sys2Proof.Machine
end

