-- ==== Sys2Proof/Machine/Flags.lean ====
section
/-! DEFINITION. The engine has no flags, condition codes or predicates (10_state.md R48), so there is no flag to compute.
What a computation is tested for instead is its range (00_scope.md R13): a command out of range raises nothing and
leaves free values in everything its rule says it writes. -/

namespace Sys2Proof.Machine

/-- The `s16` interval (00_scope.md R9). -/
def inS16 (a : Int) : Bool := decide (-32768 ≤ a ∧ a ≤ 32767)

/-- What a command writes: bytes for its write set, in the order of the set's runs as far as they go, and result
registers; `drawn` is how many free values it used. -/
structure Effect where
  bytes : List Byte := []
  results : List (Fin 4 × Word) := []
  drawn : Nat := 0
  deriving DecidableEq, Repr

/-- Unspecified bytes for a write set of `n` bytes and an unspecified word for each register (00_scope.md R13,
93_implementation_defined.md U1; log 9). -/
def unspecified (n : Nat) (regs : List (Fin 4)) (s : State) : Effect where
  bytes := (List.range n).map fun j => Config.freeByte (s.fresh + j)
  results := regs.map fun r => (r, Config.freeWord (s.fresh + r.val))
  drawn := n + 4

/-- The range rule (00_scope.md R13): the rule's effect when every range-checked value is in its interval, free values
for the whole write set otherwise. -/
def ranged (inRange : Bool) (n : Nat) (regs : List (Fin 4)) (good : Effect) (s : State) : Effect :=
  if inRange then good else unspecified n regs s

end Sys2Proof.Machine
end

