-- ==== Sys2Proof/Machine/Operands.lean ====
section
/-! DEFINITION. Operand forms: registers by role (10_state.md R21, R23), pixel blocks and arrays (00_scope.md R16,
20_memory.md R57), the checks of a command in their order (60_exceptions.md R333) and the phases of a command
(00_scope.md R17). -/

namespace Sys2Proof.Machine

/-! ## Roles (10_state.md R21) -/

abbrev DST : Fin 16 := 0
abbrev DSTS : Fin 16 := 1
abbrev SRCA : Fin 16 := 2
abbrev SRCAS : Fin 16 := 3
abbrev SRCB : Fin 16 := 4
abbrev SRCBS : Fin 16 := 5
abbrev SRCB1 : Fin 16 := 6
abbrev SRCB2 : Fin 16 := 7
abbrev SRCB3 : Fin 16 := 8
abbrev P0 : Fin 16 := 9
abbrev P1 : Fin 16 := 10
abbrev P2 : Fin 16 := 11
abbrev TBL : Fin 16 := 13

/-- `uval(i)`: the register as an unsigned number (00_scope.md R14). -/
def State.uval (s : State) (r : Fin 16) : Nat := s.g[r].toNat

/-- `addr(i)`: the register as an address (00_scope.md R14). -/
def State.addr (s : State) (r : Fin 16) : Int := s.uval r

/-- `sval(i)`: the register as a signed number (00_scope.md R14). -/
def State.sval (s : State) (r : Fin 16) : Int := s.g[r].toInt

/-! ## Pixel blocks and arrays; effective addresses are exact integers (00_scope.md R15, R16) -/

/-- A pixel block: base address and row stride (00_scope.md R16). -/
structure Block where
  base : Int
  stride : Int
  deriving DecidableEq, Repr

/-- The block whose base and stride two registers hold. -/
def State.block (s : State) (base stride : Fin 16) : Block := ⟨s.addr base, s.sval stride⟩

/-- The address of the sample at `(x, y)`; `x`, `y` may be negative (00_scope.md R16). -/
def Block.at (b : Block) (x y : Int) : Int := b.base + y * b.stride + x

/-- `MemRead(addr, n)` at an exact address (00_scope.md R15). -/
def State.load (s : State) (a : Int) (n : Nat) : Nat := s.mem.readLE a.toNat n

/-- `Pix(base, stride, x, y)` (00_scope.md R16). -/
def State.pix (s : State) (b : Block) (x y : Int) : Int := s.load (b.at x y) 1

/-- `sext_N(v)` (00_scope.md R9). -/
def sext (n : Nat) (v : Nat) : Int := if v < 2 ^ (n - 1) then v else (v : Int) - 2 ^ n

/-- `Coef(base, i)` (00_scope.md R16). -/
def State.coef (s : State) (base : Int) (i : Nat) : Int := sext 16 (s.load (base + 2 * i) 2)

/-- `U16(base, i)`; the ADS commands reach elements before the base too (41_metrics.md R126). -/
def State.u16 (s : State) (base i : Int) : Int := s.load (base + 2 * i) 2

/-- `S32(base, i)` (00_scope.md R16). -/
def State.s32 (s : State) (base : Int) (i : Nat) : Int := sext 32 (s.load (base + 4 * i) 4)

/-- `U32(base, i)` (00_scope.md R16). -/
def State.u32 (s : State) (base : Int) (i : Nat) : Int := s.load (base + 4 * i) 4

/-- The byte of a pixel value, which the rule has brought into 0..255 (20_memory.md R58). -/
def pixelByte (v : Int) : Byte := BitVec.ofInt 8 v

/-- The bytes of a coefficient array, `trunc_16` each (00_scope.md R16). -/
def coefBytes (vs : List Int) : List Byte := vs.flatMap (leBytes 2)

/-! ## Read sets and write sets (20_memory.md R60), as runs of consecutive addresses -/

/-- The addresses `start .. start + len - 1`. -/
structure Run where
  start : Int
  len : Nat
  deriving DecidableEq, Repr

/-- The read set and the write set of a command. -/
structure Footprint where
  reads : List Run := []
  writes : List Run := []
  deriving DecidableEq, Repr

def Run.addrs (r : Run) : List Int := (List.range r.len).map fun j : Nat => r.start + j

/-- The addresses of a set, run after run. -/
def addresses (rs : List Run) : List Int := rs.flatMap Run.addrs

/-- The samples `(x0 + x, y0 + y)`, `0 <= x < w`, `0 <= y < h` of a block: a run for each row. -/
def Block.rows (b : Block) (x0 y0 : Int) (w h : Nat) : List Run :=
  (List.range h).map fun y : Nat => ⟨b.at x0 (y0 + y), w⟩

/-- The lowest address of a run outside `0 .. memSize - 1`. -/
def Run.lowestBad (memSize : Nat) (r : Run) : Option Int :=
  if r.len = 0 then none
  else if r.start < 0 then some r.start
  else if r.start + r.len ≤ memSize then none
  else some (max r.start memSize)

/-- The lowest address of a set outside `0 .. memSize - 1` (20_memory.md R60). -/
def lowestBad (memSize : Nat) : List Run → Option Int
  | [] => none
  | r :: rs =>
    match r.lowestBad memSize, lowestBad memSize rs with
    | some a, some b => some (min a b)
    | some a, none => some a
    | none, b => b

/-! ## The checks, each the violation it finds (60_exceptions.md R320 to R333) -/

abbrev Check := State → Option Violation

/-- The first check that fails is the one raised (60_exceptions.md R333). -/
def firstFailure : List Check → State → Option Violation
  | [], _ => none
  | c :: cs, s =>
    match c s with
    | some v => some v
    | none => firstFailure cs s

/-- A register's number as the information of a fault. -/
def regInfo (r : Fin 16) : Word := BitVec.ofNat 32 r.val

/-- `NOT_INITIALIZED`, with `W0` of the command (60_exceptions.md R322; log 13). -/
def notInitialized (i : Instr) : Check := fun s =>
  if s.inited then none else some ⟨.notInitialized, (encodeWords i).1⟩

/-- `INVALID_SIZE`, with `W0[15:12]` (60_exceptions.md R324). -/
def sizeCheck (set : SizeSet) (wc hc : SizeCode) : Check := fun _ =>
  if set.has wc hc then none else some ⟨.invalidSize, (hc.bits ++ wc.bits).setWidth 32⟩

/-- `BAD_PARAM` for a register whose value is outside its interval (60_exceptions.md R328). -/
def paramCheck (r : Fin 16) (ok : State → Bool) : Check := fun s =>
  if ok s then none else some ⟨.badParam, regInfo r⟩

/-- `NULL_BUFFER` for the first of the address registers that holds 0 (60_exceptions.md R325). -/
def nullCheck : List (Fin 16) → Check
  | [], _ => none
  | r :: rs, s => if s.g[r] = 0 then some ⟨.nullBuffer, regInfo r⟩ else nullCheck rs s

/-- `BAD_STRIDE` for the first of the stride registers below the block's width (60_exceptions.md R326). -/
def strideCheck (w : Int) : List (Fin 16) → Check
  | [], _ => none
  | r :: rs, s => if s.sval r < w then some ⟨.badStride, regInfo r⟩ else strideCheck w rs s

/-- `MISALIGNED` for the first of the array bases that is not a multiple of its element size (60_exceptions.md R327). -/
def alignCheck : List (Fin 16 × Nat) → Check
  | [], _ => none
  | (r, n) :: rs, s => if s.uval r % n ≠ 0 then some ⟨.misaligned, s.g[r]⟩ else alignCheck rs s

/-- `ACCESS` for the lowest bad address of the read set, else of the write set (60_exceptions.md R329). -/
def accessCheck (foot : State → Footprint) : Check := fun s =>
  match lowestBad s.cfg.memSize (foot s).reads with
  | some a => some ⟨.access, BitVec.ofInt 32 a⟩
  | none =>
    match lowestBad s.cfg.memSize (foot s).writes with
    | some a => some ⟨.access, BitVec.ofInt 32 a⟩
    | none => none

/-! ## The phases of a command (00_scope.md R17) -/

/-- The write phase: the bytes go to the write set in order; all were computed before any is written
(20_memory.md R66). -/
def State.commit (s : State) (writes : List Run) (e : Effect) : State :=
  { s with
    mem := s.mem.storeAll (((addresses writes).map Int.toNat).zip e.bytes)
    q := setResults s.q e.results
    fresh := s.fresh + e.drawn }

/-- A command after decode: the checks in order, then read, compute, write and advance (00_scope.md R17). -/
def command (checks : List Check) (foot : State → Footprint) (effect : State → Effect) (s : State) : Out :=
  match firstFailure (checks ++ [accessCheck foot]) s with
  | some v => .next (s.raise v)
  | none => .next (s.commit (foot s).writes (effect s)).advance

/-- An operation command (`op >= 0x10`): a command that needs `STATUS.INITED` (60_exceptions.md R322). -/
def operation (i : Instr) (checks : List Check) (foot : State → Footprint) (effect : State → Effect)
    (s : State) : Out :=
  command (notInitialized i :: checks) foot effect s

end Sys2Proof.Machine
end

