-- ==== Sys2Proof/Machine/Control.lean ====
section
/-! DEFINITION. The control commands `END`, `LDI`, `STQ`, `INIT` (46_control_dispatch.md R300 to R303). They do not need
`STATUS.INITED` (60_exceptions.md R322). -/

namespace Sys2Proof.Machine

/-- `END` (46_control_dispatch.md R300): `STATUS.STATE <- HALTED`; `CP` is not advanced. -/
def execEndList (s : State) : Out := .next { s with st := .halted }

/-- `LDI r, imm32` (46_control_dispatch.md R301): `g[r] <- imm32`. -/
def execLdi (r : Fin 16) (imm : Word) (s : State) : Out := .next (s.setG r imm).advance

/-- `MISALIGNED(imm32)` of `STQ` (46_control_dispatch.md R302). -/
def storeAlignment (imm : Word) : Check := fun _ =>
  if imm.toNat % 4 ≠ 0 then some ⟨.misaligned, imm⟩ else none

/-- The 4 bytes `imm32 .. imm32+3` (46_control_dispatch.md R302). -/
def storeFootprint (imm : Word) : State → Footprint := fun _ => { writes := [⟨imm.toNat, 4⟩] }

/-- `STQ q, imm32` (46_control_dispatch.md R302): `MemWrite(imm32, 4, q[q])`. -/
def execStq (r : Fin 4) (imm : Word) (s : State) : Out :=
  command [storeAlignment imm] (storeFootprint imm) (fun s => { bytes := leBytes 4 s.q[r].toNat }) s

/-- `INIT imm32` (46_control_dispatch.md R303): `REINIT` when already initialized, else `CAP <- imm32` and
`STATUS.INITED <- 1`. -/
def execInit (imm : Word) (s : State) : Out :=
  if s.inited then .next (s.raise ⟨.reinit, (encodeWords (.init imm)).1⟩)
  else .next { s with cap := imm, inited := true }.advance

end Sys2Proof.Machine
end

