-- ==== Sys2Proof/Machine/Metrics.lean ====
section
/-! DEFINITION. The distortion metric commands (41_metrics.md R110 to R135). -/

namespace Sys2Proof.Machine

/-! ## What the two-block metrics share (41_metrics.md R111) -/

/-- Checks of a command over blocks A and B of width `w` (41_metrics.md R111). -/
def pairChecks (w : Nat) : List Check := [nullCheck [SRCA, SRCB], strideCheck w [SRCAS, SRCBS]]

def State.blockA (s : State) : Block := s.block SRCA SRCAS
def State.blockB (s : State) : Block := s.block SRCB SRCBS

/-- The read set of a command over blocks A and B (41_metrics.md R111). -/
def pairRuns (w h : Nat) (s : State) : List Run := s.blockA.rows 0 0 w h ++ s.blockB.rows 0 0 w h

def pairFootprint (w h : Nat) : State → Footprint := fun s => { reads := pairRuns w h s }

/-- `d(x,y) = a(x,y) - b(x,y)` (41_metrics.md R111). -/
def State.diff (s : State) (x y : Nat) : Int := s.pix s.blockA x y - s.pix s.blockB x y

/-- `q[i] <- v` writes `trunc_32(v)` (00_scope.md R14). -/
def results (vs : List (Fin 4 × Int)) : Effect := { results := vs.map fun c => (c.1, BitVec.ofInt 32 c.2) }

/-- A metric over blocks A and B that returns one number in `q0`. -/
def metric (i : Instr) (set : SizeSet) (wc hc : SizeCode) (value : State → Nat → Nat → Int) (s : State) : Out :=
  operation i (sizeCheck set wc hc :: pairChecks wc.pixels) (pairFootprint wc.pixels hc.pixels)
    (fun s => results [(0, value s wc.pixels hc.pixels)]) s

/-! ## SAD -/

/-- The sum of absolute differences of two blocks (41_metrics.md R113). -/
def sad (s : State) (a b : Block) (w h : Nat) : Int :=
  sumBlock w h fun x y => iabs (s.pix a x y - s.pix b x y)

/-- `SAD.WxH` (41_metrics.md R113). -/
def execSad (wc hc : SizeCode) (s : State) : Out :=
  metric (.sad wc hc) .metric7 wc hc (fun s w h => sad s s.blockA s.blockB w h) s

/-- Candidate blocks at the given bases, all with the stride `SRCBS` (41_metrics.md R114). -/
def State.candidates (s : State) (bases : List (Fin 16)) : List Block := bases.map fun r => s.block r SRCBS

/-- One block against several candidates; candidate `k` goes to `q[k]` (41_metrics.md R114). -/
def batchedSad (i : Instr) (bases : List (Fin 16)) (wc hc : SizeCode) (s : State) : Out :=
  operation i
    [sizeCheck .metric7 wc hc, nullCheck (SRCA :: bases), strideCheck wc.pixels [SRCAS, SRCBS]]
    (fun s => { reads := (s.blockA :: s.candidates bases).flatMap fun b => b.rows 0 0 wc.pixels hc.pixels })
    (fun s => results ((List.finRange 4).zip ((s.candidates bases).map fun b => sad s s.blockA b wc.pixels hc.pixels)))
    s

/-- `SADX3.WxH` (41_metrics.md R114). -/
def execSadx3 (wc hc : SizeCode) (s : State) : Out := batchedSad (.sadx3 wc hc) [SRCB, SRCB1, SRCB2] wc hc s

/-- `SADX4.WxH` (41_metrics.md R115). -/
def execSadx4 (wc hc : SizeCode) (s : State) : Out := batchedSad (.sadx4 wc hc) [SRCB, SRCB1, SRCB2, SRCB3] wc hc s

/-! ## SSD -/

/-- The sum of squared differences over blocks A and B (41_metrics.md R117). -/
def ssd (s : State) (w h : Nat) : Int := sumBlock w h fun x y => s.diff x y * s.diff x y

/-- `SSD.WxH` (41_metrics.md R117). -/
def execSsd (wc hc : SizeCode) (s : State) : Out := metric (.ssd wc hc) .metric7 wc hc ssd s

/-- A width or height of `SSDWH` is in 1..65535 (41_metrics.md R119). -/
def regionParam (r : Fin 16) : Check :=
  paramCheck r fun s => decide (1 ≤ s.uval r ∧ s.uval r ≤ 65535)

/-- `SSDWH` (41_metrics.md R119): a region of `uval(P0)` by `uval(P1)`, the sum in `q1:q0`. -/
def execSsdwh (s : State) : Out :=
  operation .ssdwh
    [regionParam P0, regionParam P1, nullCheck [SRCA, SRCB], fun s => strideCheck (s.uval P0) [SRCAS, SRCBS] s]
    (fun s => { reads := pairRuns (s.uval P0) (s.uval P1) s })
    (fun s =>
      let total := ssd s (s.uval P0) (s.uval P1)
      results [(0, total), (1, asr total 32)])
    s

/-! ## SATD and SA8D -/

/-- The row pass of a two-pass transform: row `y` of the result is `f` of row `y` (41_metrics.md R120). -/
def rowPass (f : (Nat → Int) → Nat → Int) (d : Nat → Nat → Int) : Nat → Nat → Int :=
  fun u y => f (fun x => d x y) u

/-- The column pass: column `u` of the result is `f` of column `u` (41_metrics.md R120). -/
def colPass (f : (Nat → Int) → Nat → Int) (r : Nat → Nat → Int) : Nat → Nat → Int :=
  fun u v => f (fun y => r u y) v

/-- `HAD4` (41_metrics.md R120). -/
def had4 (s : Nat → Int) : Nat → Int :=
  let s01 := s 0 + s 1
  let d01 := s 0 - s 1
  let s23 := s 2 + s 3
  let d23 := s 2 - s 3
  fun
    | 0 => s01 + s23
    | 1 => s01 - s23
    | 2 => d01 - d23
    | _ => d01 + d23

/-- `raw4(D)`, the raw SATD sum of a 4×4 tile (41_metrics.md R120). -/
def raw4 (d : Nat → Nat → Int) : Int := sumBlock 4 4 fun u v => iabs (colPass had4 (rowPass had4 d) u v)

/-- The differences of the tile whose top-left sample is `(x0, y0)` (41_metrics.md R122). -/
def State.tile (s : State) (x0 y0 : Nat) : Nat → Nat → Int := fun x y => s.diff (x0 + x) (y0 + y)

/-- The SATD of blocks A and B (41_metrics.md R122). -/
def satd (s : State) (w h : Nat) : Int :=
  asr (sumBlock (w / 4) (h / 4) fun i j => raw4 (s.tile (4 * i) (4 * j))) 1

/-- `SATD.WxH` (41_metrics.md R122). -/
def execSatd (wc hc : SizeCode) (s : State) : Out := metric (.satd wc hc) .metric7 wc hc satd s

/-- `SA8D_1D` (41_metrics.md R123). -/
def sa8d1d (s : Nat → Int) : Nat → Int :=
  let a0 := s 0 + s 1
  let a1 := s 0 - s 1
  let a2 := s 2 + s 3
  let a3 := s 2 - s 3
  let a4 := s 4 + s 5
  let a5 := s 4 - s 5
  let a6 := s 6 + s 7
  let a7 := s 6 - s 7
  let b0 := a0 + a2
  let b1 := a1 + a3
  let b2 := a0 - a2
  let b3 := a1 - a3
  let b4 := a4 + a6
  let b5 := a5 + a7
  let b6 := a4 - a6
  let b7 := a5 - a7
  fun
    | 0 => b0 + b4
    | 1 => b1 + b5
    | 2 => b2 + b6
    | 3 => b3 + b7
    | 4 => b0 - b4
    | 5 => b1 - b5
    | 6 => b2 - b6
    | _ => b3 - b7

/-- `raw8(D)`, the raw SA8D sum of an 8×8 tile (41_metrics.md R124). -/
def raw8 (d : Nat → Nat → Int) : Int := sumBlock 8 8 fun u v => iabs (colPass sa8d1d (rowPass sa8d1d d) u v)

/-- The SA8D of blocks A and B: the rounding is applied once, to the total (41_metrics.md R125). -/
def sa8d (s : State) (w h : Nat) : Int :=
  asr ((sumBlock (w / 8) (h / 8) fun i j => raw8 (s.tile (8 * i) (8 * j))) + 2) 2

/-- `SA8D.WxH` (41_metrics.md R125). -/
def execSa8d (wc hc : SizeCode) (s : State) : Out := metric (.sa8d wc hc) .sa8d2 wc hc sa8d s

/-! ## ADS (41_metrics.md R126, R127) -/

/-- `total_i` for the offset vector `off` (41_metrics.md R127). -/
def adsTotal (off : List Int) (s : State) (i : Nat) : Int :=
  sumTo off.length
      (fun k => iabs (s.s32 (s.addr SRCA) k - s.u16 (s.addr SRCB) (i + off.getD k 0)))
    + s.u16 (s.addr TBL) i

/-- The candidates whose total is below `thresh`, in increasing order (41_metrics.md R127). -/
def adsAccepted (off : List Int) (s : State) : List Nat :=
  (List.range (s.uval P0)).filter fun i => decide (adsTotal off s i < s.sval P1)

/-- Every total is in `0 .. 2^31 - 1` (41_metrics.md R127). -/
def adsInRange (off : List Int) (s : State) : Bool :=
  (List.range (s.uval P0)).all fun i => decide (0 ≤ adsTotal off s i ∧ adsTotal off s i < 2 ^ 31)

/-- The read set and the largest write set of an ADS command (41_metrics.md R127). -/
def adsFootprint (off : List Int) (s : State) : Footprint where
  reads := ⟨s.addr SRCA, 4 * off.length⟩
    :: off.map (fun o => ⟨s.addr SRCB + 2 * o, 2 * s.uval P0⟩)
    ++ [⟨s.addr TBL, 2 * s.uval P0⟩]
  writes := [⟨s.addr DST, 2 * s.uval P0⟩]

/-- The list and its length; out of range both are unspecified (41_metrics.md R127; log 14). -/
def adsEffect (off : List Int) (s : State) : Effect :=
  let m := adsAccepted off s
  ranged (adsInRange off s) (2 * s.uval P0) [0]
    { bytes := coefBytes (m.map Int.ofNat), results := [(0, BitVec.ofNat 32 m.length)] } s

/-- The common part of `ADS1`, `ADS2`, `ADS4` for an offset vector (41_metrics.md R127). -/
def ads (i : Instr) (off : State → List Int) (s : State) : Out :=
  operation i
    [paramCheck P0 fun s => decide (s.uval P0 ≤ 32767), nullCheck [DST, SRCA, SRCB, TBL],
      alignCheck [(DST, 2), (SRCA, 4), (SRCB, 2), (TBL, 2)]]
    (fun s => adsFootprint (off s) s) (fun s => adsEffect (off s) s) s

/-- `ADS1` (41_metrics.md R128). -/
def execAds1 (s : State) : Out := ads .ads1 (fun _ => [0]) s

/-- `ADS2` (41_metrics.md R129). -/
def execAds2 (s : State) : Out := ads .ads2 (fun s => [0, s.sval P2]) s

/-- `ADS4` (41_metrics.md R130). -/
def execAds4 (s : State) : Out := ads .ads4 (fun s => [0, 8, s.sval P2, s.sval P2 + 8]) s

/-! ## SSIM partial sums -/

/-- `SSIM4` (41_metrics.md R135). -/
def execSsim4 (s : State) : Out :=
  operation .ssim4 (pairChecks 4) (pairFootprint 4 4)
    (fun s =>
      let a := fun x y : Nat => s.pix s.blockA x y
      let b := fun x y : Nat => s.pix s.blockB x y
      results
        [(0, sumBlock 4 4 a), (1, sumBlock 4 4 b),
          (2, sumBlock 4 4 fun x y => a x y * a x y + b x y * b x y),
          (3, sumBlock 4 4 fun x y => a x y * b x y)])
    s

end Sys2Proof.Machine
end

