-- ==== Sys2Proof/Machine/Transform.lean ====
section
/-! DEFINITION. The block transform commands and the zigzag scan (42_transform_quant.md R140 to R158, R167). -/

namespace Sys2Proof.Machine

/-! ## Layout (42_transform_quant.md R140, R141) -/

/-- `ox(n)`: the horizontal pixel offset of sub-block `n`; one formula serves 4×4, 8×8 and 16×16 (R141). -/
def subX (n : Nat) : Nat := 8 * ((n >>> 2) % 2) + 4 * (n % 2)

/-- `oy(n)`: the vertical pixel offset of sub-block `n` (R141). -/
def subY (n : Nat) : Nat := 8 * (n >>> 3) + 4 * ((n >>> 1) % 2)

/-- How many 4×4 sub-blocks an `N×N` block has (R141). -/
def subCount (n : Nat) : Nat := (n / 4) * (n / 4)

/-- The elements of an `N×N` coefficient array, element `N*v + u` from `C(u,v)` (R140). -/
def elements (n : Nat) (c : Nat → Nat → Int) : List Int := raster n n c

/-- The coefficient array of `N×N` elements at `base` as `D(u,v)` (R140). -/
def State.coefBlock (s : State) (n : Nat) (base : Int) : Nat → Nat → Int := fun u v => s.coef base (n * v + u)

/-! ## The 4×4 transform -/

/-- `FWD4` (R142). -/
def fwd4 (d : Nat → Int) : Nat → Int :=
  let s03 := d 0 + d 3
  let s12 := d 1 + d 2
  let d03 := d 0 - d 3
  let d12 := d 1 - d 2
  fun
    | 0 => s03 + s12
    | 1 => 2 * d03 + d12
    | 2 => s03 - s12
    | _ => d03 - 2 * d12

/-- `FDCT4x4(D)` as `C(u,v)` (R142). -/
def fdct4x4 (d : Nat → Nat → Int) : Nat → Nat → Int := colPass fwd4 (rowPass fwd4 d)

/-- `FDCT4.NxN` (R143); always in range (R144). -/
def execFdct4 (wc hc : SizeCode) (s : State) : Out :=
  let n := wc.pixels
  operation (.fdct4 wc hc)
    [sizeCheck .square3 wc hc, nullCheck [DST, SRCA, SRCB], strideCheck n [SRCAS, SRCBS], alignCheck [(DST, 2)]]
    (fun s => { reads := pairRuns n n s, writes := [⟨s.addr DST, 2 * n * n⟩] })
    (fun s =>
      { bytes := coefBytes ((List.range (subCount n)).flatMap fun k =>
          elements 4 (fdct4x4 (s.tile (subX k) (subY k)))) })
    s

/-- `INV4` (R145). -/
def inv4 (c : Nat → Int) : Nat → Int :=
  let s02 := c 0 + c 2
  let d02 := c 0 - c 2
  let s13 := c 1 + asr (c 3) 1
  let d13 := asr (c 1) 1 - c 3
  fun
    | 0 => s02 + s13
    | 1 => d02 + d13
    | 2 => d02 - d13
    | _ => s02 - s13

/-- `E(x,y)`, the second-pass outputs of the inverse 4×4 transform (R145). -/
def inverse4 (c : Nat → Nat → Int) : Nat → Nat → Int := colPass inv4 (rowPass inv4 c)

/-- `IDCT4x4(c)`: the residual `r(x,y)` (R145). -/
def idct4x4 (c : Nat → Nat → Int) (x y : Nat) : Int := asr (inverse4 c x y + 32) 6

/-- The range-checked values of one sub-block are `s16` (R147). -/
def idct4InRange (c : Nat → Nat → Int) : Bool :=
  (raster 4 4 fun x y =>
    inS16 (rowPass inv4 c x y) && inS16 (inverse4 c x y) && inS16 (inverse4 c x y + 32)).all id

/-- The destination of the inverse transforms (R146). -/
def State.blockDst (s : State) : Block := s.block DST DSTS

/-- The array of sub-block `k` at `SRCA` (R141, R146). -/
def State.subCoefs (s : State) (k : Nat) : Nat → Nat → Int := s.coefBlock 4 (s.addr SRCA + 32 * k)

/-- `IDCT4.NxN` (R146); out of range the whole write set is unspecified (R147). -/
def execIdct4 (wc hc : SizeCode) (s : State) : Out :=
  let n := wc.pixels
  operation (.idct4 wc hc)
    [sizeCheck .square3 wc hc, nullCheck [DST, SRCA], strideCheck n [DSTS], alignCheck [(SRCA, 2)]]
    (fun s =>
      { reads := ⟨s.addr SRCA, 2 * n * n⟩ :: s.blockDst.rows 0 0 n n
        writes := (List.range (subCount n)).flatMap fun k => s.blockDst.rows (subX k) (subY k) 4 4 })
    (fun s =>
      ranged ((List.range (subCount n)).all fun k => idct4InRange (s.subCoefs k)) (n * n) []
        { bytes := (List.range (subCount n)).flatMap fun k => raster 4 4 fun x y =>
            pixelByte (clip8 (s.pix s.blockDst ↑(subX k + x) ↑(subY k + y) + idct4x4 (s.subCoefs k) x y)) } s)
    s

/-! ## The 8×8 transform -/

/-- `DCT8_1D` (R148). -/
def dct8 (s : Nat → Int) : Nat → Int :=
  let s07 := s 0 + s 7
  let s16 := s 1 + s 6
  let s25 := s 2 + s 5
  let s34 := s 3 + s 4
  let d07 := s 0 - s 7
  let d16 := s 1 - s 6
  let d25 := s 2 - s 5
  let d34 := s 3 - s 4
  let a0 := s07 + s34
  let a1 := s16 + s25
  let a2 := s07 - s34
  let a3 := s16 - s25
  let a4 := d16 + d25 + (d07 + asr d07 1)
  let a5 := d07 - d34 - (d25 + asr d25 1)
  let a6 := d07 + d34 - (d16 + asr d16 1)
  let a7 := d16 - d25 + (d34 + asr d34 1)
  fun
    | 0 => a0 + a1
    | 1 => a4 + asr a7 2
    | 2 => a2 + asr a3 1
    | 3 => a5 + asr a6 2
    | 4 => a0 - a1
    | 5 => a6 - asr a5 2
    | 6 => asr a2 1 - a3
    | _ => asr a4 2 - a7

/-- `FDCT8x8(D)` as `C(u,v)` (R148). -/
def fdct8x8 (d : Nat → Nat → Int) : Nat → Nat → Int := colPass dct8 (rowPass dct8 d)

/-- `FDCT8` (R149); always in range. -/
def execFdct8 (s : State) : Out :=
  operation .fdct8 [nullCheck [DST, SRCA, SRCB], strideCheck 8 [SRCAS, SRCBS], alignCheck [(DST, 2)]]
    (fun s => { reads := pairRuns 8 8 s, writes := [⟨s.addr DST, 128⟩] })
    (fun s => { bytes := coefBytes (elements 8 (fdct8x8 s.diff)) }) s

/-- `IDCT8_1D` (R150). -/
def idct8 (s : Nat → Int) : Nat → Int :=
  let a0 := s 0 + s 4
  let a2 := s 0 - s 4
  let a4 := asr (s 2) 1 - s 6
  let a6 := asr (s 6) 1 + s 2
  let b0 := a0 + a6
  let b2 := a2 + a4
  let b4 := a2 - a4
  let b6 := a0 - a6
  let a1 := -s 3 + s 5 - s 7 - asr (s 7) 1
  let a3 := s 1 + s 7 - s 3 - asr (s 3) 1
  let a5 := -s 1 + s 7 + s 5 + asr (s 5) 1
  let a7 := s 3 + s 5 + s 1 + asr (s 1) 1
  let b1 := asr a7 2 + a1
  let b3 := a3 + asr a5 2
  let b5 := asr a3 2 - a5
  let b7 := a7 - asr a1 2
  fun
    | 0 => b0 + b7
    | 1 => b2 + b5
    | 2 => b4 + b3
    | 3 => b6 + b1
    | 4 => b6 - b1
    | 5 => b4 - b3
    | 6 => b2 - b5
    | _ => b0 - b7

/-- `c'`: the coefficients with the `+32` bias on element 0 (R150). -/
def biased (c : Nat → Nat → Int) : Nat → Nat → Int := fun u v => if u = 0 ∧ v = 0 then c 0 0 + 32 else c u v

/-- `E(x,y)` of the inverse 8×8 transform (R150). -/
def inverse8 (c : Nat → Nat → Int) : Nat → Nat → Int := colPass idct8 (rowPass idct8 (biased c))

/-- `IDCT8x8(c)`: the residual `r(x,y)` (R150). -/
def idct8x8 (c : Nat → Nat → Int) (x y : Nat) : Int := asr (inverse8 c x y) 6

/-- The range-checked values of `IDCT8` are `s16` (R152). -/
def idct8InRange (c : Nat → Nat → Int) : Bool :=
  inS16 (c 0 0 + 32) &&
    (raster 8 8 fun x y => inS16 (rowPass idct8 (biased c) x y) && inS16 (inverse8 c x y)).all id

/-- `IDCT8` (R151); out of range the whole write set is unspecified (R152). -/
def execIdct8 (s : State) : Out :=
  operation .idct8 [nullCheck [DST, SRCA], strideCheck 8 [DSTS], alignCheck [(SRCA, 2)]]
    (fun s => { reads := ⟨s.addr SRCA, 128⟩ :: s.blockDst.rows 0 0 8 8, writes := s.blockDst.rows 0 0 8 8 })
    (fun s =>
      let c := s.coefBlock 8 (s.addr SRCA)
      ranged (idct8InRange c) 64 []
        { bytes := raster 8 8 fun x y => pixelByte (clip8 (s.pix s.blockDst x y + idct8x8 c x y)) } s)
    s

/-! ## Commands from a coefficient array at `SRCA` to one at `DST` -/

/-- The checks of a command from array to array (R154). -/
def arrayChecks : List Check := [nullCheck [DST, SRCA], alignCheck [(DST, 2), (SRCA, 2)]]

/-- Read set and write set of a command from `n` elements to `n` elements (R154). -/
def arrayFootprint (n : Nat) : State → Footprint := fun s =>
  { reads := [⟨s.addr SRCA, 2 * n⟩], writes := [⟨s.addr DST, 2 * n⟩] }

/-- Range-checked stores of `n` elements at `DST` (00_scope.md R13). -/
def arrayEffect (n : Nat) (inRange : Bool) (values : List Int) (s : State) : Effect :=
  ranged inRange (2 * n) [] { bytes := coefBytes values } s

/-- `T`, the row pass of the 4×4 Hadamard (R153). -/
def hadRows (x : Nat → Nat → Int) : Nat → Nat → Int := rowPass had4 x

/-- `HADDC4(X)` as `Y(u,v)` (R153). -/
def haddc4 (x : Nat → Nat → Int) : Nat → Nat → Int := colPass had4 (hadRows x)

/-- `FDC4` (R154). -/
def execFdc4 (s : State) : Out :=
  operation .fdc4 arrayChecks (arrayFootprint 16)
    (fun s =>
      let x := s.coefBlock 4 (s.addr SRCA)
      arrayEffect 16 ((elements 4 (hadRows x) ++ elements 4 (haddc4 x)).all inS16) (elements 4 (haddc4 x)) s)
    s

/-- `IDC4` (R155). -/
def execIdc4 (s : State) : Out :=
  operation .idc4 arrayChecks (arrayFootprint 16)
    (fun s =>
      let x := s.coefBlock 4 (s.addr SRCA)
      arrayEffect 16
        ((elements 4 (hadRows x)).all inS16 && (elements 4 (haddc4 x)).all fun y => inS16 y && inS16 (y + 1))
        ((elements 4 (haddc4 x)).map fun y : Int => asr (y + 1) 1) s)
    s

/-- `HADDC2` (R156). -/
def haddc2 (x : Nat → Int) : List Int :=
  [x 0 + x 1 + x 2 + x 3, x 0 - x 1 + x 2 - x 3, x 0 + x 1 - x 2 - x 3, x 0 - x 1 - x 2 + x 3]

/-- `FDC2` (R157). -/
def execFdc2 (s : State) : Out :=
  operation .fdc2 arrayChecks (arrayFootprint 4)
    (fun s =>
      let y := haddc2 (s.coef (s.addr SRCA))
      arrayEffect 4 (y.all inS16) y s)
    s

/-- `IDC2` (R158). -/
def execIdc2 (s : State) : Out :=
  operation .idc2 arrayChecks (arrayFootprint 4)
    (fun s =>
      let y := haddc2 (s.coef (s.addr SRCA))
      arrayEffect 4 (y.all fun y => inS16 y && inS16 (y + 1)) (y.map fun y : Int => asr (y + 1) 1) s)
    s

/-- `ZIGZAG4` (R167): output element `i` is input element `ZIGZAG4[i]`; always in range. -/
def execZigzag4 (s : State) : Out :=
  operation .zigzag4 arrayChecks (arrayFootprint 16)
    (fun s => { bytes := coefBytes (s.cfg.zigzag4.toList.map fun k => s.coef (s.addr SRCA) k.val) }) s

end Sys2Proof.Machine
end

