-- ==== Sys2Proof/Machine/Intra.lean ====
section
/-! DEFINITION. Intra prediction: the neighbour samples, the formulas of the modes and the shape of every `PRED` command
(43_intra_4x4.md R180 to R185, 44_intra_8x8_16x16_chroma.md R220, R221, R235, R244). -/

namespace Sys2Proof.Machine

/-! ## Neighbours (43_intra_4x4.md R181, 44_intra_8x8_16x16_chroma.md R220) -/

/-- The neighbour samples as functions of the index, with `t[-1] = l[-1] = lt` (43_intra_4x4.md R181). -/
structure Context where
  t : Int → Int
  l : Int → Int

/-- The neighbours around the destination block (43_intra_4x4.md R181): both index -1 name the corner. -/
def State.around (s : State) : Context where
  t := fun i => s.pix s.blockDst i (-1)
  l := fun j => s.pix s.blockDst (-1) j

/-- `E[k]` of the edge array at `TBL` (44_intra_8x8_16x16_chroma.md R220). -/
def State.edge (s : State) (k : Int) : Int := s.load (s.addr TBL + k) 1

/-- The neighbours of the edge array: `lt = E[0]`, `t[i] = E[1+i]`, `l[j] = E[17+j]` (44_intra_8x8_16x16_chroma.md R220). -/
def State.edgeContext (s : State) : Context where
  t := fun i => s.edge (1 + i)
  l := fun j => if j < 0 then s.edge 0 else s.edge (17 + j)

/-! ## Read sets (43_intra_4x4.md R198, 44_intra_8x8_16x16_chroma.md R252) -/

/-- `t[0..n-1]`. -/
def topRun (n : Nat) (s : State) : List Run := s.blockDst.rows 0 (-1) n 1

/-- `l[0..n-1]`. -/
def leftRun (n : Nat) (s : State) : List Run := s.blockDst.rows (-1) 0 1 n

/-- `lt`. -/
def cornerRun (s : State) : List Run := s.blockDst.rows (-1) (-1) 1 1

/-- The 33 bytes of the edge array (44_intra_8x8_16x16_chroma.md R221). -/
def edgeRun (s : State) : List Run := [⟨s.addr TBL, 33⟩]

/-! ## The modes; `n` is the block size (43_intra_4x4.md R184 to R194) -/

/-- `F2` (43_intra_4x4.md R184). -/
def f2 (a b : Int) : Int := asr (a + b + 1) 1

/-- `F3` (43_intra_4x4.md R184). -/
def f3 (a b c : Int) : Int := asr (a + 2 * b + c + 2) 2

/-- Vertical: `t[x]` (43_intra_4x4.md R186). -/
def modeV (c : Context) (x _y : Nat) : Int := c.t x

/-- Horizontal: `l[y]` (43_intra_4x4.md R187). -/
def modeH (c : Context) (_x y : Nat) : Int := c.l y

/-- Diagonal down-left (43_intra_4x4.md R189, 44_intra_8x8_16x16_chroma.md R225). -/
def modeDDL (n : Nat) (c : Context) (x y : Nat) : Int :=
  if x + 1 = n ∧ y + 1 = n then asr (c.t (2 * n - 2) + 3 * c.t (2 * n - 1) + 2) 2
  else f3 (c.t (x + y)) (c.t (x + y + 1)) (c.t (x + y + 2))

/-- Diagonal down-right (43_intra_4x4.md R190, 44_intra_8x8_16x16_chroma.md R226). -/
def modeDDR (c : Context) (x y : Nat) : Int :=
  if y < x then f3 (c.t (x - y - 2)) (c.t (x - y - 1)) (c.t (x - y))
  else if x < y then f3 (c.l (y - x - 2)) (c.l (y - x - 1)) (c.l (y - x))
  else f3 (c.t 0) (c.t (-1)) (c.l 0)

/-- Vertical-right (43_intra_4x4.md R191, 44_intra_8x8_16x16_chroma.md R227). -/
def modeVR (c : Context) (x y : Nat) : Int :=
  let z : Int := 2 * x - y
  let k : Int := x - asr (y : Int) 1
  if 0 ≤ z ∧ z % 2 = 0 then f2 (c.t (k - 1)) (c.t k)
  else if 0 ≤ z then f3 (c.t (k - 2)) (c.t (k - 1)) (c.t k)
  else if z = -1 then f3 (c.l 0) (c.t (-1)) (c.t 0)
  else f3 (c.l (y - 2 * x - 1)) (c.l (y - 2 * x - 2)) (c.l (y - 2 * x - 3))

/-- Horizontal-down (43_intra_4x4.md R192, 44_intra_8x8_16x16_chroma.md R228). -/
def modeHD (c : Context) (x y : Nat) : Int :=
  let z : Int := 2 * y - x
  let k : Int := y - asr (x : Int) 1
  if 0 ≤ z ∧ z % 2 = 0 then f2 (c.l (k - 1)) (c.l k)
  else if 0 ≤ z then f3 (c.l (k - 2)) (c.l (k - 1)) (c.l k)
  else if z = -1 then f3 (c.l 0) (c.t (-1)) (c.t 0)
  else f3 (c.t (x - 2 * y - 1)) (c.t (x - 2 * y - 2)) (c.t (x - 2 * y - 3))

/-- Vertical-left (43_intra_4x4.md R193, 44_intra_8x8_16x16_chroma.md R229). -/
def modeVL (c : Context) (x y : Nat) : Int :=
  let k : Int := x + asr (y : Int) 1
  if y % 2 = 0 then f2 (c.t k) (c.t (k + 1)) else f3 (c.t k) (c.t (k + 1)) (c.t (k + 2))

/-- Horizontal-up (43_intra_4x4.md R194, 44_intra_8x8_16x16_chroma.md R230): the threshold is `2n - 3`, 5 or 13. -/
def modeHU (n : Nat) (c : Context) (x y : Nat) : Int :=
  let z := x + 2 * y
  let k : Int := y + asr (x : Int) 1
  if 2 * n - 3 < z then c.l (n - 1)
  else if z = 2 * n - 3 then asr (c.l (n - 2) + 3 * c.l (n - 1) + 2) 2
  else if z % 2 = 0 then f2 (c.l k) (c.l (k + 1))
  else f3 (c.l k) (c.l (k + 1)) (c.l (k + 2))

/-- `Σ_{i=0..n-1} t[a + i]` and the like. -/
def sumFrom (f : Int → Int) (a n : Nat) : Int := sumTo n fun i => f ((a + i : Nat) : Int)

/-- `(sum + half) >> log2(count)` with `count = 2^k` samples (43_intra_4x4.md R185). -/
def average (sum : Int) (k : Nat) : Int := asr (sum + 2 ^ (k - 1)) k

/-- Full DC of a class of size `n = 2^k` (43_intra_4x4.md R185). -/
def dcFull (k : Nat) (c : Context) : Int := average (sumFrom c.t 0 (2 ^ k) + sumFrom c.l 0 (2 ^ k)) (k + 1)

/-- Left-only DC (43_intra_4x4.md R185). -/
def dcLeft (k : Nat) (c : Context) : Int := average (sumFrom c.l 0 (2 ^ k)) k

/-- Top-only DC (43_intra_4x4.md R185). -/
def dcTop (k : Nat) (c : Context) : Int := average (sumFrom c.t 0 (2 ^ k)) k

/-- Planar prediction of half-size `h`, with `slope` giving `b` from `H` and `c` from `V`
(44_intra_8x8_16x16_chroma.md R235). -/
def planar (h : Nat) (slope : Int → Int) (c : Context) (x y : Nat) : Int :=
  let gradient := fun f : Int → Int => sumTo h fun i => ((i : Int) + 1) * (f (h + i) - f (h - 2 - i))
  let b := slope (gradient c.t)
  let v := slope (gradient c.l)
  let a := 16 * (c.l (2 * h - 1) + c.t (2 * h - 1))
  let i00 := a - (h - 1) * b - (h - 1) * v + 16
  clip8 (asr (i00 + b * x + v * y) 5)

/-- The value of the quadrant a position lies in (44_intra_8x8_16x16_chroma.md R244). -/
def quadrant (tl tr bl br : Int) (x y : Nat) : Int :=
  if y < 4 then (if x < 4 then tl else tr) else (if x < 4 then bl else br)

/-! ## The shape of every `PRED` command (43_intra_4x4.md R180, R183) -/

/-- A command that fills the `n×n` destination block with pixels. -/
def predict (i : Instr) (n : Nat) (nulls : List (Fin 16)) (reads : State → List Run)
    (value : State → Nat → Nat → Int) (s : State) : Out :=
  operation i [nullCheck nulls, strideCheck n [DSTS]]
    (fun s => { reads := reads s, writes := s.blockDst.rows 0 0 n n })
    (fun s => { bytes := raster n n fun x y => pixelByte (value s x y) }) s

/-- A prediction from the neighbours around the block: `PRED4`, `PRED16`, `PREDC` (43_intra_4x4.md R181). -/
def predictAround (i : Instr) (n : Nat) (reads : State → List Run) (value : Context → Nat → Nat → Int)
    (s : State) : Out :=
  predict i n [DST] reads (fun s => value s.around) s

/-- A prediction from the edge array: `PRED8` but `DC128` (44_intra_8x8_16x16_chroma.md R221). -/
def predictEdge (i : Instr) (value : Context → Nat → Nat → Int) (s : State) : Out :=
  predict i 8 [DST, TBL] edgeRun (fun s => value s.edgeContext) s

/-- The constant variant, which reads nothing (43_intra_4x4.md R185, R197). -/
def predict128 (i : Instr) (n : Nat) (s : State) : Out :=
  predict i n [DST] (fun _ => []) (fun _ _ _ => 128) s

end Sys2Proof.Machine
end

