-- ==== Sys2Proof/Machine/Intra16.lean ====
section
/-! DEFINITION. The 7 commands of the 16×16 luma class (44_intra_8x8_16x16_chroma.md R234 to R242). -/

namespace Sys2Proof.Machine

/-- `PRED16.V` (44_intra_8x8_16x16_chroma.md R236). -/
def execPred16V (s : State) : Out := predictAround .pred16V 16 (topRun 16) modeV s

/-- `PRED16.H` (44_intra_8x8_16x16_chroma.md R237). -/
def execPred16H (s : State) : Out := predictAround .pred16H 16 (leftRun 16) modeH s

/-- `PRED16.DC` (44_intra_8x8_16x16_chroma.md R238). -/
def execPred16DC (s : State) : Out :=
  predictAround .pred16DC 16 (fun s => topRun 16 s ++ leftRun 16 s) (fun c _ _ => dcFull 4 c) s

/-- `PRED16.DCL` (44_intra_8x8_16x16_chroma.md R239). -/
def execPred16DCL (s : State) : Out := predictAround .pred16DCL 16 (leftRun 16) (fun c _ _ => dcLeft 4 c) s

/-- `PRED16.DCT` (44_intra_8x8_16x16_chroma.md R240). -/
def execPred16DCT (s : State) : Out := predictAround .pred16DCT 16 (topRun 16) (fun c _ _ => dcTop 4 c) s

/-- `PRED16.DC128` (44_intra_8x8_16x16_chroma.md R241). -/
def execPred16DC128 (s : State) : Out := predict128 .pred16DC128 16 s

/-- `PRED16.P` (44_intra_8x8_16x16_chroma.md R242). -/
def execPred16P (s : State) : Out :=
  predictAround .pred16P 16 (fun s => cornerRun s ++ topRun 16 s ++ leftRun 16 s) (planar 8 fun g => asr (5 * g + 32) 6) s

end Sys2Proof.Machine
end

