-- ==== Sys2Proof/Machine/Intra4.lean ====
section
/-! DEFINITION. The 12 commands of the 4×4 luma class (43_intra_4x4.md R186 to R198). -/

namespace Sys2Proof.Machine

/-- `PRED4.V` (43_intra_4x4.md R186). -/
def execPred4V (s : State) : Out := predictAround .pred4V 4 (topRun 4) modeV s

/-- `PRED4.H` (43_intra_4x4.md R187). -/
def execPred4H (s : State) : Out := predictAround .pred4H 4 (leftRun 4) modeH s

/-- `PRED4.DC` (43_intra_4x4.md R188). -/
def execPred4DC (s : State) : Out :=
  predictAround .pred4DC 4 (fun s => topRun 4 s ++ leftRun 4 s) (fun c _ _ => dcFull 2 c) s

/-- `PRED4.DDL` (43_intra_4x4.md R189). -/
def execPred4DDL (s : State) : Out := predictAround .pred4DDL 4 (topRun 8) (modeDDL 4) s

/-- `PRED4.DDR` (43_intra_4x4.md R190). -/
def execPred4DDR (s : State) : Out :=
  predictAround .pred4DDR 4 (fun s => cornerRun s ++ topRun 4 s ++ leftRun 4 s) modeDDR s

/-- `PRED4.VR` (43_intra_4x4.md R191). -/
def execPred4VR (s : State) : Out :=
  predictAround .pred4VR 4 (fun s => cornerRun s ++ topRun 4 s ++ leftRun 3 s) modeVR s

/-- `PRED4.HD` (43_intra_4x4.md R192). -/
def execPred4HD (s : State) : Out :=
  predictAround .pred4HD 4 (fun s => cornerRun s ++ topRun 3 s ++ leftRun 4 s) modeHD s

/-- `PRED4.VL` (43_intra_4x4.md R193). -/
def execPred4VL (s : State) : Out := predictAround .pred4VL 4 (topRun 7) modeVL s

/-- `PRED4.HU` (43_intra_4x4.md R194). -/
def execPred4HU (s : State) : Out := predictAround .pred4HU 4 (leftRun 4) (modeHU 4) s

/-- `PRED4.DCL` (43_intra_4x4.md R195). -/
def execPred4DCL (s : State) : Out := predictAround .pred4DCL 4 (leftRun 4) (fun c _ _ => dcLeft 2 c) s

/-- `PRED4.DCT` (43_intra_4x4.md R196). -/
def execPred4DCT (s : State) : Out := predictAround .pred4DCT 4 (topRun 4) (fun c _ _ => dcTop 2 c) s

/-- `PRED4.DC128` (43_intra_4x4.md R197). -/
def execPred4DC128 (s : State) : Out := predict128 .pred4DC128 4 s

end Sys2Proof.Machine
end

