-- ==== Sys2Proof/Machine/Intra8.lean ====
section
/-! DEFINITION. The 12 commands of the 8×8 luma class (44_intra_8x8_16x16_chroma.md R220 to R233). -/

namespace Sys2Proof.Machine

/-- `PRED8.V` (44_intra_8x8_16x16_chroma.md R222). -/
def execPred8V (s : State) : Out := predictEdge .pred8V modeV s

/-- `PRED8.H` (44_intra_8x8_16x16_chroma.md R223). -/
def execPred8H (s : State) : Out := predictEdge .pred8H modeH s

/-- `PRED8.DC` (44_intra_8x8_16x16_chroma.md R224). -/
def execPred8DC (s : State) : Out := predictEdge .pred8DC (fun c _ _ => dcFull 3 c) s

/-- `PRED8.DDL` (44_intra_8x8_16x16_chroma.md R225). -/
def execPred8DDL (s : State) : Out := predictEdge .pred8DDL (modeDDL 8) s

/-- `PRED8.DDR` (44_intra_8x8_16x16_chroma.md R226). -/
def execPred8DDR (s : State) : Out := predictEdge .pred8DDR modeDDR s

/-- `PRED8.VR` (44_intra_8x8_16x16_chroma.md R227). -/
def execPred8VR (s : State) : Out := predictEdge .pred8VR modeVR s

/-- `PRED8.HD` (44_intra_8x8_16x16_chroma.md R228). -/
def execPred8HD (s : State) : Out := predictEdge .pred8HD modeHD s

/-- `PRED8.VL` (44_intra_8x8_16x16_chroma.md R229). -/
def execPred8VL (s : State) : Out := predictEdge .pred8VL modeVL s

/-- `PRED8.HU` (44_intra_8x8_16x16_chroma.md R230). -/
def execPred8HU (s : State) : Out := predictEdge .pred8HU (modeHU 8) s

/-- `PRED8.DCL` (44_intra_8x8_16x16_chroma.md R231). -/
def execPred8DCL (s : State) : Out := predictEdge .pred8DCL (fun c _ _ => dcLeft 3 c) s

/-- `PRED8.DCT` (44_intra_8x8_16x16_chroma.md R232). -/
def execPred8DCT (s : State) : Out := predictEdge .pred8DCT (fun c _ _ => dcTop 3 c) s

/-- `PRED8.DC128` (44_intra_8x8_16x16_chroma.md R233). -/
def execPred8DC128 (s : State) : Out := predict128 .pred8DC128 8 s

end Sys2Proof.Machine
end

