-- ==== Sys2Proof/Machine/IntraC.lean ====
section
/-! DEFINITION. The 7 commands of the 8×8 chroma class (44_intra_8x8_16x16_chroma.md R243 to R251). -/

namespace Sys2Proof.Machine

/-- The values of the four quadrants from the partial sums `s0 .. s3` (44_intra_8x8_16x16_chroma.md R244, R247). -/
def chromaDc (c : Context) : Nat → Nat → Int :=
  let s0 := sumFrom c.t 0 4
  let s1 := sumFrom c.t 4 4
  let s2 := sumFrom c.l 0 4
  let s3 := sumFrom c.l 4 4
  quadrant (asr (s0 + s2 + 4) 3) (asr (s1 + 2) 2) (asr (s3 + 2) 2) (asr (s1 + s3 + 4) 3)

/-- Left only (44_intra_8x8_16x16_chroma.md R248). -/
def chromaDcLeft (c : Context) : Nat → Nat → Int :=
  let upper := asr (sumFrom c.l 0 4 + 2) 2
  let lower := asr (sumFrom c.l 4 4 + 2) 2
  quadrant upper upper lower lower

/-- Top only (44_intra_8x8_16x16_chroma.md R249). -/
def chromaDcTop (c : Context) : Nat → Nat → Int :=
  let left := asr (sumFrom c.t 0 4 + 2) 2
  let right := asr (sumFrom c.t 4 4 + 2) 2
  quadrant left right left right

/-- `PREDC.V` (44_intra_8x8_16x16_chroma.md R245). -/
def execPredCV (s : State) : Out := predictAround .predCV 8 (topRun 8) modeV s

/-- `PREDC.H` (44_intra_8x8_16x16_chroma.md R246). -/
def execPredCH (s : State) : Out := predictAround .predCH 8 (leftRun 8) modeH s

/-- `PREDC.DC` (44_intra_8x8_16x16_chroma.md R247). -/
def execPredCDC (s : State) : Out := predictAround .predCDC 8 (fun s => topRun 8 s ++ leftRun 8 s) chromaDc s

/-- `PREDC.DCL` (44_intra_8x8_16x16_chroma.md R248). -/
def execPredCDCL (s : State) : Out := predictAround .predCDCL 8 (leftRun 8) chromaDcLeft s

/-- `PREDC.DCT` (44_intra_8x8_16x16_chroma.md R249). -/
def execPredCDCT (s : State) : Out := predictAround .predCDCT 8 (topRun 8) chromaDcTop s

/-- `PREDC.DC128` (44_intra_8x8_16x16_chroma.md R250). -/
def execPredCDC128 (s : State) : Out := predict128 .predCDC128 8 s

/-- `PREDC.P` (44_intra_8x8_16x16_chroma.md R251). -/
def execPredCP (s : State) : Out :=
  predictAround .predCP 8 (fun s => cornerRun s ++ topRun 8 s ++ leftRun 8 s) (planar 4 fun g => asr (17 * g + 16) 5) s

end Sys2Proof.Machine
end

