-- ==== Sys2Proof/Machine/Motion.lean ====
section
/-! DEFINITION. The motion-compensation commands (45_motion_comp.md R270 to R283). -/

namespace Sys2Proof.Machine

/-- A command that fills the `w×h` destination block with pixels (R270). -/
def fill (i : Instr) (wc hc : SizeCode) (checks : List Check) (reads : State → List Run)
    (value : State → Nat → Nat → Int) (s : State) : Out :=
  operation i (sizeCheck .mc9 wc hc :: checks)
    (fun s => { reads := reads s, writes := s.blockDst.rows 0 0 wc.pixels hc.pixels })
    (fun s => { bytes := raster wc.pixels hc.pixels fun x y => pixelByte (value s x y) }) s

/-! ## Luma (R271, R272) -/

/-- A fractional part `v & m` for `m + 1 = n`, a power of two (00_scope.md R12). -/
def fraction (v : Int) (n : Nat) : Nat := (v % n).toNat

/-- `fx` and `fy` (R272). -/
def State.lumaFx (s : State) : Nat := fraction (s.sval P0) 4
def State.lumaFy (s : State) : Nat := fraction (s.sval P1) 4

/-- The phase `4*fy + fx`, 0..15 (R272). -/
def State.phase (s : State) : Fin 16 := Fin.ofNat 16 (4 * s.lumaFy + s.lumaFx)

/-- The register that holds the base of a plane (R271). -/
def planeReg (p : Fin 4) : Fin 16 :=
  match p with
  | 0 => SRCB
  | 1 => SRCB1
  | 2 => SRCB2
  | 3 => SRCB3

/-- Whether the phase has a second source (R272). -/
def State.lumaTwo (s : State) : Bool := s.lumaFx % 2 = 1 || s.lumaFy % 2 = 1

/-- The registers of the two sources. -/
def State.lumaReg1 (s : State) : Fin 16 := planeReg s.cfg.hpelRef0[s.phase]
def State.lumaReg2 (s : State) : Fin 16 := planeReg s.cfg.hpelRef1[s.phase]

/-- `off` (R272). -/
def State.lumaOff (s : State) : Int := asr (s.sval P1) 2 * s.sval SRCBS + asr (s.sval P0) 2

/-- The block at `base1` (R272). -/
def State.lumaSrc1 (s : State) : Block where
  base := s.addr s.lumaReg1 + s.lumaOff + (if s.lumaFy = 3 then s.sval SRCBS else 0)
  stride := s.sval SRCBS

/-- The block at `base2` (R272). -/
def State.lumaSrc2 (s : State) : Block where
  base := s.addr s.lumaReg2 + s.lumaOff + (if s.lumaFx = 3 then 1 else 0)
  stride := s.sval SRCBS

/-- `NULL_BUFFER` for `DST` and each plane the phase uses, lowest register first (R272). -/
def lumaNulls : Check := fun s =>
  nullCheck (DST :: [SRCB, SRCB1, SRCB2, SRCB3].filter fun r =>
    r = s.lumaReg1 || (s.lumaTwo && r = s.lumaReg2)) s

/-- `MCLUMA.WxH` (R272). -/
def execMcluma (wc hc : SizeCode) (s : State) : Out :=
  fill (.mcluma wc hc) wc hc [lumaNulls, strideCheck wc.pixels [DSTS, SRCBS]]
    (fun s =>
      s.lumaSrc1.rows 0 0 wc.pixels hc.pixels
        ++ (if s.lumaTwo then s.lumaSrc2.rows 0 0 wc.pixels hc.pixels else []))
    (fun s x y =>
      if s.lumaTwo then asr (s.pix s.lumaSrc1 x y + s.pix s.lumaSrc2 x y + 1) 1
      else s.pix s.lumaSrc1 x y)
    s

/-! ## Chroma (R275, R276) -/

/-- The checks of a command with source block B (R276, R278, R281). -/
def sourceChecks (w : Nat) : List Check := [nullCheck [DST, SRCB], strideCheck w [DSTS, SRCBS]]

/-- The source block displaced by the integer part of the vector (R276). -/
def State.chromaSrc (s : State) : Block where
  base := s.addr SRCB + asr (s.sval P1) 3 * s.sval SRCBS + asr (s.sval P0) 3
  stride := s.sval SRCBS

/-- The bilinear weighting of the four samples at `(x, y)` (R276). -/
def State.chromaValue (s : State) (x y : Nat) : Int :=
  let dx : Int := fraction (s.sval P0) 8
  let dy : Int := fraction (s.sval P1) 8
  let p := fun i j : Nat => s.pix s.chromaSrc i j
  asr ((8 - dx) * (8 - dy) * p x y + dx * (8 - dy) * p (x + 1) y + (8 - dx) * dy * p x (y + 1)
    + dx * dy * p (x + 1) (y + 1) + 32) 6

/-- `MCCHROMA.WxH` (R276); the `(w+1)×(h+1)` block is read for every vector. -/
def execMcchroma (wc hc : SizeCode) (s : State) : Out :=
  fill (.mcchroma wc hc) wc hc (sourceChecks wc.pixels)
    (fun s => s.chromaSrc.rows 0 0 (wc.pixels + 1) (hc.pixels + 1)) State.chromaValue s

/-! ## Copy and average -/

/-- `COPY.WxH` (R278). -/
def execCopy (wc hc : SizeCode) (s : State) : Out :=
  fill (.copy wc hc) wc hc (sourceChecks wc.pixels) (fun s => s.blockB.rows 0 0 wc.pixels hc.pixels)
    (fun s x y => s.pix s.blockB x y) s

/-- `AVG.WxH` (R279). -/
def execAvg (wc hc : SizeCode) (s : State) : Out :=
  fill (.avg wc hc) wc hc [nullCheck [DST, SRCA, SRCB], strideCheck wc.pixels [DSTS, SRCAS, SRCBS]]
    (fun s => pairRuns wc.pixels hc.pixels s)
    (fun s x y => asr (s.pix s.blockA x y + s.pix s.blockB x y + 1) 1) s

/-! ## Half-pel filters -/

/-- `TAP6` of six consecutive samples (R280). -/
def tap6 (p : Int → Int) : Int := p 0 - 5 * p 1 + 20 * p 2 + 20 * p 3 - 5 * p 4 + p 5

/-- The vertical filter at `(x, y)`, neither rounded nor clipped: `tv(x, y)` of R283. -/
def State.tapV (s : State) (x y : Int) : Int := tap6 fun k => s.pix s.blockB x (y - 2 + k)

/-- The horizontal filter at `(x, y)`, neither rounded nor clipped (R281). -/
def State.tapH (s : State) (x y : Int) : Int := tap6 fun k => s.pix s.blockB (x - 2 + k) y

/-- `HPELH.WxH` (R281). -/
def execHpelh (wc hc : SizeCode) (s : State) : Out :=
  fill (.hpelh wc hc) wc hc (sourceChecks wc.pixels) (fun s => s.blockB.rows (-2) 0 (wc.pixels + 5) hc.pixels)
    (fun s x y => clip8 (asr (s.tapH x y + 16) 5)) s

/-- `HPELV.WxH` (R282). -/
def execHpelv (wc hc : SizeCode) (s : State) : Out :=
  fill (.hpelv wc hc) wc hc (sourceChecks wc.pixels) (fun s => s.blockB.rows 0 (-2) wc.pixels (hc.pixels + 5))
    (fun s x y => clip8 (asr (s.tapV x y + 16) 5)) s

/-- `HPELC.WxH` (R283). -/
def execHpelc (wc hc : SizeCode) (s : State) : Out :=
  fill (.hpelc wc hc) wc hc (sourceChecks wc.pixels)
    (fun s => s.blockB.rows (-2) (-2) (wc.pixels + 5) (hc.pixels + 5))
    (fun s x y => clip8 (asr (tap6 (fun k => s.tapV (x - 2 + k) y) + 512) 10)) s

end Sys2Proof.Machine
end

