-- ==== Sys2Proof/Machine/Quant.lean ====
section
/-! DEFINITION. The quantizer commands (42_transform_quant.md R160 to R165). -/

namespace Sys2Proof.Machine

/-- `QUANT1(c, mf, f, qbits)` (R161). -/
def quant1 (c : Int) (mf f qbits : Nat) : Int := isign c * asr (iabs c * mf + f) qbits

/-- `BAD_PARAM(9)` if `uval(P0) >= 2^uval(P1)`, never when `uval(P1) >= 32`; `BAD_PARAM(10)` if `uval(P1) > 31` (R162). -/
def quantParams : List Check :=
  [paramCheck P0 fun s => decide (32 ≤ s.uval P1) || decide (s.uval P0 < 2 ^ s.uval P1),
    paramCheck P1 fun s => decide (s.uval P1 ≤ 31)]

/-- The levels of `n` coefficients at `SRCA` for the multiplier of each position (R162). -/
def levels (n : Nat) (mf : Nat → Nat) (s : State) : List Int :=
  (List.range n).map fun i => quant1 (s.coef (s.addr SRCA) i) (mf i) (s.uval P0) (s.uval P1)

/-- Every `abs(level_i)` is at most 32767, else the whole write set is unspecified (R162). -/
def quantEffect (n : Nat) (mf : Nat → Nat) (s : State) : Effect :=
  let ls := levels n mf s
  arrayEffect n (ls.all fun l => decide (iabs l ≤ 32767)) ls s

/-- Quantization with a table of multipliers at `TBL` (R160, R162). -/
def quantTable (i : Instr) (n : Nat) (s : State) : Out :=
  operation i (quantParams ++ [nullCheck [DST, SRCA, TBL], alignCheck [(DST, 2), (SRCA, 2), (TBL, 4)]])
    (fun s =>
      { reads := [⟨s.addr SRCA, 2 * n⟩, ⟨s.addr TBL, 4 * n⟩], writes := [⟨s.addr DST, 2 * n⟩] })
    (fun s => quantEffect n (fun i => (s.u32 (s.addr TBL) i).toNat) s) s

/-- Quantization with the one multiplier in `P2` (R164). -/
def quantScalar (i : Instr) (n : Nat) (s : State) : Out :=
  operation i (quantParams ++ arrayChecks) (arrayFootprint n) (fun s => quantEffect n (fun _ => s.uval P2) s) s

/-- `QUANT4` (R162). -/
def execQuant4 (s : State) : Out := quantTable .quant4 16 s

/-- `QUANT8` (R163). -/
def execQuant8 (s : State) : Out := quantTable .quant8 64 s

/-- `QUANTDC4` (R164). -/
def execQuantdc4 (s : State) : Out := quantScalar .quantdc4 16 s

/-- `QUANTDC2` (R165). -/
def execQuantdc2 (s : State) : Out := quantScalar .quantdc2 4 s

end Sys2Proof.Machine
end

