-- ==== Sys2Proof/Machine/Dispatch.lean ====
section
/-! DEFINITION. One arm for each instruction: the call of its meaning. The meanings take the engine as `RUNNING` with the
command fetched and decoded (00_scope.md R17); the step sees to that. -/

namespace Sys2Proof.Machine

/-- What an instruction does. -/
def exec (i : Instr) (s : State) : Host.Outcome State Fault Refusal :=
  match i with
  | .endList => Sys2Proof.Machine.execEndList s
  | .ldi r imm => Sys2Proof.Machine.execLdi r imm s
  | .stq r imm => Sys2Proof.Machine.execStq r imm s
  | .init imm => Sys2Proof.Machine.execInit imm s
  | .sad wc hc => Sys2Proof.Machine.execSad wc hc s
  | .sadx3 wc hc => Sys2Proof.Machine.execSadx3 wc hc s
  | .sadx4 wc hc => Sys2Proof.Machine.execSadx4 wc hc s
  | .ssd wc hc => Sys2Proof.Machine.execSsd wc hc s
  | .ssdwh => Sys2Proof.Machine.execSsdwh s
  | .satd wc hc => Sys2Proof.Machine.execSatd wc hc s
  | .sa8d wc hc => Sys2Proof.Machine.execSa8d wc hc s
  | .ads1 => Sys2Proof.Machine.execAds1 s
  | .ads2 => Sys2Proof.Machine.execAds2 s
  | .ads4 => Sys2Proof.Machine.execAds4 s
  | .ssim4 => Sys2Proof.Machine.execSsim4 s
  | .fdct4 wc hc => Sys2Proof.Machine.execFdct4 wc hc s
  | .idct4 wc hc => Sys2Proof.Machine.execIdct4 wc hc s
  | .fdct8 => Sys2Proof.Machine.execFdct8 s
  | .idct8 => Sys2Proof.Machine.execIdct8 s
  | .fdc4 => Sys2Proof.Machine.execFdc4 s
  | .idc4 => Sys2Proof.Machine.execIdc4 s
  | .fdc2 => Sys2Proof.Machine.execFdc2 s
  | .idc2 => Sys2Proof.Machine.execIdc2 s
  | .quant4 => Sys2Proof.Machine.execQuant4 s
  | .quant8 => Sys2Proof.Machine.execQuant8 s
  | .quantdc4 => Sys2Proof.Machine.execQuantdc4 s
  | .quantdc2 => Sys2Proof.Machine.execQuantdc2 s
  | .zigzag4 => Sys2Proof.Machine.execZigzag4 s
  | .pred4V => Sys2Proof.Machine.execPred4V s
  | .pred4H => Sys2Proof.Machine.execPred4H s
  | .pred4DC => Sys2Proof.Machine.execPred4DC s
  | .pred4DDL => Sys2Proof.Machine.execPred4DDL s
  | .pred4DDR => Sys2Proof.Machine.execPred4DDR s
  | .pred4VR => Sys2Proof.Machine.execPred4VR s
  | .pred4HD => Sys2Proof.Machine.execPred4HD s
  | .pred4VL => Sys2Proof.Machine.execPred4VL s
  | .pred4HU => Sys2Proof.Machine.execPred4HU s
  | .pred4DCL => Sys2Proof.Machine.execPred4DCL s
  | .pred4DCT => Sys2Proof.Machine.execPred4DCT s
  | .pred4DC128 => Sys2Proof.Machine.execPred4DC128 s
  | .pred8V => Sys2Proof.Machine.execPred8V s
  | .pred8H => Sys2Proof.Machine.execPred8H s
  | .pred8DC => Sys2Proof.Machine.execPred8DC s
  | .pred8DDL => Sys2Proof.Machine.execPred8DDL s
  | .pred8DDR => Sys2Proof.Machine.execPred8DDR s
  | .pred8VR => Sys2Proof.Machine.execPred8VR s
  | .pred8HD => Sys2Proof.Machine.execPred8HD s
  | .pred8VL => Sys2Proof.Machine.execPred8VL s
  | .pred8HU => Sys2Proof.Machine.execPred8HU s
  | .pred8DCL => Sys2Proof.Machine.execPred8DCL s
  | .pred8DCT => Sys2Proof.Machine.execPred8DCT s
  | .pred8DC128 => Sys2Proof.Machine.execPred8DC128 s
  | .pred16V => Sys2Proof.Machine.execPred16V s
  | .pred16H => Sys2Proof.Machine.execPred16H s
  | .pred16DC => Sys2Proof.Machine.execPred16DC s
  | .pred16DCL => Sys2Proof.Machine.execPred16DCL s
  | .pred16DCT => Sys2Proof.Machine.execPred16DCT s
  | .pred16DC128 => Sys2Proof.Machine.execPred16DC128 s
  | .pred16P => Sys2Proof.Machine.execPred16P s
  | .predCV => Sys2Proof.Machine.execPredCV s
  | .predCH => Sys2Proof.Machine.execPredCH s
  | .predCDC => Sys2Proof.Machine.execPredCDC s
  | .predCDCL => Sys2Proof.Machine.execPredCDCL s
  | .predCDCT => Sys2Proof.Machine.execPredCDCT s
  | .predCDC128 => Sys2Proof.Machine.execPredCDC128 s
  | .predCP => Sys2Proof.Machine.execPredCP s
  | .mcluma wc hc => Sys2Proof.Machine.execMcluma wc hc s
  | .mcchroma wc hc => Sys2Proof.Machine.execMcchroma wc hc s
  | .copy wc hc => Sys2Proof.Machine.execCopy wc hc s
  | .avg wc hc => Sys2Proof.Machine.execAvg wc hc s
  | .hpelh wc hc => Sys2Proof.Machine.execHpelh wc hc s
  | .hpelv wc hc => Sys2Proof.Machine.execHpelv wc hc s
  | .hpelc wc hc => Sys2Proof.Machine.execHpelc wc hc s

end Sys2Proof.Machine
end

