-- ==== Sys2Proof/Machine/Sets.lean ====
section
/-! DEFINITION. Sets of addresses as rectangles, and the write set of every instruction, written from the rules of the
commands: the one that the check phase tests (20_memory.md R60). -/

namespace Sys2Proof.Machine

/-- The address of the byte at `(x, y)` of a rectangle. -/
def Rect.addr (r : Rect) (x y : Int) : Int := r.base + (r.y0 + y) * r.stride + (r.x0 + x)

/-- The address is one of the rectangle's. -/
def Rect.covers (r : Rect) (a : Int) : Bool :=
  (List.range r.h).any fun y : Nat => decide (r.addr 0 y ≤ a ∧ a < r.addr 0 y + r.w)

/-- The address is one of a set's. -/
def covers (rs : List Rect) (a : Int) : Bool := rs.any fun r => r.covers a

/-- `zext_32(g[r])`. -/
abbrev State.unsignedReg (s : State) (r : Fin 16) : Int := (s.g[r].toNat : Int)

/-- `sext_32(g[r])`. -/
abbrev State.signedReg (s : State) (r : Fin 16) : Int := s.g[r].toInt

/-- `n` consecutive bytes. -/
def stretch (a : Int) (n : Nat) : Rect := ⟨a, 0, 0, 0, n, 1⟩

/-- Samples of the block whose base and stride two registers hold. -/
def State.area (s : State) (base stride : Fin 16) (x0 y0 : Int) (w h : Nat) : Rect :=
  ⟨s.unsignedReg base, s.signedReg stride, x0, y0, w, h⟩

/-- Prediction commands: the class's block size (43_intra_4x4.md R180). -/
def predictionSize : Instr → Option Nat
  | .pred4V | .pred4H | .pred4DC | .pred4DDL | .pred4DDR | .pred4VR | .pred4HD | .pred4VL | .pred4HU | .pred4DCL
  | .pred4DCT | .pred4DC128 => some 4
  | .pred8V | .pred8H | .pred8DC | .pred8DDL | .pred8DDR | .pred8VR | .pred8HD | .pred8VL | .pred8HU | .pred8DCL
  | .pred8DCT | .pred8DC128 => some 8
  | .pred16V | .pred16H | .pred16DC | .pred16DCL | .pred16DCT | .pred16DC128 | .pred16P => some 16
  | .predCV | .predCH | .predCDC | .predCDCL | .predCDCT | .predCDC128 | .predCP => some 8
  | _ => none

/-- The write set for the purpose of checking (20_memory.md R60): of an ADS command the largest it could be. What a command
writes, for 20_memory.md R67, is `storedBy` of Machine/Races.lean. -/
def writes (i : Instr) (s : State) : List Rect :=
  match i with
  | .stq _ imm => [stretch imm.toNat 4]
  | .ads1 | .ads2 | .ads4 => [stretch (s.unsignedReg 0) (2 * s.g[(9 : Fin 16)].toNat)]
  | .fdct4 wc hc => [stretch (s.unsignedReg 0) (2 * wc.pixels * hc.pixels)]
  | .fdct8 | .quant8 => [stretch (s.unsignedReg 0) 128]
  | .fdc4 | .idc4 | .quant4 | .quantdc4 | .zigzag4 => [stretch (s.unsignedReg 0) 32]
  | .fdc2 | .idc2 | .quantdc2 => [stretch (s.unsignedReg 0) 8]
  | .idct4 wc hc | .mcluma wc hc | .mcchroma wc hc | .copy wc hc | .avg wc hc | .hpelh wc hc | .hpelv wc hc
  | .hpelc wc hc => [s.area 0 1 0 0 wc.pixels hc.pixels]
  | .idct8 => [s.area 0 1 0 0 8 8]
  | i => match predictionSize i with
    | some n => [s.area 0 1 0 0 n n]
    | none => []

end Sys2Proof.Machine
end

