-- ==== Sys2Proof/Machine/Races.lean ====
section
/-! DEFINITION. The fetch and the command at `CP`, also where the host has written memory during the run: 20_memory.md R67
and 93_implementation_defined.md U3 leave open, byte by byte, whether a racing read returns the engine's value or the host's
(log 6). While the host has written nothing during the run, all of this is the fetch and the command alone. -/

namespace Sys2Proof.Machine

/-! ## Racing values -/

/-- The cell is in the list. -/
def note (c : Host.Cell) (cs : List Host.Cell) : List Host.Cell := if c ∈ cs then cs else c :: cs

/-- The memory that the reads of one command see: each racing value is returned, or not, as a free choice says; all reads of
one command see one memory (20_memory.md R65). -/
def Memory.seen : Memory → List Host.Cell → Nat → Memory
  | m, [], _ => m
  | m, (a, v) :: cs, n => Memory.seen (if Config.freeBit n then m.write a v else m) cs (n + 1)

/-- The state as the next command sees it. -/
def State.seen (s : State) : State :=
  { s with mem := s.mem.seen s.raced s.fresh, fresh := s.fresh + s.raced.length }

/-- How many bytes of its list an ADS command writes: two for each accepted candidate; out of range all that the list could
take, which are unspecified (41_metrics.md R127; log 14). -/
def adsStored (off : List Int) (s : State) : Nat :=
  if adsInRange off s then 2 * (adsAccepted off s).length else 2 * s.uval P0

/-- The bytes that a completed command writes, which its rule gives: its write set; of an ADS command the part of it that its
list fills, since the rest keeps its values (41_metrics.md R127; DEDUCED to be the write set of 20_memory.md R67: log 23). -/
def storedBy (i : Instr) (s : State) : List Rect :=
  match i with
  | .ads1 => [stretch (s.unsignedReg 0) (adsStored [0] s)]
  | .ads2 => [stretch (s.unsignedReg 0) (adsStored [0, s.sval P2] s)]
  | .ads4 => [stretch (s.unsignedReg 0) (adsStored [0, 8, s.sval P2, s.sval P2 + 8] s)]
  | i => writes i s

/-- Memory after a command, `m` being what the command left: a racing byte that the command wrote holds the engine's value
or the host's, as a free choice says; one that it did not write holds the host's. -/
def Memory.settle (ws : List Rect) (host engine : Memory) : List Host.Cell → Nat → Memory → Memory
  | [], _, m => m
  | (a, _) :: cs, n, m =>
    Memory.settle ws host engine cs (n + 1)
      (m.write a (if covers ws a && Config.freeBit n then engine.read a else host.read a))

/-- The racing values that a command which wrote `ws` adds: of each racing byte it wrote, the host's value and its own. -/
def newRaces (ws : List Rect) (host engine : Memory) (cs : List Host.Cell) : List Host.Cell :=
  (cs.filter fun c => covers ws c.1).flatMap fun c => [(c.1, host.read c.1), (c.1, engine.read c.1)]

/-- The state after a command that wrote `ws` and took the state `s`, as it saw it, to `t`. -/
def State.settle (s : State) (ws : List Rect) (t : State) : State :=
  { t with
    mem := Memory.settle ws s.mem t.mem s.raced t.fresh t.mem
    raced := (newRaces ws s.mem t.mem s.raced).foldr note s.raced
    written := ws ++ t.written
    fresh := t.fresh + s.raced.length }

/-! ## The command at `CP` -/

/-- `W0` of the command at an address (20_memory.md R51). -/
def Memory.w0 (m : Memory) (a : Nat) : Word :=
  wordOfBytes (m.read a) (m.read (a + 1)) (m.read (a + 2)) (m.read (a + 3))

/-- After a command: one that faulted has written nothing (60_exceptions.md R334), one that completed has written `ws`. -/
def State.afterCommand (s : State) (ws : List Rect) (o : Out) : Out :=
  match o with
  | .next t => .next (if t.st = .faulted then { t with mem := s.mem } else s.settle ws t)
  | .fault f => .fault f
  | .refused r => .refused r

/-- Steps 1 to 3 of 60_exceptions.md R333 for the command at `CP`, then the command itself. The two fetch faults read no
memory. -/
def State.fetchAndRun (s : State) : Out :=
  if s.cp.toNat % 8 ≠ 0 then .next (s.raise ⟨.misaligned, s.cp⟩)
  else if s.cfg.memSize < s.cp.toNat + 8 then .next (s.raise ⟨.access, s.cp⟩)
  else match decode (s.seen.mem.fetch s.cp.toNat) with
    | .ok i => s.afterCommand (storedBy i s.seen) (exec i s.seen)
    | .error _ => s.afterCommand [] (.next (s.seen.raise ⟨.illegalCommand, s.seen.mem.w0 s.cp.toNat⟩))

/-! ## The run ahead -/

/-- The engine alone, for so many commands or to the end of the run (10_state.md R47). -/
def State.runAlone : Nat → State → State
  | 0, s => s
  | n + 1, s =>
    if s.st = .running then
      match s.fetchAndRun with
      | .next t => t.runAlone n
      | _ => s
    else s

/-- More commands than a run has whose `CP` does not wrap: memory holds `MEM_SIZE/8` at most, and a fault may follow. -/
def State.runBound (s : State) : Nat := s.cfg.memSize / 8 + 2

/-- The run ahead if the host does not move again: at its end; a run that may be endless (10_state.md R47) at a free number of
commands beyond the bound, so that what is said of it holds at every point (log 7). -/
def State.runAhead (s : State) : State :=
  let t := State.runAlone s.runBound { s with moves := [] }
  if t.st = .running then t.runAlone (Config.freeCount s.fresh) else t

end Sys2Proof.Machine
end

