-- ==== Sys2Proof/Machine/HostMoves.lean ====
section
/-! DEFINITION. The operations of the host: the port (10_state.md R44, R45) and direct access to memory
(20_memory.md R67). -/

namespace Sys2Proof.Machine

/-- No command of the run writes the byte, as far as the run ahead is looked at. -/
def State.unwrittenByRun (s : State) (addr : Nat) : Bool := !covers s.runAhead.written addr

/-- The host's read of a byte of memory: the byte; but a free value while the engine is `RUNNING` and a command of
the run writes the byte (20_memory.md R67, 93_implementation_defined.md U3; log 7). -/
def State.hostMemRead (s : State) (addr : Nat) : Out :=
  if s.cfg.memSize ≤ addr then .fault (.hostAddressOutside addr)
  else if s.st ≠ .running || s.unwrittenByRun addr then
    .next { s with reply := some ((s.mem.read addr).setWidth 32) }
  else .next { s with reply := some ((Config.freeByte s.fresh).setWidth 32), fresh := s.fresh + 1 }

/-- The host's write of a byte while the engine is `RUNNING`: memory holds the host's value, or, for a byte that a command of
the run has written, that value or the host's as a free choice says; from then on the engine's reads of the byte race
(20_memory.md R67, 93_implementation_defined.md U3; log 6). -/
def State.racingWrite (s : State) (addr : Nat) (v : Byte) : State :=
  { s with
    mem := if covers s.written addr && Config.freeBit s.fresh then s.mem else s.mem.write addr v
    raced := note (addr, s.mem.read addr) (note (addr, v) s.raced)
    fresh := if covers s.written addr then s.fresh + 1 else s.fresh }

/-- The host's write of a byte of memory (20_memory.md R67). -/
def State.hostMemWrite (s : State) (addr : Nat) (v : Byte) : Out :=
  if s.cfg.memSize ≤ addr then .fault (.hostAddressOutside addr)
  else if s.st = .running then .next (s.racingWrite addr v)
  else .next { s with mem := s.mem.write addr v }

/-- One operation of the host (10_state.md R44, 20_memory.md R67). -/
def hostMove (op : HostOp) (s : State) : Out :=
  match op with
  | .reset => .next s.hostReset
  | .start addr => .next (s.hostStart addr)
  | .read n => .next { s with reply := some (s.port n) }
  | .write n v => .next (s.hostWrite n v)
  | .memRead addr => s.hostMemRead addr
  | .memWrite addr v => s.hostMemWrite addr v

end Sys2Proof.Machine
end

