-- ==== Sys2Proof/Machine/Engine.lean ====
section
/-! DEFINITION. The step of the engine, whose move it is, and placing a command where the engine fetches it. -/

namespace Sys2Proof.Machine

/-- A move of the engine: it executes commands in `RUNNING` only (10_state.md R32), and otherwise does nothing and keeps
all its state (60_exceptions.md R344). Parameters outside 00_scope.md R7 and R8 are refused (log 3). -/
def State.engineMove (s : State) : Out :=
  if !s.cfg.wf then .refused .badConfiguration
  else if s.st = .running then s.fetchAndRun
  else .next s

/-- The next move of the schedule; when it is empty the move is the engine's (log 5). -/
def State.nextMove (s : State) : Out :=
  match s.moves with
  | [] => s.engineMove
  | .engine :: ms => { s with moves := ms }.engineMove
  | .host op :: ms => hostMove op { s with moves := ms }

/-- Where a command is placed to be fetched next: at `CP` when a fetch there succeeds, else at 0. -/
def State.fetchSlot (s : State) : Word :=
  if s.cp.toNat % 8 = 0 ∧ s.cp.toNat + 8 ≤ s.cfg.memSize then s.cp else 0

/-- The state in which the very next step fetches and runs the command: its 8 bytes lie at the fetch slot, the engine is
`RUNNING` there in a run that begins, and the move is the engine's (log 15). -/
def State.placeCommand (s : State) (bytes : List Byte) : State :=
  { s with
    cp := s.fetchSlot
    st := .running
    moves := []
    written := []
    raced := []
    mem := s.mem.storeAll (((List.range 8).map fun k => s.fetchSlot.toNat + k).zip bytes) }

end Sys2Proof.Machine
end

