-- ==== Sys2Proof/Safety.lean ====
section
/-! DEFINITION. What claims are stated in, written from the spec's tables and not from the meanings: the invariant, fault
entry, the numbers in memory, and for every instruction the checks it makes and the addresses it reaches. -/

namespace Sys2Proof.Machine

/-! ## The machine -/

/-- Every listed byte lies in `0 .. MEM_SIZE-1` (10_state.md R38). -/
def State.memInside (s : State) : Prop := ∀ c ∈ s.mem, c.1 < s.cfg.memSize

/-- The fault registers tell of a fault exactly while the engine is `FAULTED`; they are written at fault entry only, and
then `FCP` is `CP` (10_state.md R35 to R37, 60_exceptions.md R336, R337). -/
def State.faultRegisters (s : State) : Prop :=
  (s.st = .faulted ↔ s.fcause.isSome) ∧ (s.st = .faulted → s.fcp = s.cp) ∧
    (s.st ≠ .faulted → s.fcp = 0 ∧ s.finfo = 0)

/-- `CAP` keeps its reset value until `INIT` (10_state.md R33, R34). -/
def State.capWhenInited (s : State) : Prop := s.inited = false → s.cap = 0

/-- The bytes that the host wrote during the run lie in memory (20_memory.md R67). -/
def State.racedInside (s : State) : Prop := ∀ c ∈ s.raced, c.1 < s.cfg.memSize

/-- The invariant of the machine. -/
structure State.Inv (s : State) : Prop where
  memCanonical : s.mem.wf
  memInside : s.memInside
  faultRegisters : s.faultRegisters
  capWhenInited : s.capWhenInited
  racedInside : s.racedInside

/-- The host has written the byte during the run (20_memory.md R67). -/
def State.hostWrote (s : State) (a : Nat) : Prop := ∃ v, (a, v) ∈ s.raced

/-- The list has run to its end without a fault (10_state.md R47). -/
def State.listDone (s : State) : Prop := s.st = .halted ∧ s.fcause = none

/-- Whose move is next, and which. -/
def State.move (s : State) : Move :=
  match s.moves with
  | [] => .engine
  | m :: _ => m

/-- The state with the move taken from the schedule. -/
def State.popMove (s : State) : State := { s with moves := s.moves.tail }

/-- The parameters are legal, the engine is `RUNNING`, and the next move is its own (10_state.md R32). -/
abbrev State.ready (s : State) : Prop := s.cfg.wf = true ∧ s.st = .running ∧ s.move = .engine

/-- A fetch at `CP` succeeds: aligned and inside memory (20_memory.md R51, R53, R60). -/
abbrev State.canFetch (s : State) : Prop := s.cp.toNat % 8 = 0 ∧ s.cp.toNat + 8 ≤ s.cfg.memSize

/-- Fault entry in the words of 60_exceptions.md R336. -/
def faulted (s : State) (c : Cause) (info : Word) : State :=
  { s with fcause := some c, finfo := info, fcp := s.cp, st := .faulted }

/-! ## The numbers in memory (00_scope.md R14 to R16, 20_memory.md R50) -/

/-- `MemRead(a, 1)`. -/
def byteAt (m : Memory) (a : Int) : Int := (m.read a.toNat).toNat

/-- `MemRead(a, 2)`. -/
def u16At (m : Memory) (a : Int) : Int := byteAt m a + 256 * byteAt m (a + 1)

/-- `MemRead(a, 4)`. -/
def u32At (m : Memory) (a : Int) : Int := u16At m a + 65536 * u16At m (a + 2)

/-- `sext_16(MemRead(a, 2))`. -/
def s16At (m : Memory) (a : Int) : Int := if u16At m a < 2 ^ 15 then u16At m a else u16At m a - 2 ^ 16

/-- `sext_32(MemRead(a, 4))`. -/
def s32At (m : Memory) (a : Int) : Int := if u32At m a < 2 ^ 31 then u32At m a else u32At m a - 2 ^ 32

/-! ## Addresses: rectangles of bytes -/

/-- The address is one of the rectangle's. -/
def Rect.Has (r : Rect) (a : Int) : Prop := ∃ x < r.w, ∃ y < r.h, a = r.addr (x : Nat) (y : Nat)

/-- The address is one of a set's. -/
def Reaches (rs : List Rect) (a : Int) : Prop := ∃ r ∈ rs, r.Has a

/-- The address is in `0 .. MEM_SIZE-1`. -/
abbrev State.inMemory (s : State) (a : Int) : Prop := 0 ≤ a ∧ a < (s.cfg.memSize : Int)

/-- Every address of the set is in memory (20_memory.md R60). -/
abbrev State.allInMemory (s : State) (rs : List Rect) : Prop :=
  ∀ r ∈ rs, ∀ x < r.w, ∀ y < r.h, s.inMemory (r.addr (x : Nat) (y : Nat))

/-- The address of the sample `(x, y)` of that block (00_scope.md R18). -/
def State.sampleAddr (s : State) (base stride : Fin 16) (x y : Int) : Int :=
  s.unsignedReg base + y * s.signedReg stride + x

/-- The sample. -/
def State.sample (s : State) (base stride : Fin 16) (x y : Int) : Int :=
  byteAt s.mem (s.sampleAddr base stride x y)

/-- `a(x,y)` and `b(x,y)` of 41_metrics.md R111. -/
abbrev State.sampleA (s : State) (x y : Int) : Int := s.sample 2 3 x y
abbrev State.sampleB (s : State) (x y : Int) : Int := s.sample 4 5 x y

/-! ## What every instruction checks (60_exceptions.md R322 to R333 and the command rules) -/

/-- The prediction commands that take the edge array (44_intra_8x8_16x16_chroma.md R221). -/
def usesEdge : Instr → Bool
  | .pred8V | .pred8H | .pred8DC | .pred8DDL | .pred8DDR | .pred8VR | .pred8HD | .pred8VL | .pred8HU | .pred8DCL
  | .pred8DCT => true
  | _ => false

/-- The fractional part of a motion vector component, `v & (n - 1)` (00_scope.md R12). -/
def fractionOf (v n : Int) : Int := v % n

/-- The phase of `MCLUMA` (45_motion_comp.md R272). -/
def State.lumaPhase (s : State) : Nat := (4 * fractionOf (s.signedReg 10) 4 + fractionOf (s.signedReg 9) 4).toNat

/-- The plane number a table gives for the phase. -/
def tableEntry (t : Vector (Fin 4) 16) (phase : Nat) : Nat := ((t.toList.getD phase 0) : Fin 4).val

/-- The register that holds the base of a plane: `g4`, `g6`, `g7`, `g8` (45_motion_comp.md R271). -/
def planeRegister (p : Nat) : Fin 16 := if p = 0 then 4 else if p = 1 then 6 else if p = 2 then 7 else 8

/-- The registers of the first and the second source. -/
def State.firstPlane (s : State) : Fin 16 := planeRegister (tableEntry s.cfg.hpelRef0 s.lumaPhase)
def State.secondPlane (s : State) : Fin 16 := planeRegister (tableEntry s.cfg.hpelRef1 s.lumaPhase)

/-- A second source is used exactly when a fractional part is odd. -/
def State.usesSecond (s : State) : Bool :=
  fractionOf (s.signedReg 9) 4 % 2 == 1 || fractionOf (s.signedReg 10) 4 % 2 == 1

/-- `base1` and `base2` of 45_motion_comp.md R272. -/
def State.firstBase (s : State) : Int :=
  s.unsignedReg s.firstPlane + s.signedReg 10 / 4 * s.signedReg 5 + s.signedReg 9 / 4
    + (if fractionOf (s.signedReg 10) 4 = 3 then s.signedReg 5 else 0)
def State.secondBase (s : State) : Int :=
  s.unsignedReg s.secondPlane + s.signedReg 10 / 4 * s.signedReg 5 + s.signedReg 9 / 4
    + (if fractionOf (s.signedReg 9) 4 = 3 then 1 else 0)

/-- `base` of 45_motion_comp.md R276. -/
def State.chromaBase (s : State) : Int :=
  s.unsignedReg 4 + s.signedReg 10 / 8 * s.signedReg 5 + s.signedReg 9 / 8

/-- The offset vector of an ADS command (41_metrics.md R126). -/
def adsOffsets (i : Instr) (s : State) : List Int :=
  match i with
  | .ads1 => [0]
  | .ads2 => [0, s.signedReg 11]
  | .ads4 => [0, 8, s.signedReg 11, s.signedReg 11 + 8]
  | _ => []

/-- The dispatch state the command needs: operation commands need *initialized*, `INIT` needs *uninitialized*. -/
def dispatchOk : Instr → State → Bool
  | .endList, _ | .ldi _ _, _ | .stq _ _, _ => true
  | .init _, s => !s.inited
  | _, s => s.inited

/-- The sizes, in pixels, of each size set (30_encoding.md R87). -/
def sizesOf : SizeSet → List (Nat × Nat)
  | .metric7 => [(4, 4), (4, 8), (8, 4), (8, 8), (8, 16), (16, 8), (16, 16)]
  | .sa8d2 => [(8, 8), (16, 16)]
  | .square3 => [(4, 4), (8, 8), (16, 16)]
  | .mc9 => [(4, 4), (4, 8), (4, 16), (8, 4), (8, 8), (8, 16), (16, 4), (16, 8), (16, 16)]

/-- The command names no size or one of its set's. -/
def sizeOk (i : Instr) : Bool :=
  match i.size? with
  | some (set, wc, hc) => (sizesOf set).contains (wc.pixels, hc.pixels)
  | none => true

/-- The parameter registers in ascending number, each with whether its value is in its interval (60_exceptions.md R328). -/
def params (i : Instr) (s : State) : List (Fin 16 × Bool) :=
  match i with
  | .ssdwh =>
    [(9, decide (1 ≤ s.unsignedReg 9 ∧ s.unsignedReg 9 ≤ 65535)),
      (10, decide (1 ≤ s.unsignedReg 10 ∧ s.unsignedReg 10 ≤ 65535))]
  | .ads1 | .ads2 | .ads4 => [(9, decide (s.unsignedReg 9 ≤ 32767))]
  | .quant4 | .quant8 | .quantdc4 | .quantdc2 =>
    [(9, decide (s.g[(10 : Fin 16)].toNat < 32 → s.g[(9 : Fin 16)].toNat < 2 ^ s.g[(10 : Fin 16)].toNat)),
      (10, decide (s.unsignedReg 10 ≤ 31))]
  | _ => []

/-- The registers read as base addresses, in ascending number (60_exceptions.md R325). -/
def bases (i : Instr) (s : State) : List (Fin 16) :=
  match i with
  | .sad _ _ | .ssd _ _ | .satd _ _ | .sa8d _ _ | .ssdwh | .ssim4 => [2, 4]
  | .sadx3 _ _ => [2, 4, 6, 7]
  | .sadx4 _ _ => [2, 4, 6, 7, 8]
  | .ads1 | .ads2 | .ads4 => [0, 2, 4, 13]
  | .fdct4 _ _ | .fdct8 | .avg _ _ => [0, 2, 4]
  | .idct4 _ _ | .idct8 | .fdc4 | .idc4 | .fdc2 | .idc2 | .quantdc4 | .quantdc2 | .zigzag4 => [0, 2]
  | .quant4 | .quant8 => [0, 2, 13]
  | .mcluma _ _ => 0 :: [4, 6, 7, 8].filter fun r => r = s.firstPlane || (s.usesSecond && r = s.secondPlane)
  | .mcchroma _ _ | .copy _ _ | .hpelh _ _ | .hpelv _ _ | .hpelc _ _ => [0, 4]
  | i => if usesEdge i then [0, 13] else if (predictionSize i).isSome then [0] else []

/-- The stride registers in ascending number and the width they are tested against (60_exceptions.md R326). -/
def strides (i : Instr) (s : State) : List (Fin 16) × Int :=
  match i with
  | .sad wc _ | .ssd wc _ | .satd wc _ | .sa8d wc _ | .sadx3 wc _ | .sadx4 wc _ | .fdct4 wc _ => ([3, 5], wc.pixels)
  | .ssdwh => ([3, 5], s.unsignedReg 9)
  | .ssim4 => ([3, 5], 4)
  | .fdct8 => ([3, 5], 8)
  | .idct4 wc _ => ([1], wc.pixels)
  | .idct8 => ([1], 8)
  | .mcluma wc _ | .mcchroma wc _ | .copy wc _ | .hpelh wc _ | .hpelv wc _ | .hpelc wc _ => ([1, 5], wc.pixels)
  | .avg wc _ => ([1, 3, 5], wc.pixels)
  | i => match predictionSize i with
    | some n => ([1], n)
    | none => ([], 0)

/-- The registers that hold bases of arrays, in ascending number, with the element size (60_exceptions.md R327). -/
def arrays : Instr → List (Fin 16 × Nat)
  | .ads1 | .ads2 | .ads4 => [(0, 2), (2, 4), (4, 2), (13, 2)]
  | .fdct4 _ _ | .fdct8 => [(0, 2)]
  | .idct4 _ _ | .idct8 => [(2, 2)]
  | .fdc4 | .idc4 | .fdc2 | .idc2 | .quantdc4 | .quantdc2 | .zigzag4 => [(0, 2), (2, 2)]
  | .quant4 | .quant8 => [(0, 2), (2, 2), (13, 4)]
  | _ => []

/-- The immediate of `STQ` is a multiple of 4 (60_exceptions.md R327). -/
def immediateOk : Instr → Bool
  | .stq _ imm => imm.toNat % 4 == 0
  | _ => true

/-! ## What every instruction reads; what it writes stands in Machine/Sets.lean -/

/-- `t[0..n-1]`, `l[0..n-1]` and `lt` around the destination block (43_intra_4x4.md R181). -/
def State.top (s : State) (n : Nat) : Rect := s.area 0 1 0 (-1) n 1
def State.left (s : State) (n : Nat) : Rect := s.area 0 1 (-1) 0 1 n
def State.corner (s : State) : Rect := s.area 0 1 (-1) (-1) 1 1

/-- The read set (20_memory.md R60). -/
def reads (i : Instr) (s : State) : List Rect :=
  match i with
  | .sad wc hc | .ssd wc hc | .satd wc hc | .sa8d wc hc | .avg wc hc | .fdct4 wc hc =>
    [s.area 2 3 0 0 wc.pixels hc.pixels, s.area 4 5 0 0 wc.pixels hc.pixels]
  | .sadx3 wc hc =>
    [s.area 2 3 0 0 wc.pixels hc.pixels, s.area 4 5 0 0 wc.pixels hc.pixels, s.area 6 5 0 0 wc.pixels hc.pixels,
      s.area 7 5 0 0 wc.pixels hc.pixels]
  | .sadx4 wc hc =>
    [s.area 2 3 0 0 wc.pixels hc.pixels, s.area 4 5 0 0 wc.pixels hc.pixels, s.area 6 5 0 0 wc.pixels hc.pixels,
      s.area 7 5 0 0 wc.pixels hc.pixels, s.area 8 5 0 0 wc.pixels hc.pixels]
  | .ssdwh =>
    [s.area 2 3 0 0 s.g[(9 : Fin 16)].toNat s.g[(10 : Fin 16)].toNat,
      s.area 4 5 0 0 s.g[(9 : Fin 16)].toNat s.g[(10 : Fin 16)].toNat]
  | .ssim4 => [s.area 2 3 0 0 4 4, s.area 4 5 0 0 4 4]
  | .fdct8 => [s.area 2 3 0 0 8 8, s.area 4 5 0 0 8 8]
  | .ads1 | .ads2 | .ads4 =>
    stretch (s.unsignedReg 2) (4 * (adsOffsets i s).length)
      :: (adsOffsets i s).map (fun o => stretch (s.unsignedReg 4 + 2 * o) (2 * s.g[(9 : Fin 16)].toNat))
      ++ [stretch (s.unsignedReg 13) (2 * s.g[(9 : Fin 16)].toNat)]
  | .idct4 wc hc => [stretch (s.unsignedReg 2) (2 * wc.pixels * hc.pixels), s.area 0 1 0 0 wc.pixels hc.pixels]
  | .idct8 => [stretch (s.unsignedReg 2) 128, s.area 0 1 0 0 8 8]
  | .fdc4 | .idc4 | .quantdc4 | .zigzag4 => [stretch (s.unsignedReg 2) 32]
  | .fdc2 | .idc2 | .quantdc2 => [stretch (s.unsignedReg 2) 8]
  | .quant4 => [stretch (s.unsignedReg 2) 32, stretch (s.unsignedReg 13) 64]
  | .quant8 => [stretch (s.unsignedReg 2) 128, stretch (s.unsignedReg 13) 256]
  | .pred4V | .pred4DCT => [s.top 4]
  | .pred4H | .pred4DCL | .pred4HU => [s.left 4]
  | .pred4DC => [s.top 4, s.left 4]
  | .pred4DDL => [s.top 8]
  | .pred4VL => [s.top 7]
  | .pred4DDR => [s.corner, s.top 4, s.left 4]
  | .pred4VR => [s.corner, s.top 4, s.left 3]
  | .pred4HD => [s.corner, s.top 3, s.left 4]
  | .pred16V | .pred16DCT => [s.top 16]
  | .pred16H | .pred16DCL => [s.left 16]
  | .pred16DC => [s.top 16, s.left 16]
  | .pred16P => [s.corner, s.top 16, s.left 16]
  | .predCV | .predCDCT => [s.top 8]
  | .predCH | .predCDCL => [s.left 8]
  | .predCDC => [s.top 8, s.left 8]
  | .predCP => [s.corner, s.top 8, s.left 8]
  | .mcluma wc hc =>
    ⟨s.firstBase, s.signedReg 5, 0, 0, wc.pixels, hc.pixels⟩
      :: if s.usesSecond then [⟨s.secondBase, s.signedReg 5, 0, 0, wc.pixels, hc.pixels⟩] else []
  | .mcchroma wc hc => [⟨s.chromaBase, s.signedReg 5, 0, 0, wc.pixels + 1, hc.pixels + 1⟩]
  | .copy wc hc => [s.area 4 5 0 0 wc.pixels hc.pixels]
  | .hpelh wc hc => [s.area 4 5 (-2) 0 (wc.pixels + 5) hc.pixels]
  | .hpelv wc hc => [s.area 4 5 0 (-2) wc.pixels (hc.pixels + 5)]
  | .hpelc wc hc => [s.area 4 5 (-2) (-2) (wc.pixels + 5) (hc.pixels + 5)]
  | i => if usesEdge i then [stretch (s.unsignedReg 13) 33] else []

/-- The result registers the command writes (10_state.md R26). -/
def resultRegisters : Instr → List (Fin 4)
  | .sad _ _ | .ssd _ _ | .satd _ _ | .sa8d _ _ | .ads1 | .ads2 | .ads4 => [0]
  | .sadx3 _ _ => [0, 1, 2]
  | .sadx4 _ _ | .ssim4 => [0, 1, 2, 3]
  | .ssdwh => [0, 1]
  | _ => []

/-- The causes the command can raise (60_exceptions.md R332). -/
def causesOf : Instr → List Cause
  | .endList | .ldi _ _ => []
  | .stq _ _ => [.misaligned, .access]
  | .init _ => [.reinit]
  | .sad _ _ | .sadx3 _ _ | .sadx4 _ _ | .ssd _ _ | .satd _ _ | .sa8d _ _ =>
    [.notInitialized, .invalidSize, .nullBuffer, .badStride, .access]
  | .ssdwh => [.notInitialized, .badParam, .nullBuffer, .badStride, .access]
  | .ads1 | .ads2 | .ads4 => [.notInitialized, .badParam, .nullBuffer, .misaligned, .access]
  | .ssim4 => [.notInitialized, .nullBuffer, .badStride, .access]
  | .fdct4 _ _ | .idct4 _ _ => [.notInitialized, .invalidSize, .nullBuffer, .badStride, .misaligned, .access]
  | .fdct8 | .idct8 => [.notInitialized, .nullBuffer, .badStride, .misaligned, .access]
  | .fdc4 | .idc4 | .fdc2 | .idc2 | .zigzag4 => [.notInitialized, .nullBuffer, .misaligned, .access]
  | .quant4 | .quant8 | .quantdc4 | .quantdc2 => [.notInitialized, .badParam, .nullBuffer, .misaligned, .access]
  | .mcluma _ _ | .mcchroma _ _ | .copy _ _ | .avg _ _ | .hpelh _ _ | .hpelv _ _ | .hpelc _ _ =>
    [.notInitialized, .invalidSize, .nullBuffer, .badStride, .access]
  | _ => [.notInitialized, .nullBuffer, .badStride, .access]

/-! ## The checks passed so far, in the order of 60_exceptions.md R333 -/

/-- Steps 4 and 5. -/
abbrev PassesSize (i : Instr) (s : State) : Prop := dispatchOk i s = true ∧ sizeOk i = true

/-- Steps 4 to 6. -/
abbrev PassesParams (i : Instr) (s : State) : Prop := PassesSize i s ∧ ∀ p ∈ params i s, p.2 = true

/-- Steps 4 to 7. -/
abbrev PassesNulls (i : Instr) (s : State) : Prop := PassesParams i s ∧ ∀ r ∈ bases i s, s.g[r] ≠ 0

/-- Steps 4 to 8. -/
abbrev PassesStrides (i : Instr) (s : State) : Prop :=
  PassesNulls i s ∧ ∀ r ∈ (strides i s).1, (strides i s).2 ≤ s.signedReg r

/-- Steps 4 to 9. -/
abbrev PassesAlignment (i : Instr) (s : State) : Prop :=
  PassesStrides i s ∧ (∀ c ∈ arrays i, s.g[c.1].toNat % c.2 = 0) ∧ immediateOk i = true

/-- All steps: the command is accepted. -/
abbrev Accepts (i : Instr) (s : State) : Prop :=
  PassesAlignment i s ∧ s.allInMemory (reads i s) ∧ s.allInMemory (writes i s)

/-! ## What a command that fills a block or an array leaves -/

/-- The command completes: the `w×h` destination block holds the numbers given, `CP` moves on, every other byte and
every other field of the state is unchanged. -/
def FillsBlock (i : Instr) (s : State) (w h : Nat) (value : Nat → Nat → Int) : Prop :=
  ∃ m : Memory, exec i s = .next { s with mem := m, cp := s.cp + 8 } ∧
    (∀ x < w, ∀ y < h, byteAt m (s.sampleAddr 0 1 x y) = value x y) ∧
    ∀ a : Nat, (∀ x < w, ∀ y < h, (a : Int) ≠ s.sampleAddr 0 1 (x : Nat) (y : Nat)) → m.read a = s.mem.read a

/-- The command completes: the `n` elements of type `s16` from `DST` hold the numbers given, `CP` moves on, every other
byte and every other field of the state is unchanged. -/
def StoresArray (i : Instr) (s : State) (n : Nat) (value : Nat → Int) : Prop :=
  ∃ m : Memory, exec i s = .next { s with mem := m, cp := s.cp + 8 } ∧
    (∀ k < n, s16At m (s.unsignedReg 0 + 2 * k) = value k) ∧
    ∀ a : Nat, ((a : Int) < s.unsignedReg 0 ∨ s.unsignedReg 0 + 2 * n ≤ a) → m.read a = s.mem.read a

/-- The command completes: the result registers are as given, `CP` moves on, every other field of the state and all of
memory is unchanged. -/
def ReturnsResults (i : Instr) (s : State) (q : Vector Word 4) : Prop :=
  exec i s = .next { s with q := q, cp := s.cp + 8 }

end Sys2Proof.Machine
end

