-- ==== Sys2Proof/Certificates/Slice0/Obligations.lean ====
section
/-! DEFINITION. The statements for the provers. First the formulas they use, written from the rules of the spec and not
from the meanings; then the statements. A value in memory is read through `Memory.read`, one byte. -/

namespace Sys2Proof.Machine

/-! ## Words (30_encoding.md R81, R83, R92, R93) -/

/-- The field `W0[lo+len-1 : lo]`. -/
def wordField (w : Word) (lo len : Nat) : Nat := w.toNat / 2 ^ lo % 2 ^ len

/-- The operation codes of each format. -/
def opcodesC : List Nat := [0x01]
def opcodesI : List Nat := [0x02, 0x03, 0x04]
def opcodesB : List Nat := [0x10, 0x11, 0x12, 0x13, 0x15, 0x16, 0x20, 0x21, 0x40, 0x41, 0x42, 0x43, 0x44, 0x45, 0x46]
def opcodesZ : List Nat := [0x14, 0x17, 0x18, 0x19, 0x1A, 0x22, 0x23, 0x24, 0x25, 0x26, 0x27, 0x28, 0x29, 0x2A, 0x2B, 0x2C]
def opcodesP : List Nat := [0x30]

/-- The legal `(cls, mode)` pairs (30_encoding.md R89). -/
def legalPair (cls mode : Nat) : Prop :=
  (cls ≤ 1 ∧ mode ≤ 11) ∨ ((cls = 2 ∨ cls = 3) ∧ mode ∈ [0, 1, 2, 9, 10, 11, 12])

/-- The conditions under which 64 bits are no command (30_encoding.md R93, R95). -/
def IllegalWords (w0 w1 : Word) : Prop :=
  wordField w0 0 8 ∉ opcodesC ++ opcodesI ++ opcodesB ++ opcodesZ ++ opcodesP ∨
  wordField w0 22 10 ≠ 0 ∨
  (wordField w0 0 8 ∈ opcodesC ++ opcodesZ ∧ (wordField w0 8 14 ≠ 0 ∨ w1 ≠ 0)) ∨
  (wordField w0 0 8 ∈ opcodesI ∧ wordField w0 12 10 ≠ 0) ∨
  (wordField w0 0 8 = 0x04 ∧ wordField w0 8 4 ≠ 0) ∨
  (wordField w0 0 8 = 0x03 ∧ 3 < wordField w0 8 4) ∨
  (wordField w0 0 8 ∈ opcodesB ∧ (wordField w0 16 6 ≠ 0 ∨ wordField w0 8 4 ≠ 0 ∨ w1 ≠ 0)) ∨
  (wordField w0 0 8 ∈ opcodesP ∧
    (wordField w0 8 8 ≠ 0 ∨ w1 ≠ 0 ∨ ¬legalPair (wordField w0 20 2) (wordField w0 16 4)))

/-- `W0` and `W1` as they lie in memory (20_memory.md R51). -/
def w0At (m : Memory) (a : Int) : Word := BitVec.ofInt 32 (u32At m a)
def w1At (m : Memory) (a : Int) : Word := BitVec.ofInt 32 (u32At m (a + 4))

/-- `W0` of an instruction. -/
abbrev w0Of (i : Instr) : Word := (encodeWords i).1

/-! ## The host port (10_state.md R45) -/

/-- The value of a register as the host reads it by number. -/
def portRegister (s : State) (n : Nat) : Word :=
  if n ≤ 0x0F then s.g.toList.getD n 0
  else if 0x10 ≤ n ∧ n ≤ 0x13 then s.q.toList.getD (n - 0x10) 0
  else if n = 0x20 then s.cp
  else if n = 0x21 then
    (match s.st with
      | .idle => 0
      | .running => 1
      | .halted => 2
      | .faulted => 3) + (if s.inited then 4 else 0)
  else if n = 0x22 then s.cap
  else if n = 0x23 then
    (match s.fcause with
      | none => 0
      | some .notInitialized => 1
      | some .illegalCommand => 2
      | some .invalidSize => 3
      | some .nullBuffer => 4
      | some .badStride => 5
      | some .misaligned => 6
      | some .badParam => 7
      | some .access => 8
      | some .reinit => 9)
  else if n = 0x24 then s.fcp
  else if n = 0x25 then s.finfo
  else 0

/-! ## Arithmetic (00_scope.md R9 to R12); `/` by a positive number is the floor -/

/-- In the `s16` interval. -/
abbrev IsS16 (a : Int) : Prop := -32768 ≤ a ∧ a ≤ 32767

/-- `clip8`. -/
def clipped (a : Int) : Int := if a < 0 then 0 else if 255 < a then 255 else a

/-- Entry `(u, x)` of a matrix of integers. -/
def entry (m : List (List Int)) (u x : Nat) : Int := (m.getD u []).getD x 0

/-! ## Metrics (41_metrics.md) -/

/-- `Σ_{y<h} Σ_{x<w} f(x, y)`. -/
def blockSum (w h : Nat) (f : Nat → Nat → Int) : Int := ∑ y ∈ Finset.range h, ∑ x ∈ Finset.range w, f x y

/-- The sum of absolute differences against the block at a register, with stride `SRCBS` (R113, R114). -/
def sadAgainst (s : State) (r : Fin 16) (w h : Nat) : Int :=
  blockSum w h fun x y => |s.sampleA x y - s.sample r 5 x y|

/-- The sum of squared differences (R117, R119). -/
def ssdOf (s : State) (w h : Nat) : Int := blockSum w h fun x y => (s.sampleA x y - s.sampleB x y) ^ 2

/-- The sign of input `x` in output `u` of a complete sum and difference butterfly over at most 8 inputs: minus when
`u & x` has an odd number of ones (R120, R123: every such butterfly yields the same values up to order and sign). -/
def butterflySign (u x : Nat) : Int := if ((u &&& x) + (u &&& x) / 2 + (u &&& x) / 4) % 2 = 0 then 1 else -1

/-- The sum of the absolute values of all coefficients of the `n×n` tile of differences at `(x0, y0)` (R120, R124). -/
def tileSum (s : State) (n x0 y0 : Nat) : Int :=
  blockSum n n fun u v => |blockSum n n fun x y =>
    butterflySign u x * butterflySign v y * (s.sampleA ↑(x0 + x) ↑(y0 + y) - s.sampleB ↑(x0 + x) ↑(y0 + y))|

/-- The sum over all `n×n` tiles of a block (R122, R125). -/
def tilesSum (s : State) (n w h : Nat) : Int := blockSum (w / n) (h / n) fun i j => tileSum s n (n * i) (n * j)

/-- `total_i` of an ADS command (R127). -/
def adsCost (i : Instr) (s : State) (n : Nat) : Int :=
  (∑ k ∈ Finset.range (adsOffsets i s).length,
      |s32At s.mem (s.unsignedReg 2 + 4 * (k : Nat))
        - u16At s.mem (s.unsignedReg 4 + 2 * ((n : Int) + (adsOffsets i s).getD k 0))|)
    + u16At s.mem (s.unsignedReg 13 + 2 * (n : Int))

/-- The candidates below the threshold, in increasing order (R127). -/
def adsList (i : Instr) (s : State) : List Nat :=
  (List.range s.g[(9 : Fin 16)].toNat).filter fun n => decide (adsCost i s n < s.signedReg 10)

/-! ## Transforms (42_transform_quant.md) -/

/-- The pixel offset of sub-block `n` (R141). -/
def subOffset (n : Nat) : Nat × Nat := (8 * (n / 4 % 2) + 4 * (n % 2), 8 * (n / 8) + 4 * (n / 2 % 2))

/-- The sub-block a pixel lies in (R141). -/
def subIndex (x y : Nat) : Nat := 8 * (y / 8) + 4 * (x / 8) + 2 * (y / 4 % 2) + x / 4 % 2

/-- The matrix of `FWD4` (R142). -/
def fwdMatrix : List (List Int) := [[1, 1, 1, 1], [2, 1, -1, -2], [1, -1, -1, 1], [1, -2, 2, -1]]

/-- The matrix of `HAD4` in its output order (R153). -/
def hadMatrix : List (List Int) := [[1, 1, 1, 1], [1, 1, -1, -1], [1, -1, -1, 1], [1, -1, 1, -1]]

/-- The matrix of `HADDC2` (R156). -/
def had2Matrix : List (List Int) := [[1, 1, 1, 1], [1, -1, 1, -1], [1, 1, -1, -1], [1, -1, -1, 1]]

/-- Element `k` of the array at `SRCA`. -/
def State.sourceCoef (s : State) (k : Nat) : Int := s16At s.mem (s.unsignedReg 2 + 2 * (k : Int))

/-- `INV4` (R145). -/
def inv4Out (c : Nat → Int) (k : Nat) : Int :=
  if k = 0 then (c 0 + c 2) + (c 1 + c 3 / 2)
  else if k = 1 then (c 0 - c 2) + (c 1 / 2 - c 3)
  else if k = 2 then (c 0 - c 2) - (c 1 / 2 - c 3)
  else (c 0 + c 2) - (c 1 + c 3 / 2)

/-- The first-pass output `R(x,v)` and the second-pass output `E(x,y)` (R145). -/
def inv4Row (c : Nat → Int) (x v : Nat) : Int := inv4Out (fun u => c (4 * v + u)) x
def inv4Col (c : Nat → Int) (x y : Nat) : Int := inv4Out (fun v => inv4Row c x v) y

/-- The range-checked values of one sub-block (R147). -/
def Inv4InRange (c : Nat → Int) : Prop :=
  ∀ x < 4, ∀ y < 4, IsS16 (inv4Row c x y) ∧ IsS16 (inv4Col c x y) ∧ IsS16 (inv4Col c x y + 32)

/-- `DCT8_1D` (R148). -/
def dct8Out (s : Nat → Int) (k : Nat) : Int :=
  let a0 := s 0 + s 7 + (s 3 + s 4)
  let a1 := s 1 + s 6 + (s 2 + s 5)
  let a2 := s 0 + s 7 - (s 3 + s 4)
  let a3 := s 1 + s 6 - (s 2 + s 5)
  let a4 := (s 1 - s 6) + (s 2 - s 5) + ((s 0 - s 7) + (s 0 - s 7) / 2)
  let a5 := (s 0 - s 7) - (s 3 - s 4) - ((s 2 - s 5) + (s 2 - s 5) / 2)
  let a6 := (s 0 - s 7) + (s 3 - s 4) - ((s 1 - s 6) + (s 1 - s 6) / 2)
  let a7 := (s 1 - s 6) - (s 2 - s 5) + ((s 3 - s 4) + (s 3 - s 4) / 2)
  if k = 0 then a0 + a1
  else if k = 1 then a4 + a7 / 4
  else if k = 2 then a2 + a3 / 2
  else if k = 3 then a5 + a6 / 4
  else if k = 4 then a0 - a1
  else if k = 5 then a6 - a5 / 4
  else if k = 6 then a2 / 2 - a3
  else a4 / 4 - a7

/-- `C(u,v)` of the forward 8×8 transform (R148). -/
def dct8Coef (s : State) (u v : Nat) : Int :=
  dct8Out (fun y => dct8Out (fun x => s.sampleA x y - s.sampleB x y) u) v

/-- `IDCT8_1D` (R150). -/
def inv8Out (s : Nat → Int) (k : Nat) : Int :=
  let b0 := (s 0 + s 4) + (s 6 / 2 + s 2)
  let b2 := (s 0 - s 4) + (s 2 / 2 - s 6)
  let b4 := (s 0 - s 4) - (s 2 / 2 - s 6)
  let b6 := (s 0 + s 4) - (s 6 / 2 + s 2)
  let a1 := -s 3 + s 5 - s 7 - s 7 / 2
  let a3 := s 1 + s 7 - s 3 - s 3 / 2
  let a5 := -s 1 + s 7 + s 5 + s 5 / 2
  let a7 := s 3 + s 5 + s 1 + s 1 / 2
  if k = 0 then b0 + (a7 - a1 / 4)
  else if k = 1 then b2 + (a3 / 4 - a5)
  else if k = 2 then b4 + (a3 + a5 / 4)
  else if k = 3 then b6 + (a7 / 4 + a1)
  else if k = 4 then b6 - (a7 / 4 + a1)
  else if k = 5 then b4 - (a3 + a5 / 4)
  else if k = 6 then b2 - (a3 / 4 - a5)
  else b0 - (a7 - a1 / 4)

/-- The coefficients with the bias on element 0, and the two passes (R150). -/
def biasedCoef (s : State) (k : Nat) : Int := s.sourceCoef k + (if k = 0 then 32 else 0)
def inv8Row (s : State) (x v : Nat) : Int := inv8Out (fun u => biasedCoef s (8 * v + u)) x
def inv8Col (s : State) (x y : Nat) : Int := inv8Out (fun v => inv8Row s x v) y

/-- The range-checked values of `IDCT8` (R152). -/
def Inv8InRange (s : State) : Prop :=
  IsS16 (biasedCoef s 0) ∧ ∀ x < 8, ∀ y < 8, IsS16 (inv8Row s x y) ∧ IsS16 (inv8Col s x y)

/-- The first pass `T(u,r)` and the second `Y(u,v)` of the 4×4 DC transform (R153). -/
def dcRow (s : State) (u r : Nat) : Int := ∑ x ∈ Finset.range 4, entry hadMatrix u x * s.sourceCoef (4 * r + x)
def dcCol (s : State) (u v : Nat) : Int := ∑ r ∈ Finset.range 4, entry hadMatrix v r * dcRow s u r

/-- Element `k` of the 2×2 DC transform (R156). -/
def dc2 (s : State) (k : Nat) : Int := ∑ j ∈ Finset.range 4, entry had2Matrix k j * s.sourceCoef j

/-- `QUANT1` with `f` and `qbits` from `P0` and `P1` (R161, R162). -/
def levelOf (s : State) (c mf : Int) : Int :=
  c.sign * ((|c| * mf + s.unsignedReg 9) / 2 ^ s.g[(10 : Fin 16)].toNat)

/-- Element `k` of the multiplier table at `TBL` (R160). -/
def multiplier (s : State) (k : Nat) : Int := u32At s.mem (s.unsignedReg 13 + 4 * (k : Int))

/-! ## Prediction (43_intra_4x4.md, 44_intra_8x8_16x16_chroma.md) -/

/-- `t[i]` and `l[j]` around the destination block; both index -1 name `lt` (43_intra_4x4.md R181). -/
def State.topOf (s : State) (i : Int) : Int := s.sample 0 1 i (-1)
def State.leftOf (s : State) (j : Int) : Int := s.sample 0 1 (-1) j

/-- `t[i]` and `l[j]` of the edge array (44_intra_8x8_16x16_chroma.md R220). -/
def State.edgeTop (s : State) (i : Int) : Int := byteAt s.mem (s.unsignedReg 13 + 1 + i)
def State.edgeLeft (s : State) (j : Int) : Int :=
  byteAt s.mem (if j = -1 then s.unsignedReg 13 else s.unsignedReg 13 + 17 + j)

/-- `F2` and `F3` (43_intra_4x4.md R184). -/
def tap2 (a b : Int) : Int := (a + b + 1) / 2
def tap3 (a b c : Int) : Int := (a + 2 * b + c + 2) / 4

/-- The six directional modes for the block size `n` (43_intra_4x4.md R189 to R194, 44_intra_8x8_16x16_chroma.md R225 to
R230). -/
def downLeft (n : Int) (t : Int → Int) (x y : Int) : Int :=
  if x = n - 1 ∧ y = n - 1 then (t (2 * n - 2) + 3 * t (2 * n - 1) + 2) / 4
  else tap3 (t (x + y)) (t (x + y + 1)) (t (x + y + 2))

def downRight (t l : Int → Int) (x y : Int) : Int :=
  if x > y then tap3 (t (x - y - 2)) (t (x - y - 1)) (t (x - y))
  else if x < y then tap3 (l (y - x - 2)) (l (y - x - 1)) (l (y - x))
  else tap3 (t 0) (t (-1)) (l 0)

def verticalRight (t l : Int → Int) (x y : Int) : Int :=
  if 2 * x - y < -1 then tap3 (l (y - 2 * x - 1)) (l (y - 2 * x - 2)) (l (y - 2 * x - 3))
  else if 2 * x - y = -1 then tap3 (l 0) (t (-1)) (t 0)
  else if (2 * x - y) % 2 = 0 then tap2 (t (x - y / 2 - 1)) (t (x - y / 2))
  else tap3 (t (x - y / 2 - 2)) (t (x - y / 2 - 1)) (t (x - y / 2))

def horizontalDown (t l : Int → Int) (x y : Int) : Int :=
  if 2 * y - x < -1 then tap3 (t (x - 2 * y - 1)) (t (x - 2 * y - 2)) (t (x - 2 * y - 3))
  else if 2 * y - x = -1 then tap3 (l 0) (t (-1)) (t 0)
  else if (2 * y - x) % 2 = 0 then tap2 (l (y - x / 2 - 1)) (l (y - x / 2))
  else tap3 (l (y - x / 2 - 2)) (l (y - x / 2 - 1)) (l (y - x / 2))

def verticalLeft (t : Int → Int) (x y : Int) : Int :=
  if y % 2 = 0 then tap2 (t (x + y / 2)) (t (x + y / 2 + 1))
  else tap3 (t (x + y / 2)) (t (x + y / 2 + 1)) (t (x + y / 2 + 2))

def horizontalUp (n : Int) (l : Int → Int) (x y : Int) : Int :=
  if x + 2 * y > 2 * n - 3 then l (n - 1)
  else if x + 2 * y = 2 * n - 3 then (l (n - 2) + 3 * l (n - 1) + 2) / 4
  else if (x + 2 * y) % 2 = 0 then tap2 (l (y + x / 2)) (l (y + x / 2 + 1))
  else tap3 (l (y + x / 2)) (l (y + x / 2 + 1)) (l (y + x / 2 + 2))

/-- `f[a] + ... + f[a+n-1]`. -/
def stretchSum (f : Int → Int) (a n : Nat) : Int := ∑ i ∈ Finset.range n, f ((a + i : Nat) : Int)

/-- Planar prediction of half-size `h` from the slopes (44_intra_8x8_16x16_chroma.md R235). -/
def gradientOf (h : Nat) (f : Int → Int) : Int :=
  ∑ i ∈ Finset.range h, ((i : Int) + 1) * (f ((h : Int) - 1 + (i + 1)) - f ((h : Int) - 1 - (i + 1)))

def planarPixel (h : Int) (t l : Int → Int) (b c x y : Int) : Int :=
  clipped ((16 * (l (2 * h - 1) + t (2 * h - 1)) - (h - 1) * b - (h - 1) * c + 16 + b * x + c * y) / 32)

/-- A value for each quadrant of the 8×8 block (44_intra_8x8_16x16_chroma.md R244). -/
def byQuadrant (tl tr bl br : Int) (x y : Nat) : Int :=
  if x < 4 ∧ y < 4 then tl else if y < 4 then tr else if x < 4 then bl else br

/-! ## Motion compensation (45_motion_comp.md) -/

/-- The taps of the six-tap filter (R280). -/
def taps : List Int := [1, -5, 20, 20, -5, 1]

/-- The horizontal, the vertical and the two-dimensional filter around `(x, y)` of the block at `SRCB` (R281 to R283). -/
def filterH (s : State) (x y : Int) : Int := ∑ k ∈ Finset.range 6, taps.getD k 0 * s.sampleB (x - 2 + (k : Nat)) y
def filterV (s : State) (x y : Int) : Int := ∑ k ∈ Finset.range 6, taps.getD k 0 * s.sampleB x (y - 2 + (k : Nat))
def filterC (s : State) (x y : Int) : Int :=
  ∑ j ∈ Finset.range 6, ∑ k ∈ Finset.range 6,
    taps.getD j 0 * taps.getD k 0 * s.sampleB (x - 2 + (k : Nat)) (y - 2 + (j : Nat))

/-- The bilinear weighting at `(x, y)` (R275, R276). -/
def chromaPixel (s : State) (x y : Int) : Int :=
  let dx := fractionOf (s.signedReg 9) 8
  let dy := fractionOf (s.signedReg 10) 8
  let p := fun i j : Int => byteAt s.mem (s.chromaBase + j * s.signedReg 5 + i)
  ((8 - dx) * (8 - dy) * p x y + dx * (8 - dy) * p (x + 1) y + (8 - dx) * dy * p x (y + 1)
    + dx * dy * p (x + 1) (y + 1) + 32) / 64

end Sys2Proof.Machine

open Sys2Proof Sys2Proof.Machine

/-! # Encoding -/

/-- Decoding the bytes of an instruction, whatever follows them, gives the instruction back with every operand
(30_encoding.md R80, R83, R92, R95). -/
def Obligations.DecodeOfEncode : Prop :=
  ∀ (i : Instr) (rest : List Byte), decode (encode i ++ rest) = .ok i

/-- A pair of words has one meaning: what decodes to an instruction is that instruction's encoding (30_encoding.md R94,
R95, R98). -/
def Obligations.EncodeOfDecode : Prop :=
  ∀ (w0 w1 : Word) (i : Instr), decodeWords w0 w1 = .ok i → encodeWords i = (w0, w1)

/-- Words written out from the spec's encodings decode to the instructions they stand for (30_encoding.md R81, R92,
46_control_dispatch.md R301). -/
def Obligations.SampleWordsDecode : Prop :=
  decode [0x02, 0x01, 0x00, 0x00, 0x10, 0x00, 0x00, 0x00] = .ok (.ldi 1 16) ∧
  decodeWords 0x00000001 0 = .ok .endList ∧
  decodeWords 0x00000902 0xFFFFFFFD = .ok (.ldi 9 0xFFFFFFFD) ∧
  decodeWords 0x00000303 0x0000FFFC = .ok (.stq 3 0xFFFC) ∧
  decodeWords 0x00006010 0 = .ok (.sad .sixteen .eight) ∧
  decodeWords 0x0000A020 0 = .ok (.fdct4 .sixteen .sixteen) ∧
  decodeWords 0x0000002C 0 = .ok .zigzag4 ∧
  decodeWords 0x001B0030 0 = .ok .pred8DC128 ∧
  decodeWords 0x003C0030 0 = .ok .predCP ∧
  decodeWords 0x00008040 0 = .ok (.mcluma .four .sixteen)

/-- A command is illegal under exactly the listed conditions, and then the step raises `ILLEGAL_COMMAND` with `W0`,
initialized or not (30_encoding.md R93, 60_exceptions.md R323); where the host has written memory during the run, see `RacingAccesses`. -/
def Obligations.IllegalCommandFault : Prop :=
  (∀ w0 w1 : Word, (∃ e, decodeWords w0 w1 = .error e) ↔ IllegalWords w0 w1) ∧
  ∀ s : State, s.ready → s.canFetch → s.raced = [] → IllegalWords (w0At s.mem s.cp.toNat) (w1At s.mem s.cp.toNat) →
    step s = .next (faulted s.popMove .illegalCommand (w0At s.mem s.cp.toNat))

/-! # The step, the host, reset -/

/-- A step of a running engine is the decoded instruction, run on the state with the move taken from the schedule
(00_scope.md R17, 10_state.md R27); the step adds only the record of what the command writes. Where the host has written
memory during the run, the instruction runs on the state as it sees it, and the races are settled after it
(20_memory.md R67; `RacingAccesses` says what these two can do). The schedule and the record are the model's own (logs 5, 6,
22 and 23). -/
def Obligations.StepRunsDecodedCommand : Prop :=
  (∀ (s : State) (i : Instr), s.ready → s.canFetch → s.raced = [] → decode (s.mem.fetch s.cp.toNat) = .ok i →
    ∃ t, exec i s.popMove = .next t ∧
      step s = .next { t with written := (if t.st = .faulted then [] else storedBy i s) ++ s.written }) ∧
  ∀ (s : State) (i : Instr), s.ready → s.canFetch → decode (s.seen.mem.fetch s.cp.toNat) = .ok i →
    ∃ t, exec i s.popMove.seen = .next t ∧
      step s = .next (if t.st = .faulted then { t with mem := s.mem } else s.settle (storedBy i s.seen) t)

/-- The two fetch faults come before anything of the command is known, and a fetch at the top of a full memory is in
range (60_exceptions.md R330, R327 a, R329 a). -/
def Obligations.FetchFaults : Prop :=
  (∀ s : State, s.ready → s.cp.toNat % 8 ≠ 0 → step s = .next (faulted s.popMove .misaligned s.cp)) ∧
  (∀ s : State, s.ready → s.cp.toNat % 8 = 0 → s.cfg.memSize < s.cp.toNat + 8 →
    step s = .next (faulted s.popMove .access s.cp)) ∧
  ∀ s : State, s.cfg.memSize = 2 ^ 32 → s.cp = 0xFFFFFFF8 → s.canFetch ∧ s.cp + 8 = 0

/-- An engine that is not `RUNNING` does nothing and keeps all its state (60_exceptions.md R344). -/
def Obligations.StoppedEngineKeepsState : Prop :=
  ∀ s : State, s.cfg.wf = true → s.move = .engine → s.st ≠ .running → step s = .next s.popMove

/-- The four operations of the host port with their conditions, and the numbers of the registers (10_state.md R44, R45).
`RESET` leaves memory. What it does to the model's own fields is the model's choice: the parameters, the schedule, the counter
and the reply stay (logs 7 and 19), the record of the run ends, as it does with `START` (log 22). -/
def Obligations.HostPortOperations : Prop :=
  ∀ (s : State) (ms : List Move),
    (s.moves = .host .reset :: ms →
      step s = .next { s with
        g := Vector.replicate 16 0, q := Vector.replicate 4 0, cp := 0, st := .idle, inited := false, cap := 0,
        fcause := none, fcp := 0, finfo := 0, moves := ms, written := [], raced := [] }) ∧
    (∀ addr : Word, s.moves = .host (.start addr) :: ms →
      step s = .next (if s.st = .idle ∨ s.st = .halted then
          { s with cp := addr, st := .running, moves := ms, written := [], raced := [] }
        else { s with moves := ms })) ∧
    (∀ n : Word, s.moves = .host (.read n) :: ms →
      step s = .next { s with reply := some (portRegister s n.toNat), moves := ms }) ∧
    ∀ n v : Word, s.moves = .host (.write n v) :: ms →
      step s = .next (if s.st ≠ .running ∧ n.toNat < 16 then
          { s with g := s.g.setIfInBounds n.toNat v, moves := ms } else { s with moves := ms })

/-- The host's access to one byte of memory (20_memory.md R67). A read returns the byte, but a free value while the engine is
`RUNNING` and a command of the run writes the byte; the run is the engine's moves to its end, and the byte is returned also
where the run is endless and never writes it (10_state.md R47). A write changes that byte and
nothing else; during a run the byte races from then on, and one that a command has written holds its value or the host's.
The bound, the fault outside it and the form of the free values are the model's own (logs 6 to 9 and 23). -/
def Obligations.HostMemoryAccess : Prop :=
  ∀ (s : State) (ms : List Move) (a : Nat), s.mem.wf → a < s.cfg.memSize →
    (s.moves = .host (.memRead a) :: ms →
      (s.st ≠ .running → step s = .next { s with reply := some (BitVec.ofInt 32 (byteAt s.mem a)), moves := ms }) ∧
      (s.cfg.wf = true → s.st = .running →
        ((∀ (k : Nat) (t : State), Sys2Proof.core.run k { s with moves := [] } = .next t → ¬Reaches t.written a) →
          step s = .next { s with reply := some (BitVec.ofInt 32 (byteAt s.mem a)), moves := ms }) ∧
        (∀ (k : Nat) (t : State), k ≤ s.cfg.memSize / 8 + 2 →
          Sys2Proof.core.run k { s with moves := [] } = .next t → Reaches t.written a →
          step s = .next { s with
            reply := some ((Config.freeByte s.fresh).setWidth 32), fresh := s.fresh + 1, moves := ms }) ∧
        (step s = .next { s with reply := some (BitVec.ofInt 32 (byteAt s.mem a)), moves := ms } ∨
          step s = .next { s with
            reply := some ((Config.freeByte s.fresh).setWidth 32), fresh := s.fresh + 1, moves := ms }))) ∧
    ∀ v : Byte, s.moves = .host (.memWrite a v) :: ms →
      (s.st ≠ .running → ∃ m : Memory, step s = .next { s with mem := m, moves := ms } ∧ m.read a = v ∧
        ∀ b : Nat, b ≠ a → m.read b = s.mem.read b) ∧
      (s.st = .running → ∃ (m : Memory) (cs : List Host.Cell) (f : Nat),
        step s = .next { s with mem := m, raced := cs, fresh := f, moves := ms } ∧
        (m.read a = v ∨ Reaches s.written a ∧ m.read a = s.mem.read a) ∧
        (∀ b : Nat, b ≠ a → m.read b = s.mem.read b) ∧
        ∀ c : Host.Cell, c ∈ cs ↔ c ∈ s.raced ∨ c = (a, v) ∨ c = (a, s.mem.read a))

/-- The value of every register after power-on and after the host's `RESET`, and memory unchanged by `RESET`
(10_state.md R46). -/
def Obligations.ResetState : Prop :=
  (∀ s : State, s = State.reset ∨ (∃ r ms, r.moves = .host .reset :: ms ∧ step r = .next s) →
    (∀ k : Fin 16, s.g[k] = 0) ∧ (∀ k : Fin 4, s.q[k] = 0) ∧ s.cp = 0 ∧ s.st = .idle ∧ s.inited = false ∧ s.cap = 0 ∧
      s.fcause = none ∧ s.fcp = 0 ∧ s.finfo = 0) ∧
  ∀ (r s : State) (ms : List Move), r.moves = .host .reset :: ms → step r = .next s → s.mem = r.mem

/-- The invariant holds after reset (10_state.md R46). -/
def Obligations.InvariantAtReset : Prop := State.reset.Inv

/-- Every step keeps the invariant: memory stays canonical and inside `MEM_SIZE`, the fault registers tell of a fault
exactly in `FAULTED` and `FCP` is then `CP`, `CAP` is 0 until `INIT` (10_state.md R34 to R38, 60_exceptions.md R336), and
racing bytes lie in memory (log 6). -/
def Obligations.StepKeepsInvariant : Prop :=
  ∀ s t : State, s.Inv → step s = .next t → t.Inv

/-- `STATUS.STATE` changes by `RESET`, by `START` from `IDLE` or `HALTED`, by `END` executed and by a raised
`PreconditionViolation`, and in no other way; `FAULTED` is left only by `RESET` (10_state.md R32). The memory `seen` by the
fetch and the counter `fresh` are the model's (logs 6 and 9). -/
def Obligations.StateTransitions : Prop :=
  ∀ s t : State, step s = .next t →
    (s.move = .host .reset ∧ t.st = .idle) ∨
    (∃ addr, s.move = .host (.start addr) ∧
      ((s.st = .idle ∨ s.st = .halted) ∧ t.st = .running ∧ t.cp = addr ∨
        (s.st = .running ∨ s.st = .faulted) ∧ t = s.popMove)) ∨
    (s.move = .engine ∧ s.st = .running ∧ t.st = .halted ∧ decode (s.seen.mem.fetch s.cp.toNat) = .ok .endList) ∨
    (s.move = .engine ∧ s.st = .running ∧ ∃ c info f, t = { faulted s.popMove c info with fresh := f }) ∨
    ((∀ addr, s.move ≠ .host (.start addr)) ∧ s.move ≠ .host .reset ∧ t.st = s.st ∧
      (s.move = .engine → s.st ≠ .running → t = s.popMove))

/-! # What every instruction does to every register -/

/-- Only `LDI` writes an operand register; only `INIT` writes `CAP` or `STATUS.INITED`; no instruction writes a fault
register without entering `FAULTED` (10_state.md R22, R33 to R37). -/
def Obligations.RegistersKeptByInstructions : Prop :=
  ∀ (i : Instr) (s t : State), exec i s = .next t →
    ((∀ r imm, i ≠ .ldi r imm) → t.g = s.g) ∧
    ((∀ imm, i ≠ .init imm) → t.inited = s.inited ∧ t.cap = s.cap) ∧
    (s.st ≠ .faulted → t.st ≠ .faulted → t.fcause = s.fcause ∧ t.fcp = s.fcp ∧ t.finfo = s.finfo) ∧
    t.cfg = s.cfg ∧ t.moves = s.moves ∧ t.reply = s.reply ∧ t.written = s.written ∧ t.raced = s.raced

/-- A result register that the table of 10_state.md R26 does not give to the command keeps its value, also where the
command's results are unspecified. -/
def Obligations.ResultRegistersByTable : Prop :=
  ∀ (i : Instr) (s t : State), exec i s = .next t → ∀ r : Fin 4, r ∉ resultRegisters i → t.q[r] = s.q[r]

/-- Fault entry: the three fault registers and the state are written, everything else is unchanged; and until `RESET` no
step changes them again (60_exceptions.md R336). -/
def Obligations.FaultEntry : Prop :=
  (∀ (i : Instr) (s t : State), s.st ≠ .faulted → exec i s = .next t → t.st = .faulted →
    ∃ c info, t = { s with fcause := some c, finfo := info, fcp := s.cp, st := .faulted }) ∧
  ∀ s t : State, s.st = .faulted → s.move ≠ .host .reset → step s = .next t →
    t.fcause = s.fcause ∧ t.finfo = s.finfo ∧ t.fcp = s.fcp ∧ t.st = .faulted

/-- A completed command moves `CP` on by 8; `END` and a fault leave it (10_state.md R28, R29, 46_control_dispatch.md
R306). -/
def Obligations.CommandPointer : Prop :=
  ∀ (i : Instr) (s t : State), s.st = .running → exec i s = .next t →
    (t.st = .running ∧ t.cp = s.cp + 8) ∨ ((i = .endList ∧ t.st = .halted ∨ t.st = .faulted) ∧ t.cp = s.cp)

/-- A command raises none but the causes the table gives it (60_exceptions.md R332). -/
def Obligations.CausesByInstruction : Prop :=
  ∀ (i : Instr) (s t : State), s.st ≠ .faulted → exec i s = .next t → t.st = .faulted →
    ∃ c ∈ causesOf i, t.fcause = some c

/-! # The checks and their faults (60_exceptions.md) -/

/-- `NOT_INITIALIZED` comes before size and operands are looked at; control commands never raise it (R322). -/
def Obligations.NotInitializedFault : Prop :=
  (∀ (i : Instr) (s : State), 0x10 ≤ wordField (w0Of i) 0 8 → s.inited = false →
    exec i s = .next (faulted s .notInitialized (w0Of i))) ∧
  ∀ (i : Instr) (s : State) (info : Word), wordField (w0Of i) 0 8 < 0x10 →
    exec i s ≠ .next (faulted s .notInitialized info)

/-- `INVALID_SIZE` with `W0[15:12]` for a size outside the command's set (R324). -/
def Obligations.InvalidSizeFault : Prop :=
  ∀ (i : Instr) (s : State), s.inited = true → sizeOk i = false →
    exec i s = .next (faulted s .invalidSize (BitVec.ofNat 32 (wordField (w0Of i) 12 4)))

/-- `BAD_PARAM` with the lowest-numbered parameter register outside its interval (R328). -/
def Obligations.BadParamFault : Prop :=
  ∀ (i : Instr) (s : State) (r : Fin 16), PassesSize i s → (r, false) ∈ params i s →
    (∀ p ∈ params i s, p.1 < r → p.2 = true) → exec i s = .next (faulted s .badParam (BitVec.ofNat 32 r.val))

/-- `NULL_BUFFER` with the lowest-numbered base register that holds 0 (R325). -/
def Obligations.NullBufferFault : Prop :=
  ∀ (i : Instr) (s : State) (r : Fin 16), PassesParams i s → r ∈ bases i s → s.g[r] = 0 →
    (∀ b ∈ bases i s, b < r → s.g[b] ≠ 0) → exec i s = .next (faulted s .nullBuffer (BitVec.ofNat 32 r.val))

/-- `BAD_STRIDE` with the lowest-numbered stride register below the block's width, 0 and negative values included
(R326). -/
def Obligations.BadStrideFault : Prop :=
  ∀ (i : Instr) (s : State) (r : Fin 16), PassesNulls i s → r ∈ (strides i s).1 → s.signedReg r < (strides i s).2 →
    (∀ b ∈ (strides i s).1, b < r → (strides i s).2 ≤ s.signedReg b) →
    exec i s = .next (faulted s .badStride (BitVec.ofNat 32 r.val))

/-- `MISALIGNED`: at fetch with `CP`; for an array with the base in the lowest-numbered register; for `STQ` with its
immediate (R327). -/
def Obligations.MisalignedFault : Prop :=
  (∀ s : State, s.ready → s.cp.toNat % 8 ≠ 0 → step s = .next (faulted s.popMove .misaligned s.cp)) ∧
  (∀ (i : Instr) (s : State) (r : Fin 16) (n : Nat), PassesStrides i s → (r, n) ∈ arrays i → s.g[r].toNat % n ≠ 0 →
    (∀ c ∈ arrays i, c.1 < r → s.g[c.1].toNat % c.2 = 0) → exec i s = .next (faulted s .misaligned s.g[r])) ∧
  ∀ (r : Fin 4) (imm : Word) (s : State), imm.toNat % 4 ≠ 0 →
    exec (.stq r imm) s = .next (faulted s .misaligned imm)

/-- `ACCESS`: at fetch with `CP`; for a command with the least address of the read set outside memory, else of the write
set; addresses are exact integers (R329). For an `STQ` that straddles the end of memory this is the model's reading
(log 20). -/
def Obligations.AccessFault : Prop :=
  (∀ s : State, s.ready → s.cp.toNat % 8 = 0 → s.cfg.memSize < s.cp.toNat + 8 →
    step s = .next (faulted s.popMove .access s.cp)) ∧
  (∀ (i : Instr) (s : State) (a : Int), PassesAlignment i s → Reaches (reads i s) a → ¬s.inMemory a →
    (∀ b, Reaches (reads i s) b → ¬s.inMemory b → a ≤ b) → exec i s = .next (faulted s .access (BitVec.ofInt 32 a))) ∧
  ∀ (i : Instr) (s : State) (a : Int), PassesAlignment i s → s.allInMemory (reads i s) → Reaches (writes i s) a →
    ¬s.inMemory a → (∀ b, Reaches (writes i s) b → ¬s.inMemory b → a ≤ b) →
    exec i s = .next (faulted s .access (BitVec.ofInt 32 a))

/-- A command whose checks all pass completes, and a command one of whose checks fails faults with no other effect; there
is no third outcome (R321, R333, R334). -/
def Obligations.CompletesExactlyWhenAccepted : Prop :=
  ∀ (i : Instr) (s : State), s.st = .running →
    (Accepts i s → ∃ t, exec i s = .next t ∧ t.st ≠ .faulted) ∧
    (¬Accepts i s → ∃ c info, exec i s = .next (faulted s c info))

/-- What every accepted store or operation command leaves unchanged, in range or out of it: every byte outside its write
set, every result register outside its table row, and every other field but `CP` and the counter of free values
(00_scope.md R13, 20_memory.md R59, R60). -/
def Obligations.CompletionFrame : Prop :=
  ∀ (i : Instr) (s : State), Accepts i s → i ≠ .endList → (∀ r imm, i ≠ .ldi r imm) → (∀ imm, i ≠ .init imm) →
    ∃ t, exec i s = .next t ∧
      t = { s with mem := t.mem, q := t.q, cp := s.cp + 8, fresh := t.fresh } ∧
      (∀ r : Fin 4, r ∉ resultRegisters i → t.q[r] = s.q[r]) ∧
      ∀ a : Nat, ¬Reaches (writes i s) a → t.mem.read a = s.mem.read a

/-- The engine's steps do not depend on `CAP` (46_control_dispatch.md R305): with another `CAP` the step gives the same
state but for `CAP`. -/
def Obligations.CapSelectsNothing : Prop :=
  ∀ (s t : State) (c : Word), s.move = .engine → step s = .next t →
    ∃ t', step { s with cap := c } = .next t' ∧ { t' with cap := 0 } = { t with cap := 0 }

/-! # Control commands (46_control_dispatch.md) -/

/-- `END` (R300): `STATUS.STATE <- HALTED`, and nothing else. -/
def Obligations.EndHalts : Prop :=
  ∀ s : State, exec .endList s = .next { s with st := .halted }

/-- `LDI r, imm32` (R301): the register holds the immediate, every other register keeps its value, `CP` moves on. -/
def Obligations.LdiLoadsRegister : Prop :=
  ∀ (r : Fin 16) (imm : Word) (s : State),
    ∃ t, exec (.ldi r imm) s = .next t ∧ t.g[r] = imm ∧ (∀ k : Fin 16, k ≠ r → t.g[k] = s.g[k]) ∧
      t = { s with g := t.g, cp := s.cp + 8 }

/-- `STQ q, imm32` (R302): the four bytes hold the register little-endian, every other byte is unchanged. -/
def Obligations.StqStoresResultRegister : Prop :=
  ∀ (r : Fin 4) (imm : Word) (s : State), s.mem.wf → imm.toNat % 4 = 0 → imm.toNat + 4 ≤ s.cfg.memSize →
    ∃ m : Memory, exec (.stq r imm) s = .next { s with mem := m, cp := s.cp + 8 } ∧
      u32At m imm.toNat = s.q[r].toNat ∧
      ∀ a : Nat, (a < imm.toNat ∨ imm.toNat + 4 ≤ a) → m.read a = s.mem.read a

/-- `INIT imm32` (R303): *uninitialized* becomes *initialized* with `CAP` the immediate; when already *initialized* it is
the fault `REINIT` with `W0`. -/
def Obligations.InitInitializes : Prop :=
  ∀ (imm : Word) (s : State),
    (s.inited = false → exec (.init imm) s = .next { s with cap := imm, inited := true, cp := s.cp + 8 }) ∧
    (s.inited = true → exec (.init imm) s = .next (faulted s .reinit 0x00000004))

/-! # Metrics (41_metrics.md) -/

/-- `SAD` (R113) and `SSD` (R117) at every size: the sum in `q0`, nothing else. -/
def Obligations.SadAndSsdReturnSums : Prop :=
  ∀ (wc hc : SizeCode) (s : State),
    (Accepts (.sad wc hc) s → ReturnsResults (.sad wc hc) s
      (s.q.set 0 (BitVec.ofInt 32 (sadAgainst s 4 wc.pixels hc.pixels)))) ∧
    (Accepts (.ssd wc hc) s → ReturnsResults (.ssd wc hc) s
      (s.q.set 0 (BitVec.ofInt 32 (ssdOf s wc.pixels hc.pixels))))

/-- `SADX3` (R114) and `SADX4` (R115): `q[k]` is the sum against candidate `k` (R116); `SADX3` keeps `q3`. -/
def Obligations.BatchedSadReturnsSums : Prop :=
  ∀ (wc hc : SizeCode) (s : State),
    (Accepts (.sadx3 wc hc) s → ReturnsResults (.sadx3 wc hc) s
      (((s.q.set 0 (BitVec.ofInt 32 (sadAgainst s 4 wc.pixels hc.pixels))).set 1
        (BitVec.ofInt 32 (sadAgainst s 6 wc.pixels hc.pixels))).set 2
        (BitVec.ofInt 32 (sadAgainst s 7 wc.pixels hc.pixels)))) ∧
    (Accepts (.sadx4 wc hc) s → ReturnsResults (.sadx4 wc hc) s
      ((((s.q.set 0 (BitVec.ofInt 32 (sadAgainst s 4 wc.pixels hc.pixels))).set 1
        (BitVec.ofInt 32 (sadAgainst s 6 wc.pixels hc.pixels))).set 2
        (BitVec.ofInt 32 (sadAgainst s 7 wc.pixels hc.pixels))).set 3
        (BitVec.ofInt 32 (sadAgainst s 8 wc.pixels hc.pixels))))

/-- `SSDWH` (R119): the 64-bit sum of the `P0`×`P1` region in `q1:q0`. -/
def Obligations.SsdwhReturnsWideSum : Prop :=
  ∀ s : State, Accepts .ssdwh s → ReturnsResults .ssdwh s
    ((s.q.set 0 (BitVec.ofInt 32 (ssdOf s s.g[(9 : Fin 16)].toNat s.g[(10 : Fin 16)].toNat % 2 ^ 32))).set 1
      (BitVec.ofInt 32 (ssdOf s s.g[(9 : Fin 16)].toNat s.g[(10 : Fin 16)].toNat / 2 ^ 32)))

/-- `SATD` (R122): half the sum of the absolute Hadamard coefficients of the 4×4 tiles, in matrix form (R120). -/
def Obligations.SatdReturnsTransformedSum : Prop :=
  ∀ (wc hc : SizeCode) (s : State), Accepts (.satd wc hc) s → ReturnsResults (.satd wc hc) s
    (s.q.set 0 (BitVec.ofInt 32 (tilesSum s 4 wc.pixels hc.pixels / 2)))

/-- `SA8D` (R125): the sum of the absolute coefficients of the 8×8 tiles, rounded once, in matrix form (R123, R124). -/
def Obligations.Sa8dReturnsTransformedSum : Prop :=
  ∀ (wc hc : SizeCode) (s : State), Accepts (.sa8d wc hc) s → ReturnsResults (.sa8d wc hc) s
    (s.q.set 0 (BitVec.ofInt 32 ((tilesSum s 8 wc.pixels hc.pixels + 2) / 4)))

/-- `ADS1`, `ADS2`, `ADS4` in range (R127 to R130, R131): the list is exactly the candidates below the threshold, in
increasing order; `q0` is its length; bytes after the list keep their values. -/
def Obligations.AdsListsAcceptedCandidates : Prop :=
  ∀ (i : Instr) (s : State), i ∈ [Instr.ads1, .ads2, .ads4] → s.mem.wf → Accepts i s →
    (∀ n < s.g[(9 : Fin 16)].toNat, adsCost i s n < 2 ^ 31) →
    ∃ m : Memory,
      exec i s = .next { s with
        mem := m, q := s.q.set 0 (BitVec.ofNat 32 (adsList i s).length), cp := s.cp + 8 } ∧
      (∀ k < (adsList i s).length, s16At m (s.unsignedReg 0 + 2 * (k : Nat)) = ((adsList i s).getD k 0 : Nat)) ∧
      ∀ a : Nat, ((a : Int) < s.unsignedReg 0 ∨ s.unsignedReg 0 + 2 * ((adsList i s).length : Nat) ≤ a) →
        m.read a = s.mem.read a

/-- `SSIM4` (R135): the four partial sums of one 4×4 tile. -/
def Obligations.Ssim4ReturnsPartialSums : Prop :=
  ∀ s : State, Accepts .ssim4 s → ReturnsResults .ssim4 s
    ((((s.q.set 0 (BitVec.ofInt 32 (blockSum 4 4 fun x y => s.sampleA x y))).set 1
      (BitVec.ofInt 32 (blockSum 4 4 fun x y => s.sampleB x y))).set 2
      (BitVec.ofInt 32 (blockSum 4 4 fun x y => s.sampleA x y ^ 2 + s.sampleB x y ^ 2))).set 3
      (BitVec.ofInt 32 (blockSum 4 4 fun x y => s.sampleA x y * s.sampleB x y)))

/-- The laws of R118 for `SAD`, `SATD`, `SSD`, `SA8D`: equal blocks give 0; exchanging A and B leaves the result. -/
def Obligations.MetricLaws : Prop :=
  ∀ (wc hc : SizeCode) (i : Instr) (s t : State),
    i ∈ [Instr.sad wc hc, .satd wc hc, .ssd wc hc, .sa8d wc hc] → Accepts i s → exec i s = .next t →
    ((∀ x < wc.pixels, ∀ y < hc.pixels, s.sampleA (x : Nat) (y : Nat) = s.sampleB (x : Nat) (y : Nat)) → t.q[0] = 0) ∧
    ∃ t', exec i { s with g := (((s.g.set 2 s.g[4]).set 3 s.g[5]).set 4 s.g[2]).set 5 s.g[3] } = .next t' ∧
      t'.q = t.q

/-- The raw sums of SATD and SA8D tiles are even for every tile of differences (R121, R124). -/
def Obligations.TransformedSumsEven : Prop :=
  ∀ d : Nat → Nat → Int, raw4 d % 2 = 0 ∧ raw8 d % 2 = 0

/-! # Transforms and quantization (42_transform_quant.md) -/

/-- `FDCT4` at every size (R143): element `4v+u` of sub-block `n` is entry `(u,v)` of the matrix product `M·D·Mᵀ` (R142);
always in range (R144). -/
def Obligations.Fdct4StoresTransform : Prop :=
  ∀ (wc hc : SizeCode) (s : State), s.mem.wf → Accepts (.fdct4 wc hc) s →
    StoresArray (.fdct4 wc hc) s (wc.pixels * hc.pixels) fun k =>
      blockSum 4 4 fun x y => entry fwdMatrix (k % 4) x * entry fwdMatrix (k / 4 % 4) y *
        (s.sampleA ↑((subOffset (k / 16)).1 + x) ↑((subOffset (k / 16)).2 + y)
          - s.sampleB ↑((subOffset (k / 16)).1 + x) ↑((subOffset (k / 16)).2 + y))

/-- `IDCT4` at every size, in range (R145 to R147): the residual is added to the destination and clipped. -/
def Obligations.Idct4AddsResidual : Prop :=
  ∀ (wc hc : SizeCode) (s : State), s.mem.wf → Accepts (.idct4 wc hc) s →
    (∀ n < wc.pixels * hc.pixels / 16, Inv4InRange fun k => s.sourceCoef (16 * n + k)) →
    FillsBlock (.idct4 wc hc) s wc.pixels hc.pixels fun x y =>
      clipped (s.sample 0 1 x y
        + (inv4Col (fun k => s.sourceCoef (16 * subIndex x y + k)) (x % 4) (y % 4) + 32) / 64)

/-- `FDCT8` (R148, R149), always in range. -/
def Obligations.Fdct8StoresTransform : Prop :=
  ∀ s : State, s.mem.wf → Accepts .fdct8 s → StoresArray .fdct8 s 64 fun k => dct8Coef s (k % 8) (k / 8)

/-- `IDCT8` in range (R150 to R152). -/
def Obligations.Idct8AddsResidual : Prop :=
  ∀ s : State, s.mem.wf → Accepts .idct8 s → Inv8InRange s →
    FillsBlock .idct8 s 8 8 fun x y => clipped (s.sample 0 1 x y + inv8Col s x y / 64)

/-- `FDC4`, `IDC4`, `FDC2`, `IDC2` in range (R153 to R158), in matrix form. -/
def Obligations.DcTransformsStore : Prop :=
  ∀ s : State, s.mem.wf →
    (Accepts .fdc4 s → (∀ u < 4, ∀ v < 4, IsS16 (dcRow s u v) ∧ IsS16 (dcCol s u v)) →
      StoresArray .fdc4 s 16 fun k => dcCol s (k % 4) (k / 4)) ∧
    (Accepts .idc4 s →
      (∀ u < 4, ∀ v < 4, IsS16 (dcRow s u v) ∧ IsS16 (dcCol s u v) ∧ IsS16 (dcCol s u v + 1)) →
      StoresArray .idc4 s 16 fun k => (dcCol s (k % 4) (k / 4) + 1) / 2) ∧
    (Accepts .fdc2 s → (∀ k < 4, IsS16 (dc2 s k)) → StoresArray .fdc2 s 4 fun k => dc2 s k) ∧
    (Accepts .idc2 s → (∀ k < 4, IsS16 (dc2 s k) ∧ IsS16 (dc2 s k + 1)) →
      StoresArray .idc2 s 4 fun k => (dc2 s k + 1) / 2)

/-- `QUANT4`, `QUANT8`, `QUANTDC4`, `QUANTDC2` in range (R160 to R165). -/
def Obligations.QuantizersStoreLevels : Prop :=
  ∀ s : State, s.mem.wf →
    (Accepts .quant4 s → (∀ k < 16, |levelOf s (s.sourceCoef k) (multiplier s k)| ≤ 32767) →
      StoresArray .quant4 s 16 fun k => levelOf s (s.sourceCoef k) (multiplier s k)) ∧
    (Accepts .quant8 s → (∀ k < 64, |levelOf s (s.sourceCoef k) (multiplier s k)| ≤ 32767) →
      StoresArray .quant8 s 64 fun k => levelOf s (s.sourceCoef k) (multiplier s k)) ∧
    (Accepts .quantdc4 s → (∀ k < 16, |levelOf s (s.sourceCoef k) (s.unsignedReg 11)| ≤ 32767) →
      StoresArray .quantdc4 s 16 fun k => levelOf s (s.sourceCoef k) (s.unsignedReg 11)) ∧
    (Accepts .quantdc2 s → (∀ k < 4, |levelOf s (s.sourceCoef k) (s.unsignedReg 11)| ≤ 32767) →
      StoresArray .quantdc2 s 4 fun k => levelOf s (s.sourceCoef k) (s.unsignedReg 11))

/-- `ZIGZAG4` (R167): output element `k` is input element `ZIGZAG4[k]`, also in place. -/
def Obligations.ZigzagReorders : Prop :=
  ∀ s : State, s.mem.wf → Accepts .zigzag4 s →
    StoresArray .zigzag4 s 16 fun k => s.sourceCoef (s.cfg.zigzag4.toList.getD k 0).val

/-! # Intra prediction (43_intra_4x4.md, 44_intra_8x8_16x16_chroma.md) -/

/-- The vertical, horizontal and constant modes of the four classes (R186, R187, R197, R222, R223, R233, R236, R237, R241,
R245, R246, R250). -/
def Obligations.PredictPlainModes : Prop :=
  ∀ s : State, s.mem.wf →
    (Accepts .pred4V s → FillsBlock .pred4V s 4 4 fun x _ => s.topOf x) ∧
    (Accepts .pred4H s → FillsBlock .pred4H s 4 4 fun _ y => s.leftOf y) ∧
    (Accepts .pred4DC128 s → FillsBlock .pred4DC128 s 4 4 fun _ _ => 128) ∧
    (Accepts .pred8V s → FillsBlock .pred8V s 8 8 fun x _ => s.edgeTop x) ∧
    (Accepts .pred8H s → FillsBlock .pred8H s 8 8 fun _ y => s.edgeLeft y) ∧
    (Accepts .pred8DC128 s → FillsBlock .pred8DC128 s 8 8 fun _ _ => 128) ∧
    (Accepts .pred16V s → FillsBlock .pred16V s 16 16 fun x _ => s.topOf x) ∧
    (Accepts .pred16H s → FillsBlock .pred16H s 16 16 fun _ y => s.leftOf y) ∧
    (Accepts .pred16DC128 s → FillsBlock .pred16DC128 s 16 16 fun _ _ => 128) ∧
    (Accepts .predCV s → FillsBlock .predCV s 8 8 fun x _ => s.topOf x) ∧
    (Accepts .predCH s → FillsBlock .predCH s 8 8 fun _ y => s.leftOf y) ∧
    (Accepts .predCDC128 s → FillsBlock .predCDC128 s 8 8 fun _ _ => 128)

/-- The DC modes of the three luma classes (R185, R188, R195, R196, R224, R231, R232, R238, R239, R240). -/
def Obligations.PredictLumaDcModes : Prop :=
  ∀ s : State, s.mem.wf →
    (Accepts .pred4DC s → FillsBlock .pred4DC s 4 4 fun _ _ =>
      (stretchSum s.topOf 0 4 + stretchSum s.leftOf 0 4 + 4) / 8) ∧
    (Accepts .pred4DCL s → FillsBlock .pred4DCL s 4 4 fun _ _ => (stretchSum s.leftOf 0 4 + 2) / 4) ∧
    (Accepts .pred4DCT s → FillsBlock .pred4DCT s 4 4 fun _ _ => (stretchSum s.topOf 0 4 + 2) / 4) ∧
    (Accepts .pred8DC s → FillsBlock .pred8DC s 8 8 fun _ _ =>
      (stretchSum s.edgeTop 0 8 + stretchSum s.edgeLeft 0 8 + 8) / 16) ∧
    (Accepts .pred8DCL s → FillsBlock .pred8DCL s 8 8 fun _ _ => (stretchSum s.edgeLeft 0 8 + 4) / 8) ∧
    (Accepts .pred8DCT s → FillsBlock .pred8DCT s 8 8 fun _ _ => (stretchSum s.edgeTop 0 8 + 4) / 8) ∧
    (Accepts .pred16DC s → FillsBlock .pred16DC s 16 16 fun _ _ =>
      (stretchSum s.topOf 0 16 + stretchSum s.leftOf 0 16 + 16) / 32) ∧
    (Accepts .pred16DCL s → FillsBlock .pred16DCL s 16 16 fun _ _ => (stretchSum s.leftOf 0 16 + 8) / 16) ∧
    (Accepts .pred16DCT s → FillsBlock .pred16DCT s 16 16 fun _ _ => (stretchSum s.topOf 0 16 + 8) / 16)

/-- The DC modes of the chroma class, a value for each quadrant (44_intra_8x8_16x16_chroma.md R244, R247 to R249). -/
def Obligations.PredictChromaDcModes : Prop :=
  ∀ s : State, s.mem.wf →
    (Accepts .predCDC s → FillsBlock .predCDC s 8 8
      (byQuadrant ((stretchSum s.topOf 0 4 + stretchSum s.leftOf 0 4 + 4) / 8) ((stretchSum s.topOf 4 4 + 2) / 4)
        ((stretchSum s.leftOf 4 4 + 2) / 4) ((stretchSum s.topOf 4 4 + stretchSum s.leftOf 4 4 + 4) / 8))) ∧
    (Accepts .predCDCL s → FillsBlock .predCDCL s 8 8
      (byQuadrant ((stretchSum s.leftOf 0 4 + 2) / 4) ((stretchSum s.leftOf 0 4 + 2) / 4)
        ((stretchSum s.leftOf 4 4 + 2) / 4) ((stretchSum s.leftOf 4 4 + 2) / 4))) ∧
    (Accepts .predCDCT s → FillsBlock .predCDCT s 8 8
      (byQuadrant ((stretchSum s.topOf 0 4 + 2) / 4) ((stretchSum s.topOf 4 4 + 2) / 4)
        ((stretchSum s.topOf 0 4 + 2) / 4) ((stretchSum s.topOf 4 4 + 2) / 4)))

/-- The six directional modes of the 4×4 class (43_intra_4x4.md R189 to R194). -/
def Obligations.PredictDirectional4 : Prop :=
  ∀ s : State, s.mem.wf →
    (Accepts .pred4DDL s → FillsBlock .pred4DDL s 4 4 fun x y => downLeft 4 s.topOf x y) ∧
    (Accepts .pred4DDR s → FillsBlock .pred4DDR s 4 4 fun x y => downRight s.topOf s.leftOf x y) ∧
    (Accepts .pred4VR s → FillsBlock .pred4VR s 4 4 fun x y => verticalRight s.topOf s.leftOf x y) ∧
    (Accepts .pred4HD s → FillsBlock .pred4HD s 4 4 fun x y => horizontalDown s.topOf s.leftOf x y) ∧
    (Accepts .pred4VL s → FillsBlock .pred4VL s 4 4 fun x y => verticalLeft s.topOf x y) ∧
    (Accepts .pred4HU s → FillsBlock .pred4HU s 4 4 fun x y => horizontalUp 4 s.leftOf x y)

/-- The six directional modes of the 8×8 class, from the edge array (44_intra_8x8_16x16_chroma.md R225 to R230). -/
def Obligations.PredictDirectional8 : Prop :=
  ∀ s : State, s.mem.wf →
    (Accepts .pred8DDL s → FillsBlock .pred8DDL s 8 8 fun x y => downLeft 8 s.edgeTop x y) ∧
    (Accepts .pred8DDR s → FillsBlock .pred8DDR s 8 8 fun x y => downRight s.edgeTop s.edgeLeft x y) ∧
    (Accepts .pred8VR s → FillsBlock .pred8VR s 8 8 fun x y => verticalRight s.edgeTop s.edgeLeft x y) ∧
    (Accepts .pred8HD s → FillsBlock .pred8HD s 8 8 fun x y => horizontalDown s.edgeTop s.edgeLeft x y) ∧
    (Accepts .pred8VL s → FillsBlock .pred8VL s 8 8 fun x y => verticalLeft s.edgeTop x y) ∧
    (Accepts .pred8HU s → FillsBlock .pred8HU s 8 8 fun x y => horizontalUp 8 s.edgeLeft x y)

/-- Planar prediction of the 16×16 and the chroma class (44_intra_8x8_16x16_chroma.md R235, R242, R251). -/
def Obligations.PredictPlanar : Prop :=
  ∀ s : State, s.mem.wf →
    (Accepts .pred16P s → FillsBlock .pred16P s 16 16 fun x y =>
      planarPixel 8 s.topOf s.leftOf ((5 * gradientOf 8 s.topOf + 32) / 64) ((5 * gradientOf 8 s.leftOf + 32) / 64) x y) ∧
    (Accepts .predCP s → FillsBlock .predCP s 8 8 fun x y =>
      planarPixel 4 s.topOf s.leftOf ((17 * gradientOf 4 s.topOf + 16) / 32) ((17 * gradientOf 4 s.leftOf + 16) / 32) x y)

/-! # Motion compensation (45_motion_comp.md) -/

/-- `MCLUMA` at every size and phase, for every pair of tables (R272). -/
def Obligations.MclumaInterpolates : Prop :=
  ∀ (wc hc : SizeCode) (s : State), s.mem.wf → Accepts (.mcluma wc hc) s →
    FillsBlock (.mcluma wc hc) s wc.pixels hc.pixels fun x y =>
      if s.usesSecond then
        (byteAt s.mem (s.firstBase + y * s.signedReg 5 + x) + byteAt s.mem (s.secondBase + y * s.signedReg 5 + x) + 1) / 2
      else byteAt s.mem (s.firstBase + y * s.signedReg 5 + x)

/-- `MCCHROMA` at every size and vector (R275, R276): the weighted value is a pixel without a clip. -/
def Obligations.McchromaInterpolates : Prop :=
  ∀ (wc hc : SizeCode) (s : State), s.mem.wf → Accepts (.mcchroma wc hc) s →
    FillsBlock (.mcchroma wc hc) s wc.pixels hc.pixels fun x y => chromaPixel s x y

/-- `COPY` (R278) and `AVG` (R279) at every size. -/
def Obligations.CopyAndAverage : Prop :=
  ∀ (wc hc : SizeCode) (s : State), s.mem.wf →
    (Accepts (.copy wc hc) s → FillsBlock (.copy wc hc) s wc.pixels hc.pixels fun x y => s.sampleB x y) ∧
    (Accepts (.avg wc hc) s → FillsBlock (.avg wc hc) s wc.pixels hc.pixels fun x y =>
      (s.sampleA x y + s.sampleB x y + 1) / 2)

/-- `HPELH` (R281), `HPELV` (R282) and `HPELC` (R283) at every size; the centre filter in its two-dimensional form. -/
def Obligations.HalfPelFilters : Prop :=
  ∀ (wc hc : SizeCode) (s : State), s.mem.wf →
    (Accepts (.hpelh wc hc) s → FillsBlock (.hpelh wc hc) s wc.pixels hc.pixels fun x y =>
      clipped ((filterH s x y + 16) / 32)) ∧
    (Accepts (.hpelv wc hc) s → FillsBlock (.hpelv wc hc) s wc.pixels hc.pixels fun x y =>
      clipped ((filterV s x y + 16) / 32)) ∧
    (Accepts (.hpelc wc hc) s → FillsBlock (.hpelc wc hc) s wc.pixels hc.pixels fun x y =>
      clipped ((filterC s x y + 512) / 1024))

/-- With a zero vector `MCLUMA` is `COPY` (R274): the same outcome from the same state, whatever `SRCB1`, `SRCB2`, `SRCB3`
hold, given a table whose entry 0 is 0 and one command's acceptance. -/
def Obligations.ZeroVectorIsCopy : Prop :=
  ∀ (wc hc : SizeCode) (s : State), s.cfg.wf = true → s.signedReg 9 = 0 → s.signedReg 10 = 0 →
    (Accepts (.mcluma wc hc) s ↔ Accepts (.copy wc hc) s) ∧
    (Accepts (.copy wc hc) s → exec (.mcluma wc hc) s = exec (.copy wc hc) s)

/-! # Racing accesses of the host and the engine (20_memory.md) -/

/-- What a command can see and leave where the host has written memory during the run (20_memory.md R67,
93_implementation_defined.md U3): every byte is seen as memory holds it or as one of its racing values; the command raises no
fault of its own for it and does to the registers what it does on the memory seen; it leaves every byte at its own value or
at the host's, a byte that the host did not write at its own, and a byte that it does not write as it was. What a command
writes is its write set, but of an ADS command in range the bytes its list fills (41_metrics.md R127; log 23). Words seen at `CP`
that are no command raise `ILLEGAL_COMMAND` with the `W0` seen. How the values are chosen is free (logs 6 and 9). -/
def Obligations.RacingAccesses : Prop :=
  ∀ s : State, s.mem.wf → s.ready → s.canFetch →
    (∀ a : Nat, s.seen.mem.read a = s.mem.read a ∨ (a, s.seen.mem.read a) ∈ s.raced) ∧
    (IllegalWords (w0At s.seen.mem s.cp.toNat) (w1At s.seen.mem s.cp.toNat) →
      step s = .next { faulted s.popMove .illegalCommand (w0At s.seen.mem s.cp.toNat) with fresh := s.seen.fresh }) ∧
    ∀ (i : Instr) (t : State), decode (s.seen.mem.fetch s.cp.toNat) = .ok i → step s = .next t →
      ∃ u, exec i s.popMove.seen = .next u ∧
        t = { u with mem := t.mem, written := t.written, raced := t.raced, fresh := t.fresh } ∧
        (∀ a : Nat, t.mem.read a = u.mem.read a ∨ t.mem.read a = s.mem.read a) ∧
        (∀ a : Nat, ¬s.hostWrote a → t.mem.read a = u.mem.read a) ∧
        (∀ a : Nat, ¬Reaches (storedBy i s.seen) a → t.mem.read a = s.mem.read a) ∧
        (i ∉ [Instr.ads1, .ads2, .ads4] → storedBy i s.seen = writes i s) ∧
        (i ∈ [Instr.ads1, .ads2, .ads4] → Accepts i s → (∀ n < s.g[(9 : Fin 16)].toNat, adsCost i s.seen n < 2 ^ 31) →
          ∀ a : Int, Reaches (storedBy i s.seen) a ↔
            s.unsignedReg 0 ≤ a ∧ a < s.unsignedReg 0 + 2 * ((adsList i s.seen).length : Nat))
end

