-- ==== Sys2Proof/Laws/State.lean ====
section
/-! SUPPORT. One lemma per field of State for each update of it, so that no later proof unfolds a record update. -/

namespace Sys2Proof.Machine

/-! ## writing one operand register (10_state.md R22) -/

@[simp] theorem State.setG_g (s : State) (r : Fin 16) (v : Word) : (s.setG r v).g = s.g.set r v := rfl
@[simp] theorem State.setG_q (s : State) (r : Fin 16) (v : Word) : (s.setG r v).q = s.q := rfl
@[simp] theorem State.setG_cp (s : State) (r : Fin 16) (v : Word) : (s.setG r v).cp = s.cp := rfl
@[simp] theorem State.setG_st (s : State) (r : Fin 16) (v : Word) : (s.setG r v).st = s.st := rfl
@[simp] theorem State.setG_inited (s : State) (r : Fin 16) (v : Word) : (s.setG r v).inited = s.inited := rfl
@[simp] theorem State.setG_cap (s : State) (r : Fin 16) (v : Word) : (s.setG r v).cap = s.cap := rfl
@[simp] theorem State.setG_fcause (s : State) (r : Fin 16) (v : Word) : (s.setG r v).fcause = s.fcause := rfl
@[simp] theorem State.setG_fcp (s : State) (r : Fin 16) (v : Word) : (s.setG r v).fcp = s.fcp := rfl
@[simp] theorem State.setG_finfo (s : State) (r : Fin 16) (v : Word) : (s.setG r v).finfo = s.finfo := rfl
@[simp] theorem State.setG_mem (s : State) (r : Fin 16) (v : Word) : (s.setG r v).mem = s.mem := rfl
@[simp] theorem State.setG_cfg (s : State) (r : Fin 16) (v : Word) : (s.setG r v).cfg = s.cfg := rfl
@[simp] theorem State.setG_fresh (s : State) (r : Fin 16) (v : Word) : (s.setG r v).fresh = s.fresh := rfl
@[simp] theorem State.setG_moves (s : State) (r : Fin 16) (v : Word) : (s.setG r v).moves = s.moves := rfl
@[simp] theorem State.setG_reply (s : State) (r : Fin 16) (v : Word) : (s.setG r v).reply = s.reply := rfl
@[simp] theorem State.setG_written (s : State) (r : Fin 16) (v : Word) : (s.setG r v).written = s.written := rfl
@[simp] theorem State.setG_raced (s : State) (r : Fin 16) (v : Word) : (s.setG r v).raced = s.raced := rfl

/-! ## advancing `CP` (10_state.md R28) -/

@[simp] theorem State.advance_g (s : State) : (s.advance).g = s.g := rfl
@[simp] theorem State.advance_q (s : State) : (s.advance).q = s.q := rfl
@[simp] theorem State.advance_cp (s : State) : (s.advance).cp = s.cp + 8 := rfl
@[simp] theorem State.advance_st (s : State) : (s.advance).st = s.st := rfl
@[simp] theorem State.advance_inited (s : State) : (s.advance).inited = s.inited := rfl
@[simp] theorem State.advance_cap (s : State) : (s.advance).cap = s.cap := rfl
@[simp] theorem State.advance_fcause (s : State) : (s.advance).fcause = s.fcause := rfl
@[simp] theorem State.advance_fcp (s : State) : (s.advance).fcp = s.fcp := rfl
@[simp] theorem State.advance_finfo (s : State) : (s.advance).finfo = s.finfo := rfl
@[simp] theorem State.advance_mem (s : State) : (s.advance).mem = s.mem := rfl
@[simp] theorem State.advance_cfg (s : State) : (s.advance).cfg = s.cfg := rfl
@[simp] theorem State.advance_fresh (s : State) : (s.advance).fresh = s.fresh := rfl
@[simp] theorem State.advance_moves (s : State) : (s.advance).moves = s.moves := rfl
@[simp] theorem State.advance_reply (s : State) : (s.advance).reply = s.reply := rfl
@[simp] theorem State.advance_written (s : State) : (s.advance).written = s.written := rfl
@[simp] theorem State.advance_raced (s : State) : (s.advance).raced = s.raced := rfl

/-! ## fault entry (60_exceptions.md R336) -/

@[simp] theorem State.raise_g (s : State) (v : Violation) : (s.raise v).g = s.g := rfl
@[simp] theorem State.raise_q (s : State) (v : Violation) : (s.raise v).q = s.q := rfl
@[simp] theorem State.raise_cp (s : State) (v : Violation) : (s.raise v).cp = s.cp := rfl
@[simp] theorem State.raise_st (s : State) (v : Violation) : (s.raise v).st = .faulted := rfl
@[simp] theorem State.raise_inited (s : State) (v : Violation) : (s.raise v).inited = s.inited := rfl
@[simp] theorem State.raise_cap (s : State) (v : Violation) : (s.raise v).cap = s.cap := rfl
@[simp] theorem State.raise_fcause (s : State) (v : Violation) : (s.raise v).fcause = some v.cause := rfl
@[simp] theorem State.raise_fcp (s : State) (v : Violation) : (s.raise v).fcp = s.cp := rfl
@[simp] theorem State.raise_finfo (s : State) (v : Violation) : (s.raise v).finfo = v.info := rfl
@[simp] theorem State.raise_mem (s : State) (v : Violation) : (s.raise v).mem = s.mem := rfl
@[simp] theorem State.raise_cfg (s : State) (v : Violation) : (s.raise v).cfg = s.cfg := rfl
@[simp] theorem State.raise_fresh (s : State) (v : Violation) : (s.raise v).fresh = s.fresh := rfl
@[simp] theorem State.raise_moves (s : State) (v : Violation) : (s.raise v).moves = s.moves := rfl
@[simp] theorem State.raise_reply (s : State) (v : Violation) : (s.raise v).reply = s.reply := rfl
@[simp] theorem State.raise_written (s : State) (v : Violation) : (s.raise v).written = s.written := rfl
@[simp] theorem State.raise_raced (s : State) (v : Violation) : (s.raise v).raced = s.raced := rfl

/-! ## the write phase (00_scope.md R17) -/

@[simp] theorem State.commit_g (s : State) (w : List Run) (e : Effect) : (s.commit w e).g = s.g := rfl
@[simp] theorem State.commit_q (s : State) (w : List Run) (e : Effect) : (s.commit w e).q = setResults s.q e.results := rfl
@[simp] theorem State.commit_cp (s : State) (w : List Run) (e : Effect) : (s.commit w e).cp = s.cp := rfl
@[simp] theorem State.commit_st (s : State) (w : List Run) (e : Effect) : (s.commit w e).st = s.st := rfl
@[simp] theorem State.commit_inited (s : State) (w : List Run) (e : Effect) : (s.commit w e).inited = s.inited := rfl
@[simp] theorem State.commit_cap (s : State) (w : List Run) (e : Effect) : (s.commit w e).cap = s.cap := rfl
@[simp] theorem State.commit_fcause (s : State) (w : List Run) (e : Effect) : (s.commit w e).fcause = s.fcause := rfl
@[simp] theorem State.commit_fcp (s : State) (w : List Run) (e : Effect) : (s.commit w e).fcp = s.fcp := rfl
@[simp] theorem State.commit_finfo (s : State) (w : List Run) (e : Effect) : (s.commit w e).finfo = s.finfo := rfl
@[simp] theorem State.commit_mem (s : State) (w : List Run) (e : Effect) : (s.commit w e).mem = s.mem.storeAll (((addresses w).map Int.toNat).zip e.bytes) := rfl
@[simp] theorem State.commit_cfg (s : State) (w : List Run) (e : Effect) : (s.commit w e).cfg = s.cfg := rfl
@[simp] theorem State.commit_fresh (s : State) (w : List Run) (e : Effect) : (s.commit w e).fresh = s.fresh + e.drawn := rfl
@[simp] theorem State.commit_moves (s : State) (w : List Run) (e : Effect) : (s.commit w e).moves = s.moves := rfl
@[simp] theorem State.commit_reply (s : State) (w : List Run) (e : Effect) : (s.commit w e).reply = s.reply := rfl
@[simp] theorem State.commit_written (s : State) (w : List Run) (e : Effect) : (s.commit w e).written = s.written := rfl
@[simp] theorem State.commit_raced (s : State) (w : List Run) (e : Effect) : (s.commit w e).raced = s.raced := rfl

/-! ## the host's `RESET` (10_state.md R46) -/

@[simp] theorem State.hostReset_g (s : State) : (s.hostReset).g = Vector.replicate 16 0 := rfl
@[simp] theorem State.hostReset_q (s : State) : (s.hostReset).q = Vector.replicate 4 0 := rfl
@[simp] theorem State.hostReset_cp (s : State) : (s.hostReset).cp = 0 := rfl
@[simp] theorem State.hostReset_st (s : State) : (s.hostReset).st = .idle := rfl
@[simp] theorem State.hostReset_inited (s : State) : (s.hostReset).inited = false := rfl
@[simp] theorem State.hostReset_cap (s : State) : (s.hostReset).cap = 0 := rfl
@[simp] theorem State.hostReset_fcause (s : State) : (s.hostReset).fcause = none := rfl
@[simp] theorem State.hostReset_fcp (s : State) : (s.hostReset).fcp = 0 := rfl
@[simp] theorem State.hostReset_finfo (s : State) : (s.hostReset).finfo = 0 := rfl
@[simp] theorem State.hostReset_mem (s : State) : (s.hostReset).mem = s.mem := rfl
@[simp] theorem State.hostReset_cfg (s : State) : (s.hostReset).cfg = s.cfg := rfl
@[simp] theorem State.hostReset_fresh (s : State) : (s.hostReset).fresh = s.fresh := rfl
@[simp] theorem State.hostReset_moves (s : State) : (s.hostReset).moves = s.moves := rfl
@[simp] theorem State.hostReset_reply (s : State) : (s.hostReset).reply = s.reply := rfl
@[simp] theorem State.hostReset_written (s : State) : (s.hostReset).written = [] := rfl
@[simp] theorem State.hostReset_raced (s : State) : (s.hostReset).raced = [] := rfl

/-! ## taking the move from the schedule -/

@[simp] theorem State.popMove_g (s : State) : (s.popMove).g = s.g := rfl
@[simp] theorem State.popMove_q (s : State) : (s.popMove).q = s.q := rfl
@[simp] theorem State.popMove_cp (s : State) : (s.popMove).cp = s.cp := rfl
@[simp] theorem State.popMove_st (s : State) : (s.popMove).st = s.st := rfl
@[simp] theorem State.popMove_inited (s : State) : (s.popMove).inited = s.inited := rfl
@[simp] theorem State.popMove_cap (s : State) : (s.popMove).cap = s.cap := rfl
@[simp] theorem State.popMove_fcause (s : State) : (s.popMove).fcause = s.fcause := rfl
@[simp] theorem State.popMove_fcp (s : State) : (s.popMove).fcp = s.fcp := rfl
@[simp] theorem State.popMove_finfo (s : State) : (s.popMove).finfo = s.finfo := rfl
@[simp] theorem State.popMove_mem (s : State) : (s.popMove).mem = s.mem := rfl
@[simp] theorem State.popMove_cfg (s : State) : (s.popMove).cfg = s.cfg := rfl
@[simp] theorem State.popMove_fresh (s : State) : (s.popMove).fresh = s.fresh := rfl
@[simp] theorem State.popMove_moves (s : State) : (s.popMove).moves = s.moves.tail := rfl
@[simp] theorem State.popMove_reply (s : State) : (s.popMove).reply = s.reply := rfl
@[simp] theorem State.popMove_written (s : State) : (s.popMove).written = s.written := rfl
@[simp] theorem State.popMove_raced (s : State) : (s.popMove).raced = s.raced := rfl

/-! ## the state as the next command sees it (20_memory.md R67) -/

@[simp] theorem State.seen_g (s : State) : (s.seen).g = s.g := rfl
@[simp] theorem State.seen_q (s : State) : (s.seen).q = s.q := rfl
@[simp] theorem State.seen_cp (s : State) : (s.seen).cp = s.cp := rfl
@[simp] theorem State.seen_st (s : State) : (s.seen).st = s.st := rfl
@[simp] theorem State.seen_inited (s : State) : (s.seen).inited = s.inited := rfl
@[simp] theorem State.seen_cap (s : State) : (s.seen).cap = s.cap := rfl
@[simp] theorem State.seen_fcause (s : State) : (s.seen).fcause = s.fcause := rfl
@[simp] theorem State.seen_fcp (s : State) : (s.seen).fcp = s.fcp := rfl
@[simp] theorem State.seen_finfo (s : State) : (s.seen).finfo = s.finfo := rfl
@[simp] theorem State.seen_mem (s : State) : (s.seen).mem = s.mem.seen s.raced s.fresh := rfl
@[simp] theorem State.seen_cfg (s : State) : (s.seen).cfg = s.cfg := rfl
@[simp] theorem State.seen_fresh (s : State) : (s.seen).fresh = s.fresh + s.raced.length := rfl
@[simp] theorem State.seen_moves (s : State) : (s.seen).moves = s.moves := rfl
@[simp] theorem State.seen_reply (s : State) : (s.seen).reply = s.reply := rfl
@[simp] theorem State.seen_written (s : State) : (s.seen).written = s.written := rfl
@[simp] theorem State.seen_raced (s : State) : (s.seen).raced = s.raced := rfl

/-! ## a completed command with its races settled (20_memory.md R67) -/

@[simp] theorem State.settle_g (s : State) (ws : List Rect) (t : State) : (s.settle ws t).g = t.g := rfl
@[simp] theorem State.settle_q (s : State) (ws : List Rect) (t : State) : (s.settle ws t).q = t.q := rfl
@[simp] theorem State.settle_cp (s : State) (ws : List Rect) (t : State) : (s.settle ws t).cp = t.cp := rfl
@[simp] theorem State.settle_st (s : State) (ws : List Rect) (t : State) : (s.settle ws t).st = t.st := rfl
@[simp] theorem State.settle_inited (s : State) (ws : List Rect) (t : State) : (s.settle ws t).inited = t.inited := rfl
@[simp] theorem State.settle_cap (s : State) (ws : List Rect) (t : State) : (s.settle ws t).cap = t.cap := rfl
@[simp] theorem State.settle_fcause (s : State) (ws : List Rect) (t : State) : (s.settle ws t).fcause = t.fcause := rfl
@[simp] theorem State.settle_fcp (s : State) (ws : List Rect) (t : State) : (s.settle ws t).fcp = t.fcp := rfl
@[simp] theorem State.settle_finfo (s : State) (ws : List Rect) (t : State) : (s.settle ws t).finfo = t.finfo := rfl
@[simp] theorem State.settle_mem (s : State) (ws : List Rect) (t : State) :
    (s.settle ws t).mem = Memory.settle ws s.mem t.mem s.raced t.fresh t.mem := rfl
@[simp] theorem State.settle_cfg (s : State) (ws : List Rect) (t : State) : (s.settle ws t).cfg = t.cfg := rfl
@[simp] theorem State.settle_fresh (s : State) (ws : List Rect) (t : State) : (s.settle ws t).fresh = t.fresh + s.raced.length := rfl
@[simp] theorem State.settle_moves (s : State) (ws : List Rect) (t : State) : (s.settle ws t).moves = t.moves := rfl
@[simp] theorem State.settle_reply (s : State) (ws : List Rect) (t : State) : (s.settle ws t).reply = t.reply := rfl
@[simp] theorem State.settle_written (s : State) (ws : List Rect) (t : State) : (s.settle ws t).written = ws ++ t.written := rfl
@[simp] theorem State.settle_raced (s : State) (ws : List Rect) (t : State) :
    (s.settle ws t).raced = (newRaces ws s.mem t.mem s.raced).foldr note s.raced := rfl

/-! ## the host's write during a run (20_memory.md R67) -/

@[simp] theorem State.racingWrite_g (s : State) (a : Nat) (v : Byte) : (s.racingWrite a v).g = s.g := rfl
@[simp] theorem State.racingWrite_q (s : State) (a : Nat) (v : Byte) : (s.racingWrite a v).q = s.q := rfl
@[simp] theorem State.racingWrite_cp (s : State) (a : Nat) (v : Byte) : (s.racingWrite a v).cp = s.cp := rfl
@[simp] theorem State.racingWrite_st (s : State) (a : Nat) (v : Byte) : (s.racingWrite a v).st = s.st := rfl
@[simp] theorem State.racingWrite_inited (s : State) (a : Nat) (v : Byte) : (s.racingWrite a v).inited = s.inited := rfl
@[simp] theorem State.racingWrite_cap (s : State) (a : Nat) (v : Byte) : (s.racingWrite a v).cap = s.cap := rfl
@[simp] theorem State.racingWrite_fcause (s : State) (a : Nat) (v : Byte) : (s.racingWrite a v).fcause = s.fcause := rfl
@[simp] theorem State.racingWrite_fcp (s : State) (a : Nat) (v : Byte) : (s.racingWrite a v).fcp = s.fcp := rfl
@[simp] theorem State.racingWrite_finfo (s : State) (a : Nat) (v : Byte) : (s.racingWrite a v).finfo = s.finfo := rfl
@[simp] theorem State.racingWrite_mem (s : State) (a : Nat) (v : Byte) : (s.racingWrite a v).mem =
    if covers s.written a && Config.freeBit s.fresh then s.mem else s.mem.write a v := rfl
@[simp] theorem State.racingWrite_cfg (s : State) (a : Nat) (v : Byte) : (s.racingWrite a v).cfg = s.cfg := rfl
@[simp] theorem State.racingWrite_fresh (s : State) (a : Nat) (v : Byte) : (s.racingWrite a v).fresh =
    if covers s.written a then s.fresh + 1 else s.fresh := rfl
@[simp] theorem State.racingWrite_moves (s : State) (a : Nat) (v : Byte) : (s.racingWrite a v).moves = s.moves := rfl
@[simp] theorem State.racingWrite_reply (s : State) (a : Nat) (v : Byte) : (s.racingWrite a v).reply = s.reply := rfl
@[simp] theorem State.racingWrite_written (s : State) (a : Nat) (v : Byte) : (s.racingWrite a v).written = s.written := rfl
@[simp] theorem State.racingWrite_raced (s : State) (a : Nat) (v : Byte) : (s.racingWrite a v).raced =
    note (a, s.mem.read a) (note (a, v) s.raced) := rfl

end Sys2Proof.Machine
end

