-- ==== Sys2Proof/Laws/Memory.lean ====
section
/-! SUPPORT. Laws of memory: the canonical form is kept, a read after a write to the same place gives what was written,
a write leaves every other place alone (20_memory.md R59). -/

namespace Sys2Proof.Machine

/-- The address of every listed byte is above a bound. -/
theorem Memory.above_of_wf_cons {c : Host.Cell} {m : Memory} (h : Memory.wf (c :: m)) : ∀ d ∈ m, c.1 < d.1 :=
  (List.pairwise_cons.1 h.1).1

theorem Memory.wf_tail {c : Host.Cell} {m : Memory} (h : Memory.wf (c :: m)) : Memory.wf m :=
  ⟨(List.pairwise_cons.1 h.1).2, fun d hd => h.2 d (List.mem_cons_of_mem _ hd)⟩

theorem Memory.wf_nil : Memory.wf [] := ⟨List.Pairwise.nil, by simp⟩

/-- Memory after reset has the canonical form. -/
theorem State.reset_mem_wf : State.reset.mem.wf := Memory.wf_nil

theorem Memory.wf_cons {c : Host.Cell} {m : Memory} (hm : Memory.wf m) (ha : ∀ d ∈ m, c.1 < d.1)
    (hv : c.2 ≠ unlisted) : Memory.wf (c :: m) :=
  ⟨List.pairwise_cons.2 ⟨ha, hm.1⟩, fun d hd => by
    rcases List.mem_cons.1 hd with rfl | h
    · exact hv
    · exact hm.2 d h⟩

/-- A listed byte after a write is the one written or one that was listed. -/
theorem Memory.mem_write {m : Memory} {a : Nat} {v : Byte} {c : Host.Cell} (h : c ∈ m.write a v) :
    c = (a, v) ∨ c ∈ m := by
  induction m with
  | nil =>
    simp only [Memory.write] at h
    split at h <;> simp_all
  | cons d m ih =>
    obtain ⟨b, u⟩ := d
    simp only [Memory.write] at h
    split at h
    · split at h <;> simp_all
    · split at h
      · split at h
        · exact .inr (List.mem_cons_of_mem _ h)
        · rcases List.mem_cons.1 h with h | h
          · exact .inl h
          · exact .inr (List.mem_cons_of_mem _ h)
      · rcases List.mem_cons.1 h with h | h
        · exact .inr (h ▸ List.mem_cons_self)
        · exact (ih h).imp id (List.mem_cons_of_mem _)

theorem Memory.write_wf {m : Memory} (hm : m.wf) (a : Nat) (v : Byte) : (m.write a v).wf := by
  induction m with
  | nil =>
    simp only [Memory.write]
    split
    · exact Memory.wf_nil
    · exact Memory.wf_cons Memory.wf_nil (by simp) ‹_›
  | cons d m ih =>
    obtain ⟨b, u⟩ := d
    have above := Memory.above_of_wf_cons hm
    have tail := Memory.wf_tail hm
    simp only [Memory.write]
    split
    · rename_i hab
      split
      · exact hm
      · refine Memory.wf_cons hm ?_ ‹_›
        intro d hd
        rcases List.mem_cons.1 hd with rfl | hd
        · exact hab
        · exact Nat.lt_trans hab (above d hd)
    · split
      · rename_i hab
        subst hab
        split
        · exact tail
        · exact Memory.wf_cons tail above ‹_›
      · refine Memory.wf_cons (ih tail) ?_ (hm.2 _ List.mem_cons_self)
        intro d hd
        rcases Memory.mem_write hd with rfl | hd
        · show b < a; omega
        · exact above d hd

theorem Memory.storeAll_wf {m : Memory} (hm : m.wf) (stores : List (Nat × Byte)) : (m.storeAll stores).wf := by
  induction stores generalizing m with
  | nil => exact hm
  | cons c cs ih => exact ih (Memory.write_wf hm c.1 c.2)

/-- Addresses of listed bytes stay below a bound that covers the stores. -/
theorem Memory.storeAll_inside {m : Memory} {n : Nat} (hm : ∀ c ∈ m, c.1 < n) {stores : List (Nat × Byte)}
    (hs : ∀ c ∈ stores, c.1 < n) : ∀ c ∈ m.storeAll stores, c.1 < n := by
  induction stores generalizing m with
  | nil => exact hm
  | cons d ds ih =>
    refine ih (fun c hc => ?_) fun c hc => hs c (List.mem_cons_of_mem _ hc)
    rcases Memory.mem_write hc with rfl | hc
    · exact hs d List.mem_cons_self
    · exact hm c hc

/-- An address below every listed one reads as an unlisted address does. -/
theorem Memory.read_of_below {m : Memory} {a : Nat} (h : ∀ d ∈ m, a < d.1) : m.read a = unlisted := by
  induction m with
  | nil => rfl
  | cons d m ih =>
    obtain ⟨b, u⟩ := d
    have hb : a < b := h _ List.mem_cons_self
    simp only [Memory.read, if_neg (Nat.ne_of_lt hb)]
    exact ih fun d hd => h d (List.mem_cons_of_mem _ hd)

theorem Memory.read_write_same {m : Memory} (hm : m.wf) (a : Nat) (v : Byte) : (m.write a v).read a = v := by
  induction m with
  | nil =>
    simp only [Memory.write]
    split <;> simp_all [Memory.read]
  | cons d m ih =>
    obtain ⟨b, u⟩ := d
    have above := Memory.above_of_wf_cons hm
    simp only [Memory.write]
    split
    · rename_i hab
      split
      · rename_i hv
        rw [hv]
        refine Memory.read_of_below fun d hd => ?_
        rcases List.mem_cons.1 hd with rfl | hd
        · exact hab
        · exact Nat.lt_trans hab (above d hd)
      · simp [Memory.read]
    · split
      · rename_i hab
        subst hab
        split
        · rename_i hv
          rw [hv]
          exact Memory.read_of_below above
        · simp [Memory.read]
      · rename_i hab
        simp only [Memory.read, if_neg hab]
        exact ih (Memory.wf_tail hm)

theorem Memory.read_write_other {m : Memory} {a b : Nat} (h : b ≠ a) (v : Byte) :
    (m.write a v).read b = m.read b := by
  induction m with
  | nil =>
    simp only [Memory.write]
    split <;> simp [Memory.read, h]
  | cons d m ih =>
    obtain ⟨c, u⟩ := d
    simp only [Memory.write]
    split
    · split <;> simp [Memory.read, h]
    · split
      · rename_i hac
        subst hac
        split <;> simp [Memory.read, h]
      · simp only [Memory.read, ih]

@[simp] theorem Memory.storeAll_nil (m : Memory) : m.storeAll [] = m := rfl

@[simp] theorem Memory.storeAll_cons (m : Memory) (c : Nat × Byte) (cs : List (Nat × Byte)) :
    m.storeAll (c :: cs) = (m.write c.1 c.2).storeAll cs := rfl

/-- Bytes outside the stores read as before. -/
theorem Memory.read_storeAll_other {m : Memory} {a : Nat} {stores : List (Nat × Byte)}
    (h : ∀ c ∈ stores, c.1 ≠ a) : (m.storeAll stores).read a = m.read a := by
  induction stores generalizing m with
  | nil => rfl
  | cons c cs ih =>
    rw [Memory.storeAll_cons, ih fun d hd => h d (List.mem_cons_of_mem _ hd)]
    exact Memory.read_write_other (Ne.symm (h c List.mem_cons_self)) _

/-- A byte stored to once reads as what was stored. -/
theorem Memory.read_storeAll_same {m : Memory} (hm : m.wf) {stores : List (Nat × Byte)}
    (hd : stores.Pairwise fun c d => c.1 ≠ d.1) {c : Nat × Byte} (hc : c ∈ stores) :
    (m.storeAll stores).read c.1 = c.2 := by
  induction stores generalizing m with
  | nil => simp at hc
  | cons d ds ih =>
    have hp := List.pairwise_cons.1 hd
    rw [Memory.storeAll_cons]
    rcases List.mem_cons.1 hc with rfl | hc
    · rw [Memory.read_storeAll_other fun e he => (Ne.symm (hp.1 e he))]
      exact Memory.read_write_same hm _ _
    · exact ih (Memory.write_wf hm _ _) hp.2 hc

/-! ## Little-endian reads (20_memory.md R50) -/

theorem Memory.readLE_one (m : Memory) (a : Nat) : m.readLE a 1 = (m.read a).toNat := by
  simp [Memory.readLE]

theorem Memory.readLE_two (m : Memory) (a : Nat) :
    m.readLE a 2 = (m.read a).toNat + 256 * (m.read (a + 1)).toNat := by
  simp [Memory.readLE]

theorem Memory.readLE_four (m : Memory) (a : Nat) :
    m.readLE a 4 = (m.read a).toNat + 256 * ((m.read (a + 1)).toNat + 256 * ((m.read (a + 2)).toNat
      + 256 * (m.read (a + 3)).toNat)) := by
  simp [Memory.readLE]

theorem Memory.readLE_lt (m : Memory) (a n : Nat) : m.readLE a n < 256 ^ n := by
  induction n generalizing a with
  | zero => simp [Memory.readLE]
  | succ n ih =>
    have h1 := (m.read a).isLt
    have h2 := ih (a + 1)
    simp only [Memory.readLE, Nat.pow_succ]
    omega

/-- The read depends on the bytes read only. -/
theorem Memory.readLE_congr {m m' : Memory} {a n : Nat} (h : ∀ k < n, m.read (a + k) = m'.read (a + k)) :
    m.readLE a n = m'.readLE a n := by
  induction n generalizing a with
  | zero => rfl
  | succ n ih =>
    have h0 := h 0 (Nat.succ_pos n)
    simp only [Memory.readLE]
    rw [Nat.add_zero] at h0
    rw [h0, ih fun k hk => ?_]
    have := h (k + 1) (by omega)
    rwa [show a + 1 + k = a + (k + 1) by omega]

end Sys2Proof.Machine
end

