-- ==== Sys2Proof/Laws/Lists.lean ====
section
/-! SUPPORT. Laws of sums, of raster order, of runs of addresses and of the bytes of numbers. -/

namespace Sys2Proof.Machine

/-! ## Sums -/

theorem sumTo_eq_sum (n : Nat) (f : Nat → Int) : sumTo n f = ∑ i ∈ Finset.range n, f i := by
  induction n with
  | zero => rfl
  | succ n ih => rw [Finset.sum_range_succ, ← ih]; rfl

theorem sumBlock_eq_sum (w h : Nat) (f : Nat → Nat → Int) :
    sumBlock w h f = ∑ y ∈ Finset.range h, ∑ x ∈ Finset.range w, f x y := by
  simp only [sumBlock, sumTo_eq_sum]

theorem iabs_eq_abs (a : Int) : iabs a = |a| := Int.natCast_natAbs a

theorem clip8_bounds (a : Int) : 0 ≤ clip8 a ∧ clip8 a ≤ 255 := by simp only [clip8]; omega

theorem isign_eq_sign (a : Int) : isign a = a.sign := by
  unfold isign
  split
  · rw [Int.sign_eq_neg_one_of_neg ‹_›]
  · split
    · simp_all
    · rw [Int.sign_eq_one_of_pos (by omega)]

/-- The shift is Lean's own arithmetic right shift (00_scope.md R11). -/
theorem asr_eq_shiftRight (a : Int) (n : Nat) : asr a n = a >>> n := (Int.shiftRight_eq_div_pow a n).symm

/-! ## Raster order -/

/-- The positions of a block in raster order. -/
abbrev positions (w h : Nat) : List (Nat × Nat) := raster w h Prod.mk

theorem raster_eq_map {α : Type} (w h : Nat) (f : Nat → Nat → α) :
    raster w h f = (positions w h).map fun c => f c.1 c.2 := by
  simp [raster, List.map_flatMap, Function.comp_def]

theorem mem_positions {w h : Nat} {c : Nat × Nat} : c ∈ positions w h ↔ c.1 < w ∧ c.2 < h := by
  simp only [raster, List.mem_flatMap, List.mem_range, List.mem_map]
  constructor
  · rintro ⟨y, hy, x, hx, rfl⟩
    exact ⟨hx, hy⟩
  · rintro ⟨hx, hy⟩
    exact ⟨c.2, hy, c.1, hx, rfl⟩

theorem positions_nodup (w h : Nat) : (positions w h).Nodup := by
  refine List.nodup_flatMap.2 ⟨fun y _ => ?_, ?_⟩
  · exact List.Nodup.map (fun a b hab => (Prod.mk.inj hab).1) List.nodup_range
  · refine List.Pairwise.imp ?_ (List.pairwise_lt_range (n := h))
    intro y z hyz c hc hd
    obtain ⟨_, -, rfl⟩ := List.mem_map.1 hc
    obtain ⟨_, -, he⟩ := List.mem_map.1 hd
    have := (Prod.mk.inj he).2
    omega

theorem mem_raster {α : Type} {w h : Nat} {f : Nat → Nat → α} {v : α} :
    v ∈ raster w h f ↔ ∃ x y, x < w ∧ y < h ∧ f x y = v := by
  rw [raster_eq_map, List.mem_map]
  constructor
  · rintro ⟨c, hc, rfl⟩
    exact ⟨c.1, c.2, (mem_positions.1 hc).1, (mem_positions.1 hc).2, rfl⟩
  · rintro ⟨x, y, hx, hy, rfl⟩
    exact ⟨(x, y), mem_positions.2 ⟨hx, hy⟩, rfl⟩

theorem raster_length {α : Type} (w h : Nat) (f : Nat → Nat → α) : (raster w h f).length = w * h := by
  simp [raster, List.length_flatMap, Nat.mul_comm]

/-- Element `w*y + x` of a block in raster order (00_scope.md R18). -/
theorem raster_getElem? {α : Type} {w h : Nat} (f : Nat → Nat → α) {x y : Nat} (hx : x < w) (hy : y < h) :
    (raster w h f)[w * y + x]? = some (f x y) := by
  induction h generalizing y f with
  | zero => omega
  | succ h ih =>
    have e : raster w (h + 1) f = (List.range w).map (fun x => f x 0) ++ raster w h fun x y => f x (y + 1) := by
      simp [raster, List.range_succ_eq_map, List.flatMap_map, List.flatMap_cons]
    rw [e]
    cases y with
    | zero =>
      rw [List.getElem?_append_left (by simpa using hx)]
      simp [hx]
    | succ y =>
      rw [List.getElem?_append_right (by simp [Nat.mul_succ]; omega)]
      have := ih (fun x y => f x (y + 1)) (y := y) (by omega)
      rw [← this]
      congr 1
      simp [Nat.mul_succ]
      omega

/-! ## Runs of addresses -/

@[simp] theorem addresses_nil : addresses [] = [] := rfl

@[simp] theorem addresses_cons (r : Run) (rs : List Run) : addresses (r :: rs) = r.addrs ++ addresses rs := rfl

theorem addresses_append (rs qs : List Run) : addresses (rs ++ qs) = addresses rs ++ addresses qs := by
  simp [addresses]

theorem addresses_flatMap {α : Type} (l : List α) (f : α → List Run) :
    addresses (l.flatMap f) = l.flatMap fun a => addresses (f a) := by
  simp [addresses, List.flatMap_assoc]

theorem Run.mem_addrs {r : Run} {a : Int} : a ∈ r.addrs ↔ r.start ≤ a ∧ a < r.start + r.len := by
  simp only [Run.addrs, List.mem_map, List.mem_range]
  constructor
  · rintro ⟨j, hj, rfl⟩
    omega
  · rintro ⟨h1, h2⟩
    exact ⟨(a - r.start).toNat, by omega, by omega⟩

theorem mem_addresses {rs : List Run} {a : Int} :
    a ∈ addresses rs ↔ ∃ r ∈ rs, r.start ≤ a ∧ a < r.start + r.len := by
  simp only [addresses, List.mem_flatMap, Run.mem_addrs]

theorem addresses_rows (b : Block) (x0 y0 : Int) (w h : Nat) :
    addresses (b.rows x0 y0 w h) = raster w h fun x y => b.at (x0 + x) (y0 + y) := by
  simp only [addresses, Block.rows, List.flatMap_map, raster, Run.addrs]
  congr 1
  funext y
  refine List.map_congr_left fun x _ => ?_
  simp only [Block.at]
  omega

theorem mem_addresses_rows {b : Block} {x0 y0 : Int} {w h : Nat} {a : Int} :
    a ∈ addresses (b.rows x0 y0 w h) ↔ ∃ x y : Nat, x < w ∧ y < h ∧ b.at (x0 + x) (y0 + y) = a := by
  rw [addresses_rows, mem_raster]

/-- `lowestBad` finds none exactly when every address of the set is in memory (20_memory.md R60). -/
theorem lowestBad_eq_none {n : Nat} {rs : List Run} :
    lowestBad n rs = none ↔ ∀ a ∈ addresses rs, 0 ≤ a ∧ a < (n : Int) := by
  induction rs with
  | nil => simp [lowestBad]
  | cons r rs ih =>
    have hr : r.lowestBad n = none ↔ ∀ a ∈ r.addrs, 0 ≤ a ∧ a < (n : Int) := by
      simp only [Run.mem_addrs]
      unfold Run.lowestBad
      constructor
      · intro h a ha
        split at h
        · omega
        · split at h
          · simp at h
          · split at h
            · omega
            · simp at h
      · intro h
        split
        · rfl
        · have h1 := h r.start (by omega)
          have h2 := h (r.start + r.len - 1) (by omega)
          rw [if_neg (by omega), if_pos (by omega)]
    have ha : ∀ P : Int → Prop, (∀ a ∈ addresses (r :: rs), P a) ↔
        (∀ a ∈ r.addrs, P a) ∧ ∀ a ∈ addresses rs, P a := by
      intro P
      simp only [addresses_cons, List.mem_append]
      exact ⟨fun h => ⟨fun a q => h a (.inl q), fun a q => h a (.inr q)⟩, fun h a q => q.elim (h.1 a) (h.2 a)⟩
    rw [ha, ← hr, ← ih]
    simp only [lowestBad]
    split <;> simp_all

/-- What `lowestBad` finds is the least address of the set outside memory (20_memory.md R60). -/
theorem lowestBad_spec {n : Nat} {rs : List Run} {a : Int} (h : lowestBad n rs = some a) :
    a ∈ addresses rs ∧ ¬(0 ≤ a ∧ a < (n : Int)) ∧
      ∀ b ∈ addresses rs, ¬(0 ≤ b ∧ b < (n : Int)) → a ≤ b := by
  induction rs generalizing a with
  | nil => simp [lowestBad] at h
  | cons r rs ih =>
    have hr : ∀ a, r.lowestBad n = some a → a ∈ r.addrs ∧ ¬(0 ≤ a ∧ a < (n : Int)) ∧
        ∀ b ∈ r.addrs, ¬(0 ≤ b ∧ b < (n : Int)) → a ≤ b := by
      intro a ha
      simp only [Run.mem_addrs]
      unfold Run.lowestBad at ha
      split at ha
      · simp at ha
      · split at ha
        · obtain rfl := Option.some.inj ha
          refine ⟨by omega, by omega, fun b hb _ => hb.1⟩
        · split at ha
          · simp at ha
          · obtain rfl := Option.some.inj ha
            refine ⟨by omega, by omega, fun b hb hn => by omega⟩
    have hn : r.lowestBad n = none → ∀ b ∈ r.addrs, 0 ≤ b ∧ b < (n : Int) := by
      intro h1
      have : lowestBad n [r] = none := by simp [lowestBad, h1]
      simpa using lowestBad_eq_none.1 this
    simp only [addresses_cons, List.mem_append]
    simp only [lowestBad] at h
    split at h
    · rename_i c d hc hd
      obtain rfl := Option.some.inj h
      obtain ⟨c1, c2, c3⟩ := hr c hc
      obtain ⟨d1, d2, d3⟩ := ih hd
      refine ⟨?_, ?_, ?_⟩
      · rcases le_total c d with hcd | hcd
        · exact .inl (by rwa [min_eq_left hcd])
        · exact .inr (by rwa [min_eq_right hcd])
      · rcases le_total c d with hcd | hcd
        · rwa [min_eq_left hcd]
        · rwa [min_eq_right hcd]
      · rintro b (hb | hb) hbad
        · exact le_trans (min_le_left _ _) (c3 b hb hbad)
        · exact le_trans (min_le_right _ _) (d3 b hb hbad)
    · rename_i c hc hd
      obtain rfl := Option.some.inj h
      obtain ⟨c1, c2, c3⟩ := hr c hc
      refine ⟨.inl c1, c2, ?_⟩
      rintro b (hb | hb) hbad
      · exact c3 b hb hbad
      · exact absurd (lowestBad_eq_none.1 hd b hb) hbad
    · rename_i hc
      obtain ⟨d1, d2, d3⟩ := ih h
      refine ⟨.inr d1, d2, ?_⟩
      rintro b (hb | hb) hbad
      · exact absurd (hn hc b hb) hbad
      · exact d3 b hb hbad

/-! ## Bytes of numbers -/

theorem leBytes_length (n : Nat) (v : Int) : (leBytes n v).length = n := by simp [leBytes]

theorem coefBytes_length (vs : List Int) : (coefBytes vs).length = 2 * vs.length := by
  induction vs with
  | nil => rfl
  | cons v vs ih => simp [coefBytes, leBytes_length] at ih ⊢; omega

theorem coefBytes_cons (v : Int) (vs : List Int) : coefBytes (v :: vs) = leBytes 2 v ++ coefBytes vs := rfl

/-- Bytes `2i` and `2i+1` of a coefficient array are those of element `i` (20_memory.md R50). -/
theorem coefBytes_getElem? {vs : List Int} {i : Nat} {v : Int} (h : vs[i]? = some v) :
    (coefBytes vs)[2 * i]? = some (BitVec.ofInt 8 v) ∧
      (coefBytes vs)[2 * i + 1]? = some (BitVec.ofInt 8 (asr v 8)) := by
  induction vs generalizing i with
  | nil => simp at h
  | cons u us ih =>
    have e : coefBytes (u :: us) = BitVec.ofInt 8 u :: BitVec.ofInt 8 (asr u 8) :: coefBytes us := by
      simp [coefBytes_cons, leBytes, asr, List.range_succ_eq_map]
    rw [e]
    cases i with
    | zero => simp at h; simp [h]
    | succ i =>
      have := ih (i := i) (by simpa using h)
      rw [show 2 * (i + 1) = 2 * i + 1 + 1 by omega]
      simpa using this

/-- Two bytes little-endian are the number modulo 2^16. -/
theorem twoBytes_value (v : Int) :
    (((BitVec.ofInt 8 v).toNat : Int) + 256 * ((BitVec.ofInt 8 (asr v 8)).toNat : Int)) = v % 65536 := by
  simp only [asr, BitVec.toNat_ofInt]
  omega

theorem pixelByte_value {v : Int} (h : 0 ≤ v ∧ v ≤ 255) : ((pixelByte v).toNat : Int) = v := by
  simp only [pixelByte, BitVec.toNat_ofInt]
  omega

end Sys2Proof.Machine
end

