-- ==== Sys2Proof/Laws/Operations.lean ====
section
/-! SUPPORT. What each shared operation can do, once: the checks, the two ends of a command, the write phase over a pixel
block and over an array. -/

namespace Sys2Proof.Machine

/-! ## Checks (60_exceptions.md R333) -/

@[simp] theorem firstFailure_nil (s : State) : firstFailure [] s = none := rfl

theorem firstFailure_cons_none {c : Check} {cs : List Check} {s : State} (h : c s = none) :
    firstFailure (c :: cs) s = firstFailure cs s := by simp [firstFailure, h]

theorem firstFailure_cons_some {c : Check} {cs : List Check} {s : State} {v : Violation} (h : c s = some v) :
    firstFailure (c :: cs) s = some v := by simp [firstFailure, h]

theorem firstFailure_eq_none {cs : List Check} {s : State} : firstFailure cs s = none ↔ ∀ c ∈ cs, c s = none := by
  induction cs with
  | nil => simp
  | cons c cs ih =>
    simp only [firstFailure, List.forall_mem_cons]
    split <;> simp_all

/-- What is raised is what the first failing check finds. -/
theorem firstFailure_eq_some {cs : List Check} {s : State} {v : Violation} (h : firstFailure cs s = some v) :
    ∃ c ∈ cs, c s = some v := by
  induction cs with
  | nil => simp at h
  | cons c cs ih =>
    simp only [firstFailure] at h
    split at h
    · exact ⟨c, List.mem_cons_self, by simp_all⟩
    · obtain ⟨d, hd, e⟩ := ih h
      exact ⟨d, List.mem_cons_of_mem _ hd, e⟩

theorem firstFailure_append {cs ds : List Check} {s : State} (h : ∀ c ∈ cs, c s = none) :
    firstFailure (cs ++ ds) s = firstFailure ds s := by
  induction cs with
  | nil => rfl
  | cons c cs ih =>
    rw [List.cons_append, firstFailure_cons_none (h c List.mem_cons_self)]
    exact ih fun d hd => h d (List.mem_cons_of_mem _ hd)

theorem notInitialized_eq_none {i : Instr} {s : State} : notInitialized i s = none ↔ s.inited = true := by
  unfold notInitialized; split <;> simp_all

theorem sizeCheck_eq_none {set : SizeSet} {wc hc : SizeCode} {s : State} :
    sizeCheck set wc hc s = none ↔ set.has wc hc = true := by
  unfold sizeCheck; split <;> simp_all

theorem paramCheck_eq_none {r : Fin 16} {ok : State → Bool} {s : State} :
    paramCheck r ok s = none ↔ ok s = true := by
  unfold paramCheck; split <;> simp_all

theorem nullCheck_eq_none {rs : List (Fin 16)} {s : State} : nullCheck rs s = none ↔ ∀ r ∈ rs, s.g[r] ≠ 0 := by
  induction rs with
  | nil => simp [nullCheck]
  | cons r rs ih =>
    simp only [nullCheck, List.forall_mem_cons]
    split <;> simp_all

theorem strideCheck_eq_none {w : Int} {rs : List (Fin 16)} {s : State} :
    strideCheck w rs s = none ↔ ∀ r ∈ rs, w ≤ s.sval r := by
  induction rs with
  | nil => simp [strideCheck]
  | cons r rs ih =>
    simp only [strideCheck, List.forall_mem_cons]
    split
    · simp; omega
    · rw [ih]; exact ⟨fun h => ⟨by omega, h⟩, And.right⟩

theorem alignCheck_eq_none {rs : List (Fin 16 × Nat)} {s : State} :
    alignCheck rs s = none ↔ ∀ c ∈ rs, s.uval c.1 % c.2 = 0 := by
  induction rs with
  | nil => simp [alignCheck]
  | cons c rs ih =>
    obtain ⟨r, n⟩ := c
    simp only [alignCheck, List.forall_mem_cons]
    split <;> simp_all

theorem accessCheck_eq_none {foot : State → Footprint} {s : State} :
    accessCheck foot s = none ↔
      (∀ a ∈ addresses (foot s).reads, 0 ≤ a ∧ a < (s.cfg.memSize : Int)) ∧
        ∀ a ∈ addresses (foot s).writes, 0 ≤ a ∧ a < (s.cfg.memSize : Int) := by
  rw [← lowestBad_eq_none, ← lowestBad_eq_none]
  unfold accessCheck
  split
  · simp_all
  · split <;> simp_all

/-! ## The ends of a command (00_scope.md R17) -/

/-- A command raises what the first failing check finds, or all its checks pass and it completes. -/
theorem command_cases (checks : List Check) (foot : State → Footprint) (effect : State → Effect) (s : State) :
    (∃ v, firstFailure (checks ++ [accessCheck foot]) s = some v ∧
        command checks foot effect s = .next (s.raise v)) ∨
      ((∀ c ∈ checks, c s = none) ∧ accessCheck foot s = none ∧
        command checks foot effect s = .next (s.commit (foot s).writes (effect s)).advance) := by
  unfold command
  split
  · exact .inl ⟨_, ‹_›, rfl⟩
  · rename_i h
    rw [firstFailure_eq_none] at h
    exact .inr ⟨fun c hc => h c (List.mem_append_left _ hc), h _ (by simp), rfl⟩

theorem command_completes {checks : List Check} {foot : State → Footprint} {effect : State → Effect} {s : State}
    (hc : ∀ c ∈ checks, c s = none) (ha : accessCheck foot s = none) :
    command checks foot effect s = .next (s.commit (foot s).writes (effect s)).advance := by
  have h : firstFailure (checks ++ [accessCheck foot]) s = none :=
    firstFailure_eq_none.2 fun c hm => by
      rcases List.mem_append.1 hm with hm | hm
      · exact hc c hm
      · rwa [List.mem_singleton.1 hm]
  simp only [command, h]

theorem command_raises {checks : List Check} {foot : State → Footprint} {effect : State → Effect} {s : State}
    {v : Violation} (h : firstFailure (checks ++ [accessCheck foot]) s = some v) :
    command checks foot effect s = .next (s.raise v) := by simp only [command, h]

/-- An operation command raises or completes; when it completes the engine was initialized. -/
theorem operation_cases (i : Instr) (checks : List Check) (foot : State → Footprint) (effect : State → Effect)
    (s : State) :
    (∃ v, firstFailure (notInitialized i :: checks ++ [accessCheck foot]) s = some v ∧
        operation i checks foot effect s = .next (s.raise v)) ∨
      (s.inited = true ∧ (∀ c ∈ checks, c s = none) ∧ accessCheck foot s = none ∧
        operation i checks foot effect s = .next (s.commit (foot s).writes (effect s)).advance) := by
  rcases command_cases (notInitialized i :: checks) foot effect s with h | ⟨h, ha, he⟩
  · exact .inl h
  · exact .inr ⟨notInitialized_eq_none.1 (h _ List.mem_cons_self),
      fun c hc => h c (List.mem_cons_of_mem _ hc), ha, he⟩

theorem operation_completes {i : Instr} {checks : List Check} {foot : State → Footprint} {effect : State → Effect}
    {s : State} (hi : s.inited = true) (hc : ∀ c ∈ checks, c s = none) (ha : accessCheck foot s = none) :
    operation i checks foot effect s = .next (s.commit (foot s).writes (effect s)).advance := by
  refine command_completes (fun c hm => ?_) ha
  rcases List.mem_cons.1 hm with rfl | hm
  · exact notInitialized_eq_none.2 hi
  · exact hc c hm

theorem operation_not_initialized {i : Instr} {checks : List Check} {foot : State → Footprint}
    {effect : State → Effect} {s : State} (hi : s.inited = false) :
    operation i checks foot effect s = .next (s.raise ⟨.notInitialized, (encodeWords i).1⟩) := by
  refine command_raises (firstFailure_cons_some ?_)
  simp [notInitialized, hi]

/-! ## The write phase -/

@[simp] theorem setResults_nil (q : Vector Word 4) : setResults q [] = q := rfl

@[simp] theorem setResults_cons (q : Vector Word 4) (c : Fin 4 × Word) (cs : List (Fin 4 × Word)) :
    setResults q (c :: cs) = setResults (q.set c.1 c.2) cs := rfl

/-- A result register that is not written keeps its value. -/
theorem setResults_other {q : Vector Word 4} {vs : List (Fin 4 × Word)} {r : Fin 4} (h : ∀ c ∈ vs, c.1 ≠ r) :
    (setResults q vs)[r] = q[r] := by
  induction vs generalizing q with
  | nil => rfl
  | cons c cs ih =>
    rw [setResults_cons, ih fun d hd => h d (List.mem_cons_of_mem _ hd)]
    have h2 : (c.1 : Nat) ≠ r := fun e => h c List.mem_cons_self (Fin.ext e)
    simp [h2]

/-- A write phase without bytes is the writing of result registers. -/
theorem State.commit_results (s : State) (w : List Run) (vs : List (Fin 4 × Word)) :
    s.commit w { results := vs } = { s with q := setResults s.q vs } := by
  simp [State.commit]

/-- The stores to a list of positions of a block read back, and nothing else changes. -/
theorem read_positions {m : Memory} (hm : m.wf) {b : Block} {w : Nat} {ps : List (Nat × Nat)} (hp : ps.Nodup)
    (hw : ∀ c ∈ ps, c.1 < w) (hs : (w : Int) ≤ b.stride)
    (hin : ∀ c ∈ ps, 0 ≤ b.at c.1 c.2) (value : Nat → Nat → Byte) {stores : List (Nat × Byte)}
    (he : stores = ps.map fun c => ((b.at c.1 c.2).toNat, value c.1 c.2)) :
    (∀ c ∈ ps, (m.storeAll stores).read (b.at c.1 c.2).toNat = value c.1 c.2) ∧
      ∀ a : Nat, (∀ c ∈ ps, (a : Int) ≠ b.at c.1 c.2) → (m.storeAll stores).read a = m.read a := by
  subst he
  refine ⟨fun c hc => ?_, fun a ha => ?_⟩
  · refine Memory.read_storeAll_same hm (c := ((b.at c.1 c.2).toNat, value c.1 c.2)) ?_ (List.mem_map_of_mem hc)
    rw [List.pairwise_map]
    refine hp.imp_of_mem fun {d e} hd he hne heq => hne ?_
    have hd0 := hin d hd
    have he0 := hin e he
    have hdw := hw d hd
    have hew := hw e he
    have h : b.at d.1 d.2 = b.at e.1 e.2 := by
      simp only at heq
      omega
    simp only [Block.at] at h
    have hy : d.2 = e.2 := by
      rcases Nat.lt_trichotomy d.2 e.2 with hlt | heq | hgt
      · have : ((d.2 : Int) + 1) * b.stride ≤ e.2 * b.stride :=
          Int.mul_le_mul_of_nonneg_right (by omega) (by omega)
        rw [Int.add_mul] at this
        omega
      · exact heq
      · have : ((e.2 : Int) + 1) * b.stride ≤ d.2 * b.stride :=
          Int.mul_le_mul_of_nonneg_right (by omega) (by omega)
        rw [Int.add_mul] at this
        omega
    rw [hy] at h
    exact Prod.ext (by omega) hy
  · refine Memory.read_storeAll_other fun c hc => ?_
    obtain ⟨d, hd, rfl⟩ := List.mem_map.1 hc
    have := ha d hd
    have := hin d hd
    simp only
    omega

/-- The write phase over a `w×h` block: every sample of the block is the value given, every other byte is unchanged. -/
theorem State.commit_block {s : State} (hm : s.mem.wf) {b : Block} {w h : Nat} (hs : (w : Int) ≤ b.stride)
    (hin : ∀ a ∈ addresses (b.rows 0 0 w h), 0 ≤ a ∧ a < (s.cfg.memSize : Int)) (value : Nat → Nat → Byte)
    {e : Effect} (he : e.bytes = raster w h value) :
    (∀ x y : Nat, x < w → y < h → (s.commit (b.rows 0 0 w h) e).mem.read (b.at x y).toNat = value x y) ∧
      ∀ a : Nat, (∀ x y : Nat, x < w → y < h → (a : Int) ≠ b.at x y) →
        (s.commit (b.rows 0 0 w h) e).mem.read a = s.mem.read a := by
  have hin' : ∀ c ∈ positions w h, 0 ≤ b.at c.1 c.2 := fun c hc =>
    (hin _ (mem_addresses_rows.2 ⟨c.1, c.2, (mem_positions.1 hc).1, (mem_positions.1 hc).2, by simp⟩)).1
  have key := read_positions hm (positions_nodup w h) (fun c hc => (mem_positions.1 hc).1) hs hin' value
    (stores := ((addresses (b.rows 0 0 w h)).map Int.toNat).zip e.bytes) (by
      rw [he, addresses_rows, raster_eq_map, raster_eq_map w h value, List.map_map, List.zip_map']
      simp)
  refine ⟨fun x y hx hy => ?_, fun a ha => ?_⟩
  · exact key.1 (x, y) (mem_positions.2 ⟨hx, hy⟩)
  · exact key.2 a fun c hc => ha c.1 c.2 (mem_positions.1 hc).1 (mem_positions.1 hc).2

/-- The stores to consecutive addresses read back, and nothing else changes. -/
theorem read_run {m : Memory} (hm : m.wf) {r : Run} (hr : 0 ≤ r.start) {bytes : List Byte}
    (hl : bytes.length ≤ r.len) :
    (∀ (j : Nat) (v : Byte), bytes[j]? = some v →
        (m.storeAll ((r.addrs.map Int.toNat).zip bytes)).read (r.start.toNat + j) = v) ∧
      ∀ a : Nat, ((a : Int) < r.start ∨ r.start + bytes.length ≤ a) →
        (m.storeAll ((r.addrs.map Int.toNat).zip bytes)).read a = m.read a := by
  have hlen : ((r.addrs.map Int.toNat).zip bytes).length = bytes.length := by
    simp [Run.addrs, hl]
  have hget : ∀ j (hj : j < bytes.length),
      ((r.addrs.map Int.toNat).zip bytes)[j]'(hlen ▸ hj) = (r.start.toNat + j, bytes[j]) := by
    intro j hj
    simp [Run.addrs]
    omega
  refine ⟨fun j v hv => ?_, fun a ha => ?_⟩
  · obtain ⟨hj, rfl⟩ := List.getElem?_eq_some_iff.1 hv
    refine Memory.read_storeAll_same hm (c := (r.start.toNat + j, bytes[j])) ?_
      (List.mem_of_getElem (h := hlen ▸ hj) (hget j hj))
    rw [List.pairwise_iff_getElem]
    intro i k hi hk hik
    rw [hget i (hlen ▸ hi), hget k (hlen ▸ hk)]
    simp only
    omega
  · refine Memory.read_storeAll_other fun c hc => ?_
    obtain ⟨j, hj, rfl⟩ := List.getElem_of_mem hc
    rw [hget j (hlen ▸ hj)]
    rw [hlen] at hj
    simp only
    omega

/-- The write phase over an array of 2-byte elements: element `i` holds its value modulo 2^16, every byte outside the
elements is unchanged (00_scope.md R16). -/
theorem State.commit_array {s : State} (hm : s.mem.wf) {r : Run} (hr : 0 ≤ r.start) {vs : List Int}
    (hl : 2 * vs.length ≤ r.len) {e : Effect} (he : e.bytes = coefBytes vs) :
    (∀ (i : Nat) (v : Int), vs[i]? = some v →
        ((s.commit [r] e).mem.readLE (r.start.toNat + 2 * i) 2 : Int) = v % 65536) ∧
      ∀ a : Nat, ((a : Int) < r.start ∨ r.start + 2 * vs.length ≤ a) →
        (s.commit [r] e).mem.read a = s.mem.read a := by
  have hb : (coefBytes vs).length = 2 * vs.length := coefBytes_length vs
  have key := read_run hm hr (bytes := coefBytes vs) (by omega)
  have hc : (s.commit [r] e).mem = s.mem.storeAll ((r.addrs.map Int.toNat).zip (coefBytes vs)) := by
    simp [he]
  rw [hc]
  refine ⟨fun i v hv => ?_, fun a ha => key.2 a (by omega)⟩
  obtain ⟨h0, h1⟩ := coefBytes_getElem? hv
  rw [Memory.readLE_two, key.1 _ _ h0, Nat.add_assoc, key.1 _ _ h1]
  have := twoBytes_value v
  push_cast
  exact this

/-- Every write phase keeps the memory's canonical form and its bound, when the write set is in memory. -/
theorem State.commit_wf {s : State} (hm : s.mem.wf) (w : List Run) (e : Effect) : (s.commit w e).mem.wf :=
  Memory.storeAll_wf hm _

theorem State.commit_inside {s : State} (hm : s.memInside) {w : List Run}
    (hw : ∀ a ∈ addresses w, 0 ≤ a ∧ a < (s.cfg.memSize : Int)) (e : Effect) : (s.commit w e).memInside := by
  refine Memory.storeAll_inside hm fun c hc => ?_
  have h := (List.of_mem_zip hc).1
  obtain ⟨a, ha, hca⟩ := List.mem_map.1 h
  have := hw a ha
  show c.1 < s.cfg.memSize
  omega

end Sys2Proof.Machine
end

