-- ==== Sys2Proof/Laws/Claims.lean ====
section
/-! SUPPORT. From the words claims are stated in (Safety.lean) to the operations of the machine: numbers in memory, sets of
addresses, checks, and the completion of every shape of command. -/

namespace Sys2Proof.Machine

/-! ## Numbers in memory -/

theorem byteAt_bounds (m : Memory) (a : Int) : 0 ≤ byteAt m a ∧ byteAt m a ≤ 255 := by
  have := (m.read a.toNat).isLt
  simp only [byteAt]
  omega

theorem u16At_bounds (m : Memory) (a : Int) : 0 ≤ u16At m a ∧ u16At m a ≤ 65535 := by
  have h0 := byteAt_bounds m a
  have h1 := byteAt_bounds m (a + 1)
  simp only [u16At]
  omega

theorem s16At_bounds (m : Memory) (a : Int) : -32768 ≤ s16At m a ∧ s16At m a ≤ 32767 := by
  have := u16At_bounds m a
  simp only [s16At]
  split <;> omega

theorem load_one (s : State) (a : Int) : (s.load a 1 : Int) = byteAt s.mem a := by
  simp [State.load, Memory.readLE_one, byteAt]

theorem load_two (s : State) {a : Int} (h : 0 ≤ a) : (s.load a 2 : Int) = u16At s.mem a := by
  have e : (a + 1).toNat = a.toNat + 1 := by omega
  simp [State.load, Memory.readLE_two, u16At, byteAt, e]

theorem load_four (s : State) {a : Int} (h : 0 ≤ a) : (s.load a 4 : Int) = u32At s.mem a := by
  have e1 : (a + 1).toNat = a.toNat + 1 := by omega
  have e2 : (a + 2).toNat = a.toNat + 2 := by omega
  have e3 : (a + 2 + 1).toNat = a.toNat + 3 := by omega
  simp only [State.load, Memory.readLE_four, u32At, u16At, byteAt, e1, e2, e3]
  push_cast
  ring

theorem pix_eq (s : State) (b : Block) (x y : Int) : s.pix b x y = byteAt s.mem (b.at x y) := load_one s _

theorem pix_bounds (s : State) (b : Block) (x y : Int) : 0 ≤ s.pix b x y ∧ s.pix b x y ≤ 255 := by
  rw [pix_eq]; exact byteAt_bounds _ _

/-- A sample of the block two registers hold is the claims' sample. -/
theorem pix_block (s : State) (r t : Fin 16) (x y : Int) : s.pix (s.block r t) x y = s.sample r t x y := pix_eq s _ x y

theorem coef_eq (s : State) {base : Int} (h : 0 ≤ base) (i : Nat) : s.coef base i = s16At s.mem (base + 2 * i) := by
  have e := load_two s (a := base + 2 * i) (by omega)
  have b := u16At_bounds s.mem (base + 2 * i)
  simp only [State.coef, sext, s16At, ← e]
  split <;> split <;> omega

theorem s32_eq (s : State) {base : Int} (h : 0 ≤ base) (i : Nat) : s.s32 base i = s32At s.mem (base + 4 * i) := by
  have e := load_four s (a := base + 4 * i) (by omega)
  simp only [State.s32, sext, s32At, ← e]
  split <;> split <;> omega

theorem u32_eq (s : State) {base : Int} (h : 0 ≤ base) (i : Nat) : s.u32 base i = u32At s.mem (base + 4 * i) :=
  load_four s (by omega)

theorem u16_eq (s : State) {base i : Int} (h : 0 ≤ base + 2 * i) : s.u16 base i = u16At s.mem (base + 2 * i) :=
  load_two s h

theorem addr_nonneg (s : State) (r : Fin 16) : 0 ≤ s.addr r := Int.natCast_nonneg _

/-- An `s16` element read back from its number modulo 2^16. -/
theorem s16At_of_mod {m : Memory} {a v : Int} (ha : 0 ≤ a) (h : (m.readLE a.toNat 2 : Int) = v % 65536)
    (hv : -32768 ≤ v ∧ v ≤ 32767) : s16At m a = v := by
  have e : (a + 1).toNat = a.toNat + 1 := by omega
  have hu : u16At m a = v % 65536 := by
    rw [← h, Memory.readLE_two]
    simp [u16At, byteAt, e]
  simp only [s16At, hu]
  split <;> omega

/-! ## Sets of addresses -/

theorem has_stretch {a : Int} {n : Nat} {b : Int} : (stretch a n).Has b ↔ a ≤ b ∧ b < a + n := by
  simp only [Rect.Has, stretch, Rect.addr]
  constructor
  · rintro ⟨x, hx, y, hy, rfl⟩
    omega
  · rintro ⟨h1, h2⟩
    exact ⟨(b - a).toNat, by omega, 0, by omega, by omega⟩

/-- A run is a stretch. -/
theorem mem_run {a : Int} {n : Nat} {b : Int} : b ∈ addresses [⟨a, n⟩] ↔ (stretch a n).Has b := by
  rw [has_stretch, mem_addresses]
  simp

/-- The rows of a block are a rectangle. -/
theorem mem_rows {b : Block} {x0 y0 : Int} {w h : Nat} {a : Int} :
    a ∈ addresses (b.rows x0 y0 w h) ↔ (Rect.mk b.base b.stride x0 y0 w h).Has a := by
  rw [mem_addresses_rows]
  simp only [Rect.Has, Rect.addr, Block.at]
  constructor
  · rintro ⟨x, y, hx, hy, rfl⟩
    exact ⟨x, hx, y, hy, rfl⟩
  · rintro ⟨x, hx, y, hy, rfl⟩
    exact ⟨x, y, hx, hy, rfl⟩

theorem mem_rows_block {s : State} {r t : Fin 16} {x0 y0 : Int} {w h : Nat} {a : Int} :
    a ∈ addresses ((s.block r t).rows x0 y0 w h) ↔ (s.area r t x0 y0 w h).Has a := mem_rows

theorem reaches_cons {r : Rect} {rs : List Rect} {a : Int} : Reaches (r :: rs) a ↔ r.Has a ∨ Reaches rs a := by
  simp [Reaches]

@[simp] theorem reaches_nil {a : Int} : ¬Reaches [] a := by simp [Reaches]

/-- All of a set in memory, by its addresses. -/
theorem allInMemory_iff {s : State} {rs : List Rect} : s.allInMemory rs ↔ ∀ a, Reaches rs a → s.inMemory a := by
  constructor
  · rintro h a ⟨r, hr, x, hx, y, hy, rfl⟩
    exact h r hr x hx y hy
  · intro h r hr x hx y hy
    exact h _ ⟨r, hr, x, hx, y, hy, rfl⟩

/-- A set of runs and a set of rectangles with the same addresses are in memory together. -/
theorem inMemory_of_reaches {s : State} {rs : List Rect} {runs : List Run}
    (he : ∀ a, a ∈ addresses runs → Reaches rs a) (h : s.allInMemory rs) :
    ∀ a ∈ addresses runs, 0 ≤ a ∧ a < (s.cfg.memSize : Int) := fun a ha => allInMemory_iff.1 h a (he a ha)

/-! ## Checks -/

theorem sizesOf_contains (set : SizeSet) (wc hc : SizeCode) :
    (sizesOf set).contains (wc.pixels, hc.pixels) = set.has wc hc := by
  cases set <;> cases wc <;> cases hc <;> rfl

theorem has_of_sizeOk {i : Instr} {set : SizeSet} {wc hc : SizeCode} (h : sizeOk i = true)
    (hi : i.size? = some (set, wc, hc)) : set.has wc hc = true := by
  simpa only [sizeOk, hi, sizesOf_contains] using h

/-- A square size has equal codes. -/
theorem square_of_has {wc hc : SizeCode} (h : SizeSet.square3.has wc hc = true) : wc = hc ∧ wc ≠ .reserved := by
  cases wc <;> cases hc <;> simp_all [SizeSet.has]

/-! ## The shapes of completed commands -/

/-- A command with no write set returns its results. -/
theorem operation_returns {i : Instr} {checks : List Check} {reads : State → List Run} {vs : State → List (Fin 4 × Word)}
    {s : State} (hi : s.inited = true) (hc : ∀ c ∈ checks, c s = none)
    (hr : ∀ a ∈ addresses (reads s), 0 ≤ a ∧ a < (s.cfg.memSize : Int)) :
    operation i checks (fun s => { reads := reads s }) (fun s => { results := vs s }) s
      = .next { s with q := setResults s.q (vs s), cp := s.cp + 8 } := by
  rw [operation_completes hi hc (accessCheck_eq_none.2 ⟨hr, by simp⟩)]
  simp [State.commit_results, State.advance]

/-- A command that fills the `w×h` destination block with pixels. -/
theorem operation_fills {i : Instr} {checks : List Check} {foot : State → Footprint} {effect : State → Effect}
    {s : State} {w h : Nat} {value : Nat → Nat → Int} (hm : s.mem.wf) (hi : s.inited = true)
    (hc : ∀ c ∈ checks, c s = none) (hr : ∀ a ∈ addresses (foot s).reads, 0 ≤ a ∧ a < (s.cfg.memSize : Int))
    (hw : s.allInMemory [s.area 0 1 0 0 w h]) (hs : (w : Int) ≤ s.signedReg 1)
    (hf : (foot s).writes = s.blockDst.rows 0 0 w h)
    (he : effect s = { bytes := raster w h fun x y => pixelByte (value x y) })
    (hv : ∀ x < w, ∀ y < h, 0 ≤ value x y ∧ value x y ≤ 255) :
    ∃ m : Memory, operation i checks foot effect s = .next { s with mem := m, cp := s.cp + 8 } ∧
      (∀ x < w, ∀ y < h, byteAt m (s.sampleAddr 0 1 x y) = value x y) ∧
      ∀ a : Nat, (∀ x < w, ∀ y < h, (a : Int) ≠ s.sampleAddr 0 1 (x : Nat) (y : Nat)) → m.read a = s.mem.read a := by
  have hin : ∀ a ∈ addresses (s.blockDst.rows 0 0 w h), 0 ≤ a ∧ a < (s.cfg.memSize : Int) :=
    inMemory_of_reaches (fun a ha => ⟨_, List.mem_singleton_self _, mem_rows_block.1 ha⟩) hw
  obtain ⟨h1, h2⟩ := State.commit_block hm (b := s.blockDst) hs hin
    (fun x y => pixelByte (value x y)) (e := effect s) (by rw [he])
  refine ⟨(s.commit (foot s).writes (effect s)).mem, ?_, fun x hx y hy => ?_, fun a ha => ?_⟩
  · rw [operation_completes hi hc (accessCheck_eq_none.2 ⟨hr, by rwa [hf]⟩)]
    simp [State.commit, State.advance, he]
  · rw [hf]
    have := h1 x y hx hy
    have e : s.sampleAddr 0 1 x y = s.blockDst.at x y := rfl
    rw [byteAt, e, this]
    exact pixelByte_value (hv x hx y hy)
  · rw [hf]
    exact h2 a fun x y hx hy => ha x hx y hy

/-- A command that stores an `s16` array at `DST`. -/
theorem operation_stores {i : Instr} {checks : List Check} {foot : State → Footprint} {effect : State → Effect}
    {s : State} {vs : List Int} (hm : s.mem.wf) (hi : s.inited = true)
    (hc : ∀ c ∈ checks, c s = none) (hr : ∀ a ∈ addresses (foot s).reads, 0 ≤ a ∧ a < (s.cfg.memSize : Int))
    (hw : s.allInMemory [stretch (s.unsignedReg 0) (2 * vs.length)])
    (hf : (foot s).writes = [⟨s.addr DST, 2 * vs.length⟩]) (he : effect s = { bytes := coefBytes vs })
    (hv : ∀ v ∈ vs, -32768 ≤ v ∧ v ≤ 32767) :
    ∃ m : Memory, operation i checks foot effect s = .next { s with mem := m, cp := s.cp + 8 } ∧
      (∀ k < vs.length, s16At m (s.unsignedReg 0 + 2 * (k : Nat)) = vs.getD k 0) ∧
      ∀ a : Nat, ((a : Int) < s.unsignedReg 0 ∨ s.unsignedReg 0 + 2 * (vs.length : Nat) ≤ a) →
        m.read a = s.mem.read a := by
  have hin : ∀ a ∈ addresses [⟨s.addr DST, 2 * vs.length⟩], 0 ≤ a ∧ a < (s.cfg.memSize : Int) :=
    inMemory_of_reaches (fun a ha => ⟨_, List.mem_singleton_self _, mem_run.1 ha⟩) hw
  obtain ⟨h1, h2⟩ := State.commit_array hm (r := ⟨s.addr DST, 2 * vs.length⟩) (addr_nonneg s DST)
    (vs := vs) (le_refl _) (e := effect s) (by rw [he])
  refine ⟨(s.commit (foot s).writes (effect s)).mem, ?_, fun k hk => ?_, fun a ha => ?_⟩
  · rw [operation_completes hi hc (accessCheck_eq_none.2 ⟨hr, by rwa [hf]⟩)]
    simp [State.commit, State.advance, he]
  · rw [hf]
    have hg : vs[k]? = some (vs.getD k 0) := by simp [hk]
    have h0 : 0 ≤ s.unsignedReg 0 := addr_nonneg s DST
    refine s16At_of_mod (by omega) ?_ (hv _ (List.mem_of_getElem? hg))
    have e : (s.unsignedReg 0 + 2 * (k : Int)).toNat = (s.addr DST).toNat + 2 * k := by
      show ((s.addr DST) + 2 * (k : Int)).toNat = _
      have := addr_nonneg s DST
      omega
    rw [← h1 k _ hg, e]
  · rw [hf]
    exact h2 a ha

end Sys2Proof.Machine
end

