-- ==== Sys2Proof/Laws/Profile.lean ====
section
/-! SUPPORT. Said once for every store and operation command: which checks it makes, in which order, which addresses it
reads and writes and which result registers it writes. Everything about faults, frames and completion follows from it. -/

namespace Sys2Proof.Machine

/-! ## The checks in the order of 60_exceptions.md R333 -/

/-- The first parameter register outside its interval. -/
def paramsCheck : List (Fin 16 × Bool) → Check
  | [], _ => none
  | (r, ok) :: ps, s => if ok then paramsCheck ps s else some ⟨.badParam, regInfo r⟩

/-- The size check of a command that names a size. -/
def namedSizeCheck (i : Instr) : Check := fun s =>
  match i.size? with
  | some (set, wc, hc) => sizeCheck set wc hc s
  | none => none

/-- The checks before the access check. -/
def standardChecks (i : Instr) (s : State) : List Check :=
  match i with
  | .stq _ imm => [storeAlignment imm]
  | i => [notInitialized i, namedSizeCheck i, paramsCheck (params i s), nullCheck (bases i s),
      strideCheck (strides i s).2 (strides i s).1, alignCheck (arrays i)]

/-- An outcome that follows the tables of Safety.lean; the sets are those of the tables when the size is in its set. -/
def Profile (i : Instr) (s : State) (out : Out) : Prop :=
  ∃ (f : Footprint) (e : Effect),
    (sizeOk i = true → (∀ a, a ∈ addresses f.reads ↔ Reaches (reads i s) a) ∧
      ∀ a, a ∈ addresses f.writes ↔ Reaches (writes i s) a) ∧
    (∀ c ∈ e.results, c.1 ∈ resultRegisters i) ∧
    out = match firstFailure (standardChecks i s ++ [accessCheck fun _ => f]) s with
      | some v => .next (s.raise v)
      | none => .next (s.commit f.writes e).advance

theorem firstFailure_append_one (cs : List Check) (c : Check) (s : State) :
    firstFailure (cs ++ [c]) s = match firstFailure cs s with
      | some v => some v
      | none => c s := by
  induction cs with
  | nil => simp only [List.nil_append, firstFailure]; cases c s <;> rfl
  | cons d ds ih =>
    simp only [List.cons_append, firstFailure, ih]
    cases d s <;> rfl

theorem operation_profile_sized {i : Instr} {checks : List Check} {foot : State → Footprint} {effect : State → Effect}
    {s : State} (hc : firstFailure (notInitialized i :: checks) s = firstFailure (standardChecks i s) s)
    (hf : sizeOk i = true → (∀ a, a ∈ addresses (foot s).reads ↔ Reaches (reads i s) a) ∧
      ∀ a, a ∈ addresses (foot s).writes ↔ Reaches (writes i s) a)
    (hq : ∀ c ∈ (effect s).results, c.1 ∈ resultRegisters i) :
    Profile i s (operation i checks foot effect s) := by
  refine ⟨foot s, effect s, hf, hq, ?_⟩
  unfold operation command
  rw [firstFailure_append_one, firstFailure_append_one, hc]
  rfl

theorem operation_profile {i : Instr} {checks : List Check} {foot : State → Footprint} {effect : State → Effect}
    {s : State} (hc : firstFailure (notInitialized i :: checks) s = firstFailure (standardChecks i s) s)
    (hr : ∀ a, a ∈ addresses (foot s).reads ↔ Reaches (reads i s) a)
    (hw : ∀ a, a ∈ addresses (foot s).writes ↔ Reaches (writes i s) a)
    (hq : ∀ c ∈ (effect s).results, c.1 ∈ resultRegisters i) :
    Profile i s (operation i checks foot effect s) :=
  operation_profile_sized hc (fun _ => ⟨hr, hw⟩) hq

/-! ## Sets of addresses -/

theorem reaches_one {r : Rect} {a : Int} : Reaches [r] a ↔ r.Has a := by simp [Reaches]

/-- The unions of runs the commands use, as rectangles. -/
theorem mem_addresses_append {rs qs : List Run} {a : Int} :
    a ∈ addresses (rs ++ qs) ↔ a ∈ addresses rs ∨ a ∈ addresses qs := by
  rw [addresses_append, List.mem_append]

theorem mem_addresses_run_cons {b : Int} {n : Nat} {rs : List Run} {a : Int} :
    a ∈ addresses (⟨b, n⟩ :: rs) ↔ (stretch b n).Has a ∨ a ∈ addresses rs := by
  rw [← mem_run, addresses_cons, addresses_cons, List.mem_append, List.mem_append]
  simp

theorem mem_pairRuns {s : State} {w h : Nat} {a : Int} :
    a ∈ addresses (pairRuns w h s) ↔ Reaches [s.area 2 3 0 0 w h, s.area 4 5 0 0 w h] a := by
  rw [pairRuns, mem_addresses_append, reaches_cons, reaches_one]
  exact or_congr mem_rows_block mem_rows_block

theorem mem_dst {s : State} {x0 y0 : Int} {w h : Nat} {a : Int} :
    a ∈ addresses (s.blockDst.rows x0 y0 w h) ↔ (s.area 0 1 x0 y0 w h).Has a := mem_rows_block

/-- The sub-blocks of a square block cover it (42_transform_quant.md R141). -/
theorem mem_subBlocks {b : Block} {n : Nat} (hn : n = 4 ∨ n = 8 ∨ n = 16) {a : Int} :
    a ∈ addresses ((List.range (subCount n)).flatMap fun k => b.rows (subX k) (subY k) 4 4) ↔
      a ∈ addresses (b.rows 0 0 n n) := by
  have key : ∀ c : Nat × Nat, (c.1 < n ∧ c.2 < n) ↔
      ∃ k < subCount n, ∃ x y, x < 4 ∧ y < 4 ∧ subX k + x = c.1 ∧ subY k + y = c.2 := by
    rintro ⟨x, y⟩
    simp only [subX, subY, subCount, Nat.shiftRight_eq_div_pow]
    constructor
    · rintro ⟨hx, hy⟩
      refine ⟨8 * (y / 8) + 4 * (x / 8) + 2 * (y / 4 % 2) + x / 4 % 2, ?_, x % 4, y % 4, ?_, ?_, ?_, ?_⟩
      · rcases hn with rfl | rfl | rfl <;> omega
      · omega
      · omega
      · rcases hn with rfl | rfl | rfl <;> omega
      · rcases hn with rfl | rfl | rfl <;> omega
    · rintro ⟨k, hk, u, v, hu, hv, rfl, rfl⟩
      rcases hn with rfl | rfl | rfl <;> omega
  rw [addresses_flatMap, List.mem_flatMap]
  simp only [List.mem_range, mem_addresses_rows]
  constructor
  · rintro ⟨k, hk, x, y, hx, hy, rfl⟩
    obtain ⟨h1, h2⟩ := (key (subX k + x, subY k + y)).2 ⟨k, hk, x, y, hx, hy, rfl, rfl⟩
    exact ⟨subX k + x, subY k + y, h1, h2, by push_cast; simp⟩
  · rintro ⟨x, y, hx, hy, rfl⟩
    obtain ⟨k, hk, u, v, hu, hv, e1, e2⟩ := (key (x, y)).1 ⟨hx, hy⟩
    simp only at e1 e2
    exact ⟨k, hk, u, v, hu, hv, by rw [← e1, ← e2]; push_cast; simp⟩

/-! ## Luma planes (45_motion_comp.md R271, R272) -/

theorem fraction_eq (v : Int) {n : Nat} (hn : 0 < n) : (fraction v n : Int) = fractionOf v n := by
  have := Int.emod_nonneg v (b := n) (by omega)
  simp only [fraction, fractionOf]
  omega

theorem phase_val (s : State) : s.phase.val = s.lumaPhase := by
  have h1 := fraction_eq (s.sval P0) (n := 4) (by omega)
  have h2 := fraction_eq (s.sval P1) (n := 4) (by omega)
  have b1 : fractionOf (s.sval P0) ((4 : Nat) : Int) < 4 := Int.emod_lt_of_pos _ (by omega)
  have b2 : fractionOf (s.sval P1) ((4 : Nat) : Int) < 4 := Int.emod_lt_of_pos _ (by omega)
  show (4 * s.lumaFy + s.lumaFx) % 16 = s.lumaPhase
  have e : s.lumaPhase = (4 * fractionOf (s.sval P1) 4 + fractionOf (s.sval P0) 4).toNat := rfl
  simp only [State.lumaFx, State.lumaFy, e]
  push_cast at *
  omega

theorem planeReg_eq (t : Vector (Fin 4) 16) (s : State) :
    planeReg t[s.phase] = planeRegister (tableEntry t s.lumaPhase) := by
  have hp : ∀ p : Fin 4, planeReg p = planeRegister p.val := by decide
  have hl : s.lumaPhase < 16 := by rw [← phase_val]; exact s.phase.isLt
  rw [hp, tableEntry]
  congr 2
  rw [← phase_val]
  simp [List.getD, Vector.getElem_toList]

theorem firstPlane_eq (s : State) : s.lumaReg1 = s.firstPlane := planeReg_eq _ s
theorem secondPlane_eq (s : State) : s.lumaReg2 = s.secondPlane := planeReg_eq _ s

theorem usesSecond_eq (s : State) : s.lumaTwo = s.usesSecond := by
  have h1 : (s.lumaFx : Int) = fractionOf (s.sval P0) 4 := fraction_eq (s.sval P0) (n := 4) (by omega)
  have h2 : (s.lumaFy : Int) = fractionOf (s.sval P1) 4 := fraction_eq (s.sval P1) (n := 4) (by omega)
  have e : s.usesSecond =
      (fractionOf (s.sval P0) 4 % 2 == 1 || fractionOf (s.sval P1) 4 % 2 == 1) := rfl
  rw [e, Bool.eq_iff_iff, ← h1, ← h2]
  simp only [State.lumaTwo, Bool.or_eq_true, decide_eq_true_eq, beq_iff_eq]
  omega

theorem lumaSrc1_eq (s : State) : s.lumaSrc1 = ⟨s.firstBase, s.signedReg 5⟩ := by
  have h2 := fraction_eq (s.sval P1) (n := 4) (by omega)
  have hy : s.lumaFy = 3 ↔ fractionOf (s.signedReg 10) 4 = 3 := by
    show fraction (s.sval P1) 4 = 3 ↔ fractionOf (s.sval P1) 4 = 3
    push_cast at h2
    omega
  simp only [State.lumaSrc1, State.firstBase, firstPlane_eq, State.lumaOff, asr, hy]
  congr 1
  have e : (2 : Int) ^ 2 = 4 := rfl
  rw [e]
  show s.unsignedReg s.firstPlane + (s.signedReg 10 / 4 * s.signedReg 5 + s.signedReg 9 / 4) + _ = _
  rw [← Int.add_assoc (s.unsignedReg s.firstPlane)]
  rfl

theorem lumaSrc2_eq (s : State) : s.lumaSrc2 = ⟨s.secondBase, s.signedReg 5⟩ := by
  have h2 := fraction_eq (s.sval P0) (n := 4) (by omega)
  have hx : s.lumaFx = 3 ↔ fractionOf (s.signedReg 9) 4 = 3 := by
    show fraction (s.sval P0) 4 = 3 ↔ fractionOf (s.sval P0) 4 = 3
    push_cast at h2
    omega
  simp only [State.lumaSrc2, State.secondBase, secondPlane_eq, State.lumaOff, asr, hx]
  congr 1
  have e : (2 : Int) ^ 2 = 4 := rfl
  rw [e]
  show s.unsignedReg s.secondPlane + (s.signedReg 10 / 4 * s.signedReg 5 + s.signedReg 9 / 4) + _ = _
  rw [← Int.add_assoc (s.unsignedReg s.secondPlane)]

theorem chromaSrc_eq (s : State) : s.chromaSrc = ⟨s.chromaBase, s.signedReg 5⟩ := by
  simp only [State.chromaSrc, State.chromaBase, asr]
  rfl

/-! ## The profile of each shape -/

theorem ranged_results {ok : Bool} {n : Nat} {regs : List (Fin 4)} {good : Effect} {s : State} {P : Fin 4 → Prop}
    (hg : ∀ c ∈ good.results, P c.1) (hr : ∀ r ∈ regs, P r) : ∀ c ∈ (ranged ok n regs good s).results, P c.1 := by
  unfold ranged
  split
  · exact hg
  · intro c hc
    obtain ⟨r, hr', rfl⟩ := List.mem_map.1 hc
    exact hr r hr'

theorem arrayEffect_results {n : Nat} {ok : Bool} {vs : List Int} {s : State} {P : Fin 4 → Prop} :
    ∀ c ∈ (arrayEffect n ok vs s).results, P c.1 := ranged_results (by simp) (by simp)

/-- The commands over blocks A and B that return one number. -/
theorem metric_profile {i : Instr} {set : SizeSet} {wc hc : SizeCode} (value : State → Nat → Nat → Int) {s : State}
    (hs : standardChecks i s = [notInitialized i, sizeCheck set wc hc, fun _ => none, nullCheck [2, 4],
      strideCheck wc.pixels [3, 5], fun _ => none])
    (hr : reads i s = [s.area 2 3 0 0 wc.pixels hc.pixels, s.area 4 5 0 0 wc.pixels hc.pixels]) (hw : writes i s = [])
    (hq : resultRegisters i = [0]) : Profile i s (metric i set wc hc value s) := by
  refine operation_profile ?_ (fun a => ?_) (fun a => ?_) ?_
  · rw [hs]; simp only [pairChecks, firstFailure]
  · rw [hr]; exact mem_pairRuns
  · rw [hw]; simp [pairFootprint]
  · rw [hq]; simp [results]

/-- The commands that fill a block after a size check. -/
theorem fill_profile {i : Instr} {wc hc : SizeCode} {checks : List Check} {rd : State → List Run}
    (value : State → Nat → Nat → Int) {s : State}
    (hs : firstFailure (notInitialized i :: sizeCheck .mc9 wc hc :: checks) s = firstFailure (standardChecks i s) s)
    (hr : ∀ a, a ∈ addresses (rd s) ↔ Reaches (reads i s) a)
    (hw : writes i s = [s.area 0 1 0 0 wc.pixels hc.pixels]) : Profile i s (fill i wc hc checks rd value s) := by
  refine operation_profile hs hr (fun a => ?_) (by simp)
  rw [hw, reaches_one]
  exact mem_dst

/-- The prediction commands. -/
theorem predict_profile {i : Instr} {n : Nat} {nulls : List (Fin 16)} {rd : State → List Run}
    (value : State → Nat → Nat → Int) {s : State}
    (hs : standardChecks i s = [notInitialized i, fun _ => none, fun _ => none, nullCheck nulls,
      strideCheck n [1], fun _ => none])
    (hr : ∀ a, a ∈ addresses (rd s) ↔ Reaches (reads i s) a)
    (hw : writes i s = [s.area 0 1 0 0 n n]) : Profile i s (predict i n nulls rd value s) := by
  refine operation_profile ?_ hr (fun a => ?_) (by simp)
  · rw [hs]; simp only [firstFailure]
  · rw [hw, reaches_one]
    exact mem_dst

/-- The commands from an array at `SRCA` to an array at `DST`. -/
theorem array_profile {i : Instr} {n : Nat} {effect : State → Effect} {s : State}
    (hs : standardChecks i s = [notInitialized i, fun _ => none, fun _ => none, nullCheck [0, 2],
      fun _ => none, alignCheck [(0, 2), (2, 2)]])
    (hr : reads i s = [stretch (s.unsignedReg 2) (2 * n)]) (hw : writes i s = [stretch (s.unsignedReg 0) (2 * n)])
    (hq : ∀ c ∈ (effect s).results, c.1 ∈ resultRegisters i) :
    Profile i s (operation i arrayChecks (arrayFootprint n) effect s) := by
  refine operation_profile ?_ (fun a => ?_) (fun a => ?_) hq
  · rw [hs]; simp only [arrayChecks, firstFailure]
  · rw [hr, reaches_one]; exact mem_run
  · rw [hw, reaches_one]; exact mem_run

theorem quantParams_failure (i : Instr) (cs : List Check) (s : State)
    (hp : params i s = [(9, decide (s.g[(10 : Fin 16)].toNat < 32 → s.g[(9 : Fin 16)].toNat < 2 ^ s.g[(10 : Fin 16)].toNat)),
      (10, decide (s.unsignedReg 10 ≤ 31))]) :
    firstFailure (quantParams ++ cs) s = firstFailure (paramsCheck (params i s) :: cs) s := by
  rw [hp]
  have e1 : (decide (32 ≤ s.uval P1) || decide (s.uval P0 < 2 ^ s.uval P1))
      = decide (s.g[(10 : Fin 16)].toNat < 32 → s.g[(9 : Fin 16)].toNat < 2 ^ s.g[(10 : Fin 16)].toNat) := by
    rw [Bool.eq_iff_iff]
    simp only [Bool.or_eq_true, decide_eq_true_eq]
    show 32 ≤ s.g[(10 : Fin 16)].toNat ∨ s.g[(9 : Fin 16)].toNat < 2 ^ s.g[(10 : Fin 16)].toNat ↔ _
    constructor
    · rintro (h | h) h'
      · omega
      · exact h
    · intro h
      by_cases h' : s.g[(10 : Fin 16)].toNat < 32
      · exact .inr (h h')
      · exact .inl (by omega)
  have e2 : decide (s.uval P1 ≤ 31) = decide (s.unsignedReg 10 ≤ 31) := by
    rw [Bool.eq_iff_iff]
    simp only [decide_eq_true_eq]
    show s.g[(10 : Fin 16)].toNat ≤ 31 ↔ (s.g[(10 : Fin 16)].toNat : Int) ≤ 31
    omega
  simp only [quantParams, List.cons_append, List.nil_append, firstFailure, paramCheck, paramsCheck, e1, e2]
  generalize decide (s.g[(10 : Fin 16)].toNat < 32 → s.g[(9 : Fin 16)].toNat < 2 ^ s.g[(10 : Fin 16)].toNat) = a
  generalize decide (s.unsignedReg 10 ≤ 31) = b
  cases a <;> cases b <;> rfl

theorem quantTable_profile {i : Instr} {n : Nat} {s : State}
    (hs : standardChecks i s = [notInitialized i, fun _ => none, paramsCheck (params i s), nullCheck [0, 2, 13],
      fun _ => none, alignCheck [(0, 2), (2, 2), (13, 4)]])
    (hp : params i s = [(9, decide (s.g[(10 : Fin 16)].toNat < 32 → s.g[(9 : Fin 16)].toNat < 2 ^ s.g[(10 : Fin 16)].toNat)),
      (10, decide (s.unsignedReg 10 ≤ 31))])
    (hr : reads i s = [stretch (s.unsignedReg 2) (2 * n), stretch (s.unsignedReg 13) (4 * n)])
    (hw : writes i s = [stretch (s.unsignedReg 0) (2 * n)]) : Profile i s (quantTable i n s) := by
  refine operation_profile ?_ (fun a => ?_) (fun a => ?_) arrayEffect_results
  · rw [hs]
    simp only [firstFailure]
    rw [quantParams_failure i _ s hp]
    simp only [firstFailure]
  · rw [hr, reaches_cons, reaches_one]
    exact mem_addresses_run_cons.trans (or_congr Iff.rfl mem_run)
  · rw [hw, reaches_one]; exact mem_run

theorem quantScalar_profile {i : Instr} {n : Nat} {s : State}
    (hs : standardChecks i s = [notInitialized i, fun _ => none, paramsCheck (params i s), nullCheck [0, 2],
      fun _ => none, alignCheck [(0, 2), (2, 2)]])
    (hp : params i s = [(9, decide (s.g[(10 : Fin 16)].toNat < 32 → s.g[(9 : Fin 16)].toNat < 2 ^ s.g[(10 : Fin 16)].toNat)),
      (10, decide (s.unsignedReg 10 ≤ 31))])
    (hr : reads i s = [stretch (s.unsignedReg 2) (2 * n)])
    (hw : writes i s = [stretch (s.unsignedReg 0) (2 * n)]) : Profile i s (quantScalar i n s) := by
  refine operation_profile ?_ (fun a => ?_) (fun a => ?_) arrayEffect_results
  · rw [hs]
    simp only [firstFailure]
    rw [quantParams_failure i _ s hp]
    simp only [firstFailure, arrayChecks]
  · rw [hr, reaches_one]; exact mem_run
  · rw [hw, reaches_one]; exact mem_run

theorem ads_profile {i : Instr} {off : State → List Int} {s : State}
    (hs : standardChecks i s = [notInitialized i, fun _ => none, paramsCheck [(9, decide (s.unsignedReg 9 ≤ 32767))],
      nullCheck [0, 2, 4, 13], fun _ => none, alignCheck [(0, 2), (2, 4), (4, 2), (13, 2)]])
    (hr : reads i s = stretch (s.unsignedReg 2) (4 * (off s).length)
      :: (off s).map (fun o => stretch (s.unsignedReg 4 + 2 * o) (2 * s.g[(9 : Fin 16)].toNat))
      ++ [stretch (s.unsignedReg 13) (2 * s.g[(9 : Fin 16)].toNat)])
    (hw : writes i s = [stretch (s.unsignedReg 0) (2 * s.g[(9 : Fin 16)].toNat)])
    (hq : resultRegisters i = [0]) : Profile i s (ads i off s) := by
  refine operation_profile ?_ (fun a => ?_) (fun a => ?_) ?_
  · rw [hs]
    have e : decide (s.uval P0 ≤ 32767) = decide (s.unsignedReg 9 ≤ 32767) := by
      rw [Bool.eq_iff_iff]
      simp only [decide_eq_true_eq]
      show s.g[(9 : Fin 16)].toNat ≤ 32767 ↔ (s.g[(9 : Fin 16)].toNat : Int) ≤ 32767
      omega
    simp only [firstFailure, paramCheck, paramsCheck, e]
  · rw [hr]
    have e : ∀ l : List Int, a ∈ addresses (l.map (fun o => ⟨s.addr SRCB + 2 * o, 2 * s.uval P0⟩)) ↔
        Reaches (l.map (fun o => stretch (s.unsignedReg 4 + 2 * o) (2 * s.g[(9 : Fin 16)].toNat))) a := by
      intro l
      induction l with
      | nil => simp
      | cons o os ih =>
        rw [List.map_cons, List.map_cons, reaches_cons, ← ih]
        exact mem_addresses_run_cons
    have happ : ∀ (rs qs : List Rect), Reaches (rs ++ qs) a ↔ Reaches rs a ∨ Reaches qs a := by
      intro rs qs
      simp only [Reaches, List.mem_append, or_and_right, exists_or]
    rw [List.cons_append, reaches_cons, happ, reaches_one, ← e]
    show a ∈ addresses (⟨s.addr SRCA, 4 * (off s).length⟩ ::
      ((off s).map (fun o => (⟨s.addr SRCB + 2 * o, 2 * s.uval P0⟩ : Run)) ++ [⟨s.addr TBL, 2 * s.uval P0⟩])) ↔ _
    rw [mem_addresses_run_cons, mem_addresses_append]
    exact or_congr Iff.rfl (or_congr Iff.rfl mem_run)
  · rw [hw, reaches_one]; exact mem_run
  · rw [hq]
    exact ranged_results (by simp) (by simp)

end Sys2Proof.Machine
end

