-- ==== Sys2Proof/Laws/Exec.lean ====
section
/-! SUPPORT. What `exec` can do with every instruction, said once. -/

namespace Sys2Proof.Machine

theorem batched_profile {i : Instr} {bs : List (Fin 16)} {wc hc : SizeCode} {s : State}
    (hs : standardChecks i s = [notInitialized i, sizeCheck .metric7 wc hc, fun _ => none, nullCheck (SRCA :: bs),
      strideCheck wc.pixels [3, 5], fun _ => none])
    (hr : reads i s = s.area 2 3 0 0 wc.pixels hc.pixels :: bs.map fun r => s.area r 5 0 0 wc.pixels hc.pixels)
    (hw : writes i s = [])
    (hq : ∀ r ∈ (List.finRange 4).take bs.length, r ∈ resultRegisters i) :
    Profile i s (batchedSad i bs wc hc s) := by
  refine operation_profile ?_ (fun a => ?_) (fun a => ?_) ?_
  · rw [hs]; simp only [firstFailure]
  · rw [hr, reaches_cons]
    have e : ∀ l : List (Fin 16), a ∈ addresses ((s.candidates l).flatMap fun b => b.rows 0 0 wc.pixels hc.pixels) ↔
        Reaches (l.map fun r => s.area r 5 0 0 wc.pixels hc.pixels) a := by
      intro l
      induction l with
      | nil => simp [State.candidates]
      | cons r rs ih =>
        rw [List.map_cons, reaches_cons, ← ih, State.candidates, List.map_cons, List.flatMap_cons, mem_addresses_append]
        exact or_congr mem_rows_block Iff.rfl
    rw [← e, List.flatMap_cons, mem_addresses_append]
    exact or_congr mem_rows_block Iff.rfl
  · rw [hw]; simp
  · intro c hc
    obtain ⟨d, hd, rfl⟩ := List.mem_map.1 hc
    refine hq d.1 ?_
    obtain ⟨k, hk, e⟩ := List.getElem_of_mem hd
    rw [List.length_zip] at hk
    rw [← e, List.getElem_zip]
    have hl : k < bs.length := by
      have := hk
      simp only [State.candidates, List.length_map] at this
      omega
    rw [List.mem_iff_getElem]
    exact ⟨k, by simp at hk ⊢; omega, by simp⟩

theorem predictAround_profile {i : Instr} {n : Nat} {rd : State → List Run}
    (value : Context → Nat → Nat → Int) {s : State}
    (hs : standardChecks i s = [notInitialized i, fun _ => none, fun _ => none, nullCheck [DST],
      strideCheck n [1], fun _ => none])
    (hr : ∀ a, a ∈ addresses (rd s) ↔ Reaches (reads i s) a)
    (hw : writes i s = [s.area 0 1 0 0 n n]) : Profile i s (predictAround i n rd value s) :=
  predict_profile _ hs hr hw

theorem mem_two {rs qs : List Run} {r q : Rect} {a : Int} (h1 : a ∈ addresses rs ↔ r.Has a)
    (h2 : a ∈ addresses qs ↔ q.Has a) : a ∈ addresses (rs ++ qs) ↔ Reaches [r, q] a := by
  rw [mem_addresses_append, reaches_cons, reaches_one, h1, h2]

theorem mem_three {rs qs ps : List Run} {r q p : Rect} {a : Int} (h1 : a ∈ addresses rs ↔ r.Has a)
    (h2 : a ∈ addresses qs ↔ q.Has a) (h3 : a ∈ addresses ps ↔ p.Has a) :
    a ∈ addresses (rs ++ qs ++ ps) ↔ Reaches [r, q, p] a := by
  rw [mem_addresses_append, mem_addresses_append, reaches_cons, reaches_cons, reaches_one, h1, h2, h3, or_assoc]

theorem mem_one {rs : List Run} {r : Rect} {a : Int} (h : a ∈ addresses rs ↔ r.Has a) :
    a ∈ addresses rs ↔ Reaches [r] a := by rw [reaches_one, h]

theorem predictEdge_profile {i : Instr} (value : Context → Nat → Nat → Int) {s : State}
    (hs : standardChecks i s = [notInitialized i, fun _ => none, fun _ => none, nullCheck [DST, TBL],
      strideCheck (8 : Nat) [1], fun _ => none])
    (hr : reads i s = [stretch (s.unsignedReg 13) 33])
    (hw : writes i s = [s.area 0 1 0 0 8 8]) : Profile i s (predictEdge i value s) :=
  predict_profile _ hs (fun a => by rw [hr]; exact mem_one mem_run) hw

theorem predict128_profile {i : Instr} {n : Nat} {s : State}
    (hs : standardChecks i s = [notInitialized i, fun _ => none, fun _ => none, nullCheck [DST],
      strideCheck n [1], fun _ => none])
    (hr : reads i s = []) (hw : writes i s = [s.area 0 1 0 0 n n]) : Profile i s (predict128 i n s) :=
  predict_profile _ hs (fun a => by rw [hr]; simp) hw

/-- The sizes of a square set. -/
theorem square_pixels {wc hc : SizeCode} (h : SizeSet.square3.has wc hc = true) :
    hc = wc ∧ (wc.pixels = 4 ∨ wc.pixels = 8 ∨ wc.pixels = 16) := by
  cases wc <;> cases hc <;> simp_all [SizeSet.has, SizeCode.pixels]

theorem ssdwh_profile (s : State) : Profile .ssdwh s (execSsdwh s) := by
  refine operation_profile ?_ (fun a => mem_pairRuns) (fun a => by show a ∈ addresses [] ↔ Reaches [] a; simp) (by simp [results, resultRegisters])
  have e : ∀ r : Fin 16, decide (1 ≤ s.uval r ∧ s.uval r ≤ 65535)
      = decide (1 ≤ s.unsignedReg r ∧ s.unsignedReg r ≤ 65535) := by
    intro r
    rw [Bool.eq_iff_iff]
    simp only [decide_eq_true_eq]
    show 1 ≤ s.g[r].toNat ∧ s.g[r].toNat ≤ 65535 ↔ 1 ≤ (s.g[r].toNat : Int) ∧ (s.g[r].toNat : Int) ≤ 65535
    omega
  have hs : standardChecks .ssdwh s = [notInitialized .ssdwh, fun _ => none,
      paramsCheck [(9, decide (1 ≤ s.unsignedReg 9 ∧ s.unsignedReg 9 ≤ 65535)),
        (10, decide (1 ≤ s.unsignedReg 10 ∧ s.unsignedReg 10 ≤ 65535))],
      nullCheck [SRCA, SRCB], strideCheck (s.unsignedReg 9) [SRCAS, SRCBS], fun _ => none] := rfl
  rw [hs]
  simp only [firstFailure, regionParam, paramCheck, paramsCheck, e]
  generalize decide (1 ≤ s.unsignedReg 9 ∧ s.unsignedReg 9 ≤ 65535) = a
  generalize decide (1 ≤ s.unsignedReg 10 ∧ s.unsignedReg 10 ≤ 65535) = b
  cases a <;> cases b <;> rfl

theorem ssim4_profile (s : State) : Profile .ssim4 s (execSsim4 s) :=
  operation_profile rfl (fun _ => mem_pairRuns) (fun a => by show a ∈ addresses [] ↔ Reaches [] a; simp)
    (by simp [results, resultRegisters])

theorem fdct4_profile (wc hc : SizeCode) (s : State) : Profile (.fdct4 wc hc) s (execFdct4 wc hc s) := by
  refine operation_profile_sized rfl (fun h => ?_) (by simp)
  obtain ⟨rfl, -⟩ := square_pixels (has_of_sizeOk h rfl)
  exact ⟨fun a => mem_pairRuns, fun a => mem_one mem_run⟩

theorem idct4_profile (wc hc : SizeCode) (s : State) : Profile (.idct4 wc hc) s (execIdct4 wc hc s) := by
  refine operation_profile_sized rfl (fun h => ?_) (ranged_results (by simp) (by simp))
  obtain ⟨rfl, hn⟩ := square_pixels (has_of_sizeOk h rfl)
  refine ⟨fun a => ?_, fun a => ?_⟩
  · show a ∈ addresses (⟨s.addr SRCA, 2 * hc.pixels * hc.pixels⟩ :: s.blockDst.rows 0 0 hc.pixels hc.pixels) ↔
      Reaches [stretch (s.unsignedReg 2) (2 * hc.pixels * hc.pixels), s.area 0 1 0 0 hc.pixels hc.pixels] a
    rw [mem_addresses_run_cons, reaches_cons, reaches_one]
    exact or_congr Iff.rfl mem_dst
  · exact (mem_subBlocks hn).trans (mem_one mem_dst)

theorem fdct8_profile (s : State) : Profile .fdct8 s (execFdct8 s) :=
  operation_profile rfl (fun _ => mem_pairRuns) (fun _ => mem_one mem_run) (by simp)

theorem idct8_profile (s : State) : Profile .idct8 s (execIdct8 s) := by
  refine operation_profile rfl (fun a => ?_) (fun _ => mem_one mem_dst) (ranged_results (by simp) (by simp))
  show a ∈ addresses (⟨s.addr SRCA, 128⟩ :: s.blockDst.rows 0 0 8 8) ↔
    Reaches [stretch (s.unsignedReg 2) 128, s.area 0 1 0 0 8 8] a
  rw [mem_addresses_run_cons, reaches_cons, reaches_one]
  exact or_congr Iff.rfl mem_dst

theorem lumaNulls_eq (wc hc : SizeCode) (s : State) : lumaNulls s = nullCheck (bases (.mcluma wc hc) s) s := by
  simp only [lumaNulls, bases, firstPlane_eq, secondPlane_eq, usesSecond_eq]

theorem mcluma_profile (wc hc : SizeCode) (s : State) : Profile (.mcluma wc hc) s (execMcluma wc hc s) := by
  refine fill_profile _ ?_ (fun a => ?_) rfl
  · simp only [firstFailure, lumaNulls_eq wc hc]
    rfl
  · rw [mem_addresses_append, lumaSrc1_eq, lumaSrc2_eq, usesSecond_eq]
    show _ ↔ Reaches (⟨s.firstBase, s.signedReg 5, 0, 0, wc.pixels, hc.pixels⟩
      :: if s.usesSecond then [⟨s.secondBase, s.signedReg 5, 0, 0, wc.pixels, hc.pixels⟩] else []) a
    rw [reaches_cons, mem_rows]
    refine or_congr Iff.rfl ?_
    split
    · exact mem_one mem_rows
    · simp

theorem mcchroma_profile (wc hc : SizeCode) (s : State) : Profile (.mcchroma wc hc) s (execMcchroma wc hc s) :=
  fill_profile _ rfl (fun a => by rw [chromaSrc_eq]; exact mem_one mem_rows) rfl

theorem stq_profile (r : Fin 4) (imm : Word) (s : State) : Profile (.stq r imm) s (execStq r imm s) :=
  ⟨storeFootprint imm s, { bytes := leBytes 4 s.q[r].toNat },
    fun _ => ⟨fun a => by show a ∈ addresses [] ↔ Reaches [] a; simp, fun _ => mem_one mem_run⟩, by simp, rfl⟩

/-! ## One profile for each instruction -/

theorem sad_profile (wc hc : SizeCode) (s : State) : Profile (.sad wc hc) s (execSad wc hc s) :=
  metric_profile _ rfl rfl rfl rfl

theorem ssd_profile (wc hc : SizeCode) (s : State) : Profile (.ssd wc hc) s (execSsd wc hc s) :=
  metric_profile _ rfl rfl rfl rfl

theorem satd_profile (wc hc : SizeCode) (s : State) : Profile (.satd wc hc) s (execSatd wc hc s) :=
  metric_profile _ rfl rfl rfl rfl

theorem sa8d_profile (wc hc : SizeCode) (s : State) : Profile (.sa8d wc hc) s (execSa8d wc hc s) :=
  metric_profile _ rfl rfl rfl rfl

theorem sadx3_profile (wc hc : SizeCode) (s : State) : Profile (.sadx3 wc hc) s (execSadx3 wc hc s) :=
  batched_profile rfl rfl rfl
    (by show ∀ r ∈ List.take 3 (List.finRange 4), r ∈ ([0, 1, 2] : List (Fin 4)); decide)

theorem sadx4_profile (wc hc : SizeCode) (s : State) : Profile (.sadx4 wc hc) s (execSadx4 wc hc s) :=
  batched_profile rfl rfl rfl
    (by show ∀ r ∈ List.take 4 (List.finRange 4), r ∈ ([0, 1, 2, 3] : List (Fin 4)); decide)

theorem ads1_profile (s : State) : Profile (.ads1) s (execAds1 s) :=
  ads_profile rfl rfl rfl rfl

theorem ads2_profile (s : State) : Profile (.ads2) s (execAds2 s) :=
  ads_profile rfl rfl rfl rfl

theorem ads4_profile (s : State) : Profile (.ads4) s (execAds4 s) :=
  ads_profile rfl rfl rfl rfl

theorem fdc4_profile (s : State) : Profile (.fdc4) s (execFdc4 s) :=
  array_profile rfl rfl rfl arrayEffect_results

theorem idc4_profile (s : State) : Profile (.idc4) s (execIdc4 s) :=
  array_profile rfl rfl rfl arrayEffect_results

theorem fdc2_profile (s : State) : Profile (.fdc2) s (execFdc2 s) :=
  array_profile rfl rfl rfl arrayEffect_results

theorem idc2_profile (s : State) : Profile (.idc2) s (execIdc2 s) :=
  array_profile rfl rfl rfl arrayEffect_results

theorem quant4_profile (s : State) : Profile (.quant4) s (execQuant4 s) :=
  quantTable_profile rfl rfl rfl rfl

theorem quant8_profile (s : State) : Profile (.quant8) s (execQuant8 s) :=
  quantTable_profile rfl rfl rfl rfl

theorem quantdc4_profile (s : State) : Profile (.quantdc4) s (execQuantdc4 s) :=
  quantScalar_profile rfl rfl rfl rfl

theorem quantdc2_profile (s : State) : Profile (.quantdc2) s (execQuantdc2 s) :=
  quantScalar_profile rfl rfl rfl rfl

theorem zigzag4_profile (s : State) : Profile (.zigzag4) s (execZigzag4 s) :=
  array_profile rfl rfl rfl (by simp)

theorem pred4V_profile (s : State) : Profile (.pred4V) s (execPred4V s) :=
  predictAround_profile _ rfl (fun _ => mem_one mem_dst) rfl

theorem pred4H_profile (s : State) : Profile (.pred4H) s (execPred4H s) :=
  predictAround_profile _ rfl (fun _ => mem_one mem_dst) rfl

theorem pred4DC_profile (s : State) : Profile (.pred4DC) s (execPred4DC s) :=
  predictAround_profile _ rfl (fun _ => mem_two mem_dst mem_dst) rfl

theorem pred4DDL_profile (s : State) : Profile (.pred4DDL) s (execPred4DDL s) :=
  predictAround_profile _ rfl (fun _ => mem_one mem_dst) rfl

theorem pred4DDR_profile (s : State) : Profile (.pred4DDR) s (execPred4DDR s) :=
  predictAround_profile _ rfl (fun _ => mem_three mem_dst mem_dst mem_dst) rfl

theorem pred4VR_profile (s : State) : Profile (.pred4VR) s (execPred4VR s) :=
  predictAround_profile _ rfl (fun _ => mem_three mem_dst mem_dst mem_dst) rfl

theorem pred4HD_profile (s : State) : Profile (.pred4HD) s (execPred4HD s) :=
  predictAround_profile _ rfl (fun _ => mem_three mem_dst mem_dst mem_dst) rfl

theorem pred4VL_profile (s : State) : Profile (.pred4VL) s (execPred4VL s) :=
  predictAround_profile _ rfl (fun _ => mem_one mem_dst) rfl

theorem pred4HU_profile (s : State) : Profile (.pred4HU) s (execPred4HU s) :=
  predictAround_profile _ rfl (fun _ => mem_one mem_dst) rfl

theorem pred4DCL_profile (s : State) : Profile (.pred4DCL) s (execPred4DCL s) :=
  predictAround_profile _ rfl (fun _ => mem_one mem_dst) rfl

theorem pred4DCT_profile (s : State) : Profile (.pred4DCT) s (execPred4DCT s) :=
  predictAround_profile _ rfl (fun _ => mem_one mem_dst) rfl

theorem pred4DC128_profile (s : State) : Profile (.pred4DC128) s (execPred4DC128 s) :=
  predict128_profile rfl rfl rfl

theorem pred16V_profile (s : State) : Profile (.pred16V) s (execPred16V s) :=
  predictAround_profile _ rfl (fun _ => mem_one mem_dst) rfl

theorem pred16H_profile (s : State) : Profile (.pred16H) s (execPred16H s) :=
  predictAround_profile _ rfl (fun _ => mem_one mem_dst) rfl

theorem pred16DC_profile (s : State) : Profile (.pred16DC) s (execPred16DC s) :=
  predictAround_profile _ rfl (fun _ => mem_two mem_dst mem_dst) rfl

theorem pred16DCL_profile (s : State) : Profile (.pred16DCL) s (execPred16DCL s) :=
  predictAround_profile _ rfl (fun _ => mem_one mem_dst) rfl

theorem pred16DCT_profile (s : State) : Profile (.pred16DCT) s (execPred16DCT s) :=
  predictAround_profile _ rfl (fun _ => mem_one mem_dst) rfl

theorem pred16DC128_profile (s : State) : Profile (.pred16DC128) s (execPred16DC128 s) :=
  predict128_profile rfl rfl rfl

theorem pred16P_profile (s : State) : Profile (.pred16P) s (execPred16P s) :=
  predictAround_profile _ rfl (fun _ => mem_three mem_dst mem_dst mem_dst) rfl

theorem predCV_profile (s : State) : Profile (.predCV) s (execPredCV s) :=
  predictAround_profile _ rfl (fun _ => mem_one mem_dst) rfl

theorem predCH_profile (s : State) : Profile (.predCH) s (execPredCH s) :=
  predictAround_profile _ rfl (fun _ => mem_one mem_dst) rfl

theorem predCDC_profile (s : State) : Profile (.predCDC) s (execPredCDC s) :=
  predictAround_profile _ rfl (fun _ => mem_two mem_dst mem_dst) rfl

theorem predCDCL_profile (s : State) : Profile (.predCDCL) s (execPredCDCL s) :=
  predictAround_profile _ rfl (fun _ => mem_one mem_dst) rfl

theorem predCDCT_profile (s : State) : Profile (.predCDCT) s (execPredCDCT s) :=
  predictAround_profile _ rfl (fun _ => mem_one mem_dst) rfl

theorem predCDC128_profile (s : State) : Profile (.predCDC128) s (execPredCDC128 s) :=
  predict128_profile rfl rfl rfl

theorem predCP_profile (s : State) : Profile (.predCP) s (execPredCP s) :=
  predictAround_profile _ rfl (fun _ => mem_three mem_dst mem_dst mem_dst) rfl

theorem pred8V_profile (s : State) : Profile (.pred8V) s (execPred8V s) :=
  predictEdge_profile _ rfl rfl rfl

theorem pred8H_profile (s : State) : Profile (.pred8H) s (execPred8H s) :=
  predictEdge_profile _ rfl rfl rfl

theorem pred8DC_profile (s : State) : Profile (.pred8DC) s (execPred8DC s) :=
  predictEdge_profile _ rfl rfl rfl

theorem pred8DDL_profile (s : State) : Profile (.pred8DDL) s (execPred8DDL s) :=
  predictEdge_profile _ rfl rfl rfl

theorem pred8DDR_profile (s : State) : Profile (.pred8DDR) s (execPred8DDR s) :=
  predictEdge_profile _ rfl rfl rfl

theorem pred8VR_profile (s : State) : Profile (.pred8VR) s (execPred8VR s) :=
  predictEdge_profile _ rfl rfl rfl

theorem pred8HD_profile (s : State) : Profile (.pred8HD) s (execPred8HD s) :=
  predictEdge_profile _ rfl rfl rfl

theorem pred8VL_profile (s : State) : Profile (.pred8VL) s (execPred8VL s) :=
  predictEdge_profile _ rfl rfl rfl

theorem pred8HU_profile (s : State) : Profile (.pred8HU) s (execPred8HU s) :=
  predictEdge_profile _ rfl rfl rfl

theorem pred8DCL_profile (s : State) : Profile (.pred8DCL) s (execPred8DCL s) :=
  predictEdge_profile _ rfl rfl rfl

theorem pred8DCT_profile (s : State) : Profile (.pred8DCT) s (execPred8DCT s) :=
  predictEdge_profile _ rfl rfl rfl

theorem pred8DC128_profile (s : State) : Profile (.pred8DC128) s (execPred8DC128 s) :=
  predict128_profile rfl rfl rfl

theorem copy_profile (wc hc : SizeCode) (s : State) : Profile (.copy wc hc) s (execCopy wc hc s) :=
  fill_profile _ rfl (fun _ => mem_one mem_rows_block) rfl

theorem avg_profile (wc hc : SizeCode) (s : State) : Profile (.avg wc hc) s (execAvg wc hc s) :=
  fill_profile _ rfl (fun _ => mem_pairRuns) rfl

theorem hpelh_profile (wc hc : SizeCode) (s : State) : Profile (.hpelh wc hc) s (execHpelh wc hc s) :=
  fill_profile _ rfl (fun _ => mem_one mem_rows_block) rfl

theorem hpelv_profile (wc hc : SizeCode) (s : State) : Profile (.hpelv wc hc) s (execHpelv wc hc s) :=
  fill_profile _ rfl (fun _ => mem_one mem_rows_block) rfl

theorem hpelc_profile (wc hc : SizeCode) (s : State) : Profile (.hpelc wc hc) s (execHpelc wc hc s) :=
  fill_profile _ rfl (fun _ => mem_one mem_rows_block) rfl

/-- The control commands without checks of their own operands. -/
def isControl : Instr → Bool
  | .endList | .ldi _ _ | .init _ => true
  | _ => false

/-- Every other instruction follows the tables. -/
theorem exec_profile (i : Instr) (s : State) (h : isControl i = false) : Profile i s (exec i s) := by
  cases i with
  | endList => simp [isControl] at h
  | ldi r imm => simp [isControl] at h
  | init imm => simp [isControl] at h
  | stq r imm => exact stq_profile r imm s
  | sad wc hc => exact sad_profile wc hc s
  | ssd wc hc => exact ssd_profile wc hc s
  | satd wc hc => exact satd_profile wc hc s
  | sa8d wc hc => exact sa8d_profile wc hc s
  | sadx3 wc hc => exact sadx3_profile wc hc s
  | sadx4 wc hc => exact sadx4_profile wc hc s
  | ssdwh => exact ssdwh_profile s
  | ads1 => exact ads1_profile s
  | ads2 => exact ads2_profile s
  | ads4 => exact ads4_profile s
  | ssim4 => exact ssim4_profile s
  | fdct4 wc hc => exact fdct4_profile wc hc s
  | idct4 wc hc => exact idct4_profile wc hc s
  | fdct8 => exact fdct8_profile s
  | idct8 => exact idct8_profile s
  | fdc4 => exact fdc4_profile s
  | idc4 => exact idc4_profile s
  | fdc2 => exact fdc2_profile s
  | idc2 => exact idc2_profile s
  | quant4 => exact quant4_profile s
  | quant8 => exact quant8_profile s
  | quantdc4 => exact quantdc4_profile s
  | quantdc2 => exact quantdc2_profile s
  | zigzag4 => exact zigzag4_profile s
  | pred4V => exact pred4V_profile s
  | pred4H => exact pred4H_profile s
  | pred4DC => exact pred4DC_profile s
  | pred4DDL => exact pred4DDL_profile s
  | pred4DDR => exact pred4DDR_profile s
  | pred4VR => exact pred4VR_profile s
  | pred4HD => exact pred4HD_profile s
  | pred4VL => exact pred4VL_profile s
  | pred4HU => exact pred4HU_profile s
  | pred4DCL => exact pred4DCL_profile s
  | pred4DCT => exact pred4DCT_profile s
  | pred4DC128 => exact pred4DC128_profile s
  | pred16V => exact pred16V_profile s
  | pred16H => exact pred16H_profile s
  | pred16DC => exact pred16DC_profile s
  | pred16DCL => exact pred16DCL_profile s
  | pred16DCT => exact pred16DCT_profile s
  | pred16DC128 => exact pred16DC128_profile s
  | pred16P => exact pred16P_profile s
  | predCV => exact predCV_profile s
  | predCH => exact predCH_profile s
  | predCDC => exact predCDC_profile s
  | predCDCL => exact predCDCL_profile s
  | predCDCT => exact predCDCT_profile s
  | predCDC128 => exact predCDC128_profile s
  | predCP => exact predCP_profile s
  | pred8V => exact pred8V_profile s
  | pred8H => exact pred8H_profile s
  | pred8DC => exact pred8DC_profile s
  | pred8DDL => exact pred8DDL_profile s
  | pred8DDR => exact pred8DDR_profile s
  | pred8VR => exact pred8VR_profile s
  | pred8HD => exact pred8HD_profile s
  | pred8VL => exact pred8VL_profile s
  | pred8HU => exact pred8HU_profile s
  | pred8DCL => exact pred8DCL_profile s
  | pred8DCT => exact pred8DCT_profile s
  | pred8DC128 => exact pred8DC128_profile s
  | mcluma wc hc => exact mcluma_profile wc hc s
  | mcchroma wc hc => exact mcchroma_profile wc hc s
  | copy wc hc => exact copy_profile wc hc s
  | avg wc hc => exact avg_profile wc hc s
  | hpelh wc hc => exact hpelh_profile wc hc s
  | hpelv wc hc => exact hpelv_profile wc hc s
  | hpelc wc hc => exact hpelc_profile wc hc s

/-! ## When the checks pass -/

theorem paramsCheck_eq_none {ps : List (Fin 16 × Bool)} {s : State} :
    paramsCheck ps s = none ↔ ∀ p ∈ ps, p.2 = true := by
  induction ps with
  | nil => simp [paramsCheck]
  | cons p ps ih =>
    obtain ⟨r, ok⟩ := p
    cases ok <;> simp [paramsCheck, ih]

theorem namedSizeCheck_eq_none {i : Instr} {s : State} : namedSizeCheck i s = none ↔ sizeOk i = true := by
  unfold namedSizeCheck sizeOk
  cases i.size? with
  | none => simp
  | some p =>
    obtain ⟨set, wc, hc⟩ := p
    simp only [sizeCheck_eq_none, sizesOf_contains]

theorem storeAlignment_eq_none {imm : Word} {s : State} : storeAlignment imm s = none ↔ imm.toNat % 4 = 0 := by
  unfold storeAlignment; split <;> simp_all

/-- The operation commands: neither control nor `STQ`. -/
def isOperation : Instr → Bool
  | .endList | .ldi _ _ | .init _ | .stq _ _ => false
  | _ => true

theorem standardChecks_operation {i : Instr} (h : isOperation i = true) (s : State) :
    standardChecks i s = [notInitialized i, namedSizeCheck i, paramsCheck (params i s), nullCheck (bases i s),
      strideCheck (strides i s).2 (strides i s).1, alignCheck (arrays i)] := by
  cases i <;> first | rfl | (simp [isOperation] at h)

theorem dispatchOk_operation {i : Instr} (h : isOperation i = true) (s : State) : dispatchOk i s = s.inited := by
  cases i <;> first | rfl | (simp [isOperation] at h)

theorem immediateOk_operation {i : Instr} (h : isOperation i = true) : immediateOk i = true := by
  cases i <;> first | rfl | (simp [isOperation] at h)

theorem stq_of_not_operation {i : Instr} (h : isControl i = false) (ho : ¬isOperation i = true) :
    ∃ r imm, i = .stq r imm := by
  cases i <;> simp_all [isControl, isOperation]

/-- The checks before the access check pass exactly when steps 4 to 9 of 60_exceptions.md R333 do. -/
theorem standardChecks_pass {i : Instr} {s : State} (h : isControl i = false) :
    firstFailure (standardChecks i s) s = none ↔ PassesAlignment i s := by
  by_cases ho : isOperation i = true
  · rw [standardChecks_operation ho, firstFailure_eq_none]
    simp only [List.forall_mem_cons, notInitialized_eq_none, namedSizeCheck_eq_none, paramsCheck_eq_none,
      nullCheck_eq_none, strideCheck_eq_none, alignCheck_eq_none]
    constructor
    · rintro ⟨h1, h2, h3, h4, h5, h6, -⟩
      exact ⟨⟨⟨⟨⟨(dispatchOk_operation ho s).trans h1, h2⟩, h3⟩, h4⟩, h5⟩, h6, immediateOk_operation ho⟩
    · rintro ⟨⟨⟨⟨⟨h1, h2⟩, h3⟩, h4⟩, h5⟩, h6, -⟩
      exact ⟨(dispatchOk_operation ho s).symm.trans h1, h2, h3, h4, h5, h6, by simp⟩
  · obtain ⟨r, imm, rfl⟩ := stq_of_not_operation h ho
    · show firstFailure [storeAlignment imm] s = none ↔ _
      rw [firstFailure_eq_none]
      simp only [List.forall_mem_cons, storeAlignment_eq_none]
      constructor
      · rintro ⟨h1, -⟩
        exact ⟨⟨⟨⟨⟨rfl, rfl⟩, by simp [params]⟩, fun r hr => absurd hr List.not_mem_nil⟩,
          fun r hr => absurd hr List.not_mem_nil⟩, by simp [arrays], by simp [immediateOk, h1]⟩
      · rintro ⟨-, -, h⟩
        exact ⟨by simpa [immediateOk] using h, by simp⟩

/-- `END` and `LDI` are always accepted, `INIT` exactly while *uninitialized*. -/
theorem accepts_bare {i : Instr} {s : State} (hd : dispatchOk i s = true) (hs : sizeOk i = true) (hp : params i s = [])
    (hb : bases i s = []) (ht : (strides i s).1 = []) (ha : arrays i = []) (hi : immediateOk i = true)
    (hr : reads i s = []) (hw : writes i s = []) : Accepts i s :=
  ⟨⟨⟨⟨⟨⟨hd, hs⟩, by simp [hp]⟩, by simp [hb]⟩, by simp [ht]⟩, by simp [ha], hi⟩,
    by rw [hr]; exact fun r h => absurd h List.not_mem_nil, by rw [hw]; exact fun r h => absurd h List.not_mem_nil⟩

theorem accepts_endList (s : State) : Accepts .endList s := accepts_bare rfl rfl rfl rfl rfl rfl rfl rfl rfl

theorem accepts_ldi (r : Fin 16) (imm : Word) (s : State) : Accepts (.ldi r imm) s :=
  accepts_bare rfl rfl rfl rfl rfl rfl rfl rfl rfl

theorem accepts_init (imm : Word) (s : State) : Accepts (.init imm) s ↔ s.inited = false := by
  constructor
  · intro h
    have : (!s.inited) = true := h.1.1.1.1.1.1
    simpa using this
  · intro h
    exact accepts_bare (by show (!s.inited) = true; simp [h]) rfl rfl rfl rfl rfl rfl rfl rfl

/-- A store or operation command completes or raises, and which of the two. -/
theorem exec_outcomes (i : Instr) (s : State) (h : isControl i = false) :
    (¬Accepts i s ∧ ∃ v, exec i s = .next (s.raise v)) ∨
      (Accepts i s ∧ ∃ (w : List Run) (e : Effect), (∀ a, a ∈ addresses w ↔ Reaches (writes i s) a) ∧
        (∀ c ∈ e.results, c.1 ∈ resultRegisters i) ∧ exec i s = .next (s.commit w e).advance) := by
  obtain ⟨f, e, hf, hq, he⟩ := exec_profile i s h
  rw [firstFailure_append_one] at he
  cases hs : firstFailure (standardChecks i s) s with
  | some v =>
    rw [hs] at he
    refine .inl ⟨fun ha => ?_, v, he⟩
    rw [(standardChecks_pass h).2 ha.1] at hs
    cases hs
  | none =>
    rw [hs] at he
    have hp := (standardChecks_pass h).1 hs
    obtain ⟨hr, hw⟩ := hf hp.1.1.1.1.2
    have ha : accessCheck (fun _ => f) s = none ↔ s.allInMemory (reads i s) ∧ s.allInMemory (writes i s) := by
      rw [accessCheck_eq_none, allInMemory_iff, allInMemory_iff]
      exact and_congr (forall_congr' fun a => imp_congr (hr a) Iff.rfl) (forall_congr' fun a => imp_congr (hw a) Iff.rfl)
    cases hc : accessCheck (fun _ => f) s with
    | some v =>
      rw [hc] at he
      refine .inl ⟨fun hA => ?_, v, he⟩
      rw [ha.2 hA.2] at hc
      cases hc
    | none =>
      rw [hc] at he
      exact .inr ⟨⟨hp, ha.1 hc⟩, f.writes, e, hw, hq, he⟩

/-- Every instruction answers a next state from every state: no meaning ends in a fault or a refusal. -/
theorem exec_answers (i : Instr) (s : State) : ∃ t, exec i s = .next t := by
  by_cases hc : isControl i = true
  · cases i <;> simp [isControl] at hc
    · exact ⟨_, rfl⟩
    · exact ⟨_, rfl⟩
    · simp only [exec, execInit]
      split <;> exact ⟨_, rfl⟩
  · rcases exec_outcomes i s (by simpa using hc) with ⟨-, v, he⟩ | ⟨-, w, e, -, -, he⟩ <;> exact ⟨_, he⟩

end Sys2Proof.Machine
end

