-- ==== Sys2Proof/Laws/PerInstr.lean ====
section
/-! SUPPORT. For every instruction: the reserved bits of its control word are zero (30_encoding.md R81, R83). -/

namespace Sys2Proof.Laws.ReservedZero

/-- Bits [31:22] of `W0` are zero (30_encoding.md R81). -/
def Statement (i : Instr) : Prop := reservedField (encodeWords i).1 = 0

theorem reserved_packW0 (op : BitVec 8) (r : BitVec 4) (wc hc : BitVec 2) (mode : BitVec 4) (cls : BitVec 2) :
    reservedField (packW0 op r wc hc mode cls) = 0 := by
  ext j hj
  simp only [reservedField, packW0, BitVec.getElem_extractLsb', BitVec.getLsbD_append]
  simp [show ¬22 + j < 8 by omega, show ¬22 + j - 8 < 4 by omega, show ¬22 + j - 8 - 4 < 2 by omega,
    show ¬22 + j - 8 - 4 - 2 < 2 by omega, show ¬22 + j - 8 - 4 - 2 - 2 < 4 by omega,
    show ¬22 + j - 8 - 4 - 2 - 2 - 4 < 2 by omega]

theorem statement_formatI (op : BitVec 8) (r : BitVec 4) (imm : Word) : reservedField (formatI op r imm).1 = 0 :=
  reserved_packW0 ..

theorem statement_formatB (op : BitVec 8) (wc hc : SizeCode) : reservedField (formatB op wc hc).1 = 0 :=
  reserved_packW0 ..

theorem endList : Statement .endList := reserved_packW0 ..
theorem ldi (r : Fin 16) (imm : Word) : Statement (.ldi r imm) := statement_formatI _ _ imm
theorem stq (r : Fin 4) (imm : Word) : Statement (.stq r imm) := statement_formatI _ _ imm
theorem init (imm : Word) : Statement (.init imm) := statement_formatI _ _ imm
theorem sad (wc hc : SizeCode) : Statement (.sad wc hc) := statement_formatB _ wc hc
theorem sadx3 (wc hc : SizeCode) : Statement (.sadx3 wc hc) := statement_formatB _ wc hc
theorem sadx4 (wc hc : SizeCode) : Statement (.sadx4 wc hc) := statement_formatB _ wc hc
theorem ssd (wc hc : SizeCode) : Statement (.ssd wc hc) := statement_formatB _ wc hc
theorem ssdwh : Statement .ssdwh := reserved_packW0 ..
theorem satd (wc hc : SizeCode) : Statement (.satd wc hc) := statement_formatB _ wc hc
theorem sa8d (wc hc : SizeCode) : Statement (.sa8d wc hc) := statement_formatB _ wc hc
theorem ads1 : Statement .ads1 := reserved_packW0 ..
theorem ads2 : Statement .ads2 := reserved_packW0 ..
theorem ads4 : Statement .ads4 := reserved_packW0 ..
theorem ssim4 : Statement .ssim4 := reserved_packW0 ..
theorem fdct4 (wc hc : SizeCode) : Statement (.fdct4 wc hc) := statement_formatB _ wc hc
theorem idct4 (wc hc : SizeCode) : Statement (.idct4 wc hc) := statement_formatB _ wc hc
theorem fdct8 : Statement .fdct8 := reserved_packW0 ..
theorem idct8 : Statement .idct8 := reserved_packW0 ..
theorem fdc4 : Statement .fdc4 := reserved_packW0 ..
theorem idc4 : Statement .idc4 := reserved_packW0 ..
theorem fdc2 : Statement .fdc2 := reserved_packW0 ..
theorem idc2 : Statement .idc2 := reserved_packW0 ..
theorem quant4 : Statement .quant4 := reserved_packW0 ..
theorem quant8 : Statement .quant8 := reserved_packW0 ..
theorem quantdc4 : Statement .quantdc4 := reserved_packW0 ..
theorem quantdc2 : Statement .quantdc2 := reserved_packW0 ..
theorem zigzag4 : Statement .zigzag4 := reserved_packW0 ..
theorem pred4V : Statement .pred4V := reserved_packW0 ..
theorem pred4H : Statement .pred4H := reserved_packW0 ..
theorem pred4DC : Statement .pred4DC := reserved_packW0 ..
theorem pred4DDL : Statement .pred4DDL := reserved_packW0 ..
theorem pred4DDR : Statement .pred4DDR := reserved_packW0 ..
theorem pred4VR : Statement .pred4VR := reserved_packW0 ..
theorem pred4HD : Statement .pred4HD := reserved_packW0 ..
theorem pred4VL : Statement .pred4VL := reserved_packW0 ..
theorem pred4HU : Statement .pred4HU := reserved_packW0 ..
theorem pred4DCL : Statement .pred4DCL := reserved_packW0 ..
theorem pred4DCT : Statement .pred4DCT := reserved_packW0 ..
theorem pred4DC128 : Statement .pred4DC128 := reserved_packW0 ..
theorem pred8V : Statement .pred8V := reserved_packW0 ..
theorem pred8H : Statement .pred8H := reserved_packW0 ..
theorem pred8DC : Statement .pred8DC := reserved_packW0 ..
theorem pred8DDL : Statement .pred8DDL := reserved_packW0 ..
theorem pred8DDR : Statement .pred8DDR := reserved_packW0 ..
theorem pred8VR : Statement .pred8VR := reserved_packW0 ..
theorem pred8HD : Statement .pred8HD := reserved_packW0 ..
theorem pred8VL : Statement .pred8VL := reserved_packW0 ..
theorem pred8HU : Statement .pred8HU := reserved_packW0 ..
theorem pred8DCL : Statement .pred8DCL := reserved_packW0 ..
theorem pred8DCT : Statement .pred8DCT := reserved_packW0 ..
theorem pred8DC128 : Statement .pred8DC128 := reserved_packW0 ..
theorem pred16V : Statement .pred16V := reserved_packW0 ..
theorem pred16H : Statement .pred16H := reserved_packW0 ..
theorem pred16DC : Statement .pred16DC := reserved_packW0 ..
theorem pred16DCL : Statement .pred16DCL := reserved_packW0 ..
theorem pred16DCT : Statement .pred16DCT := reserved_packW0 ..
theorem pred16DC128 : Statement .pred16DC128 := reserved_packW0 ..
theorem pred16P : Statement .pred16P := reserved_packW0 ..
theorem predCV : Statement .predCV := reserved_packW0 ..
theorem predCH : Statement .predCH := reserved_packW0 ..
theorem predCDC : Statement .predCDC := reserved_packW0 ..
theorem predCDCL : Statement .predCDCL := reserved_packW0 ..
theorem predCDCT : Statement .predCDCT := reserved_packW0 ..
theorem predCDC128 : Statement .predCDC128 := reserved_packW0 ..
theorem predCP : Statement .predCP := reserved_packW0 ..
theorem mcluma (wc hc : SizeCode) : Statement (.mcluma wc hc) := statement_formatB _ wc hc
theorem mcchroma (wc hc : SizeCode) : Statement (.mcchroma wc hc) := statement_formatB _ wc hc
theorem copy (wc hc : SizeCode) : Statement (.copy wc hc) := statement_formatB _ wc hc
theorem avg (wc hc : SizeCode) : Statement (.avg wc hc) := statement_formatB _ wc hc
theorem hpelh (wc hc : SizeCode) : Statement (.hpelh wc hc) := statement_formatB _ wc hc
theorem hpelv (wc hc : SizeCode) : Statement (.hpelv wc hc) := statement_formatB _ wc hc
theorem hpelc (wc hc : SizeCode) : Statement (.hpelc wc hc) := statement_formatB _ wc hc

end Sys2Proof.Laws.ReservedZero
end

