-- ==== Sys2Proof/Laws/Races.lean ====
section
/-! SUPPORT. What a racing access can do, once (20_memory.md R67, 93_implementation_defined.md U3): the memory a command sees,
the memory it leaves, the list of racing values; and what a fetch and command can do. -/

namespace Sys2Proof.Machine

/-! ## Sets of addresses -/

theorem Rect.covers_iff {r : Rect} {a : Int} : r.covers a = true ↔ r.Has a := by
  simp only [Rect.covers, List.any_eq_true, List.mem_range, Rect.Has, Rect.addr]
  constructor
  · rintro ⟨y, hy, h⟩
    have h := of_decide_eq_true h
    exact ⟨(a - (r.base + (r.y0 + y) * r.stride + (r.x0 + 0))).toNat, by omega, y, hy, by omega⟩
  · rintro ⟨x, hx, y, hy, rfl⟩
    exact ⟨y, hy, decide_eq_true ⟨by omega, by omega⟩⟩

theorem covers_iff {rs : List Rect} {a : Int} : covers rs a = true ↔ Reaches rs a := by
  simp only [covers, List.any_eq_true, Rect.covers_iff, Reaches]

@[simp] theorem covers_nil (a : Int) : covers [] a = false := rfl

/-! ## The list of racing values -/

@[simp] theorem mem_note {c d : Host.Cell} {cs : List Host.Cell} : d ∈ note c cs ↔ d = c ∨ d ∈ cs := by
  unfold note
  split
  · exact ⟨.inr, fun h => h.elim (fun e => e ▸ ‹_›) id⟩
  · exact List.mem_cons

@[simp] theorem mem_foldr_note {d : Host.Cell} {new cs : List Host.Cell} :
    d ∈ new.foldr note cs ↔ d ∈ new ∨ d ∈ cs := by
  induction new with
  | nil => simp
  | cons c new ih => simp [ih, or_assoc]

/-- A value that a command adds belongs to a racing byte it wrote, and is the host's or its own. -/
theorem mem_newRaces {ws : List Rect} {host engine : Memory} {cs : List Host.Cell} {d : Host.Cell} :
    d ∈ newRaces ws host engine cs ↔
      (∃ v, (d.1, v) ∈ cs) ∧ covers ws d.1 = true ∧ (d.2 = host.read d.1 ∨ d.2 = engine.read d.1) := by
  obtain ⟨a, u⟩ := d
  simp only [newRaces, List.mem_flatMap, List.mem_filter, List.mem_cons, List.not_mem_nil, or_false, Prod.mk.injEq]
  constructor
  · rintro ⟨⟨b, v⟩, ⟨hc, hw⟩, ⟨rfl, rfl⟩ | ⟨rfl, rfl⟩⟩
    · exact ⟨⟨v, hc⟩, hw, .inl rfl⟩
    · exact ⟨⟨v, hc⟩, hw, .inr rfl⟩
  · rintro ⟨⟨v, hc⟩, hw, h⟩
    exact ⟨(a, v), ⟨hc, hw⟩, h.imp (fun e => ⟨rfl, e⟩) fun e => ⟨rfl, e⟩⟩

/-! ## The memory a command sees -/

theorem Memory.seen_wf {m : Memory} (hm : m.wf) (cs : List Host.Cell) (n : Nat) : (m.seen cs n).wf := by
  induction cs generalizing m n with
  | nil => exact hm
  | cons c cs ih =>
    refine ih ?_ (n + 1)
    split
    · exact Memory.write_wf hm _ _
    · exact hm

theorem Memory.seen_inside {m : Memory} {k : Nat} (hm : ∀ c ∈ m, c.1 < k) {cs : List Host.Cell}
    (hc : ∀ c ∈ cs, c.1 < k) (n : Nat) : ∀ c ∈ m.seen cs n, c.1 < k := by
  induction cs generalizing m n with
  | nil => exact hm
  | cons c cs ih =>
    refine ih (fun d hd => ?_) (fun d hd => hc d (List.mem_cons_of_mem _ hd)) (n + 1)
    split at hd
    · rcases Memory.mem_write hd with rfl | hd
      · exact hc c List.mem_cons_self
      · exact hm d hd
    · exact hm d hd

/-- A byte is seen as memory holds it, or as one of its racing values. -/
theorem Memory.read_seen {m : Memory} (hm : m.wf) (cs : List Host.Cell) (n a : Nat) :
    (m.seen cs n).read a = m.read a ∨ (a, (m.seen cs n).read a) ∈ cs := by
  induction cs generalizing m n with
  | nil => exact .inl rfl
  | cons c cs ih =>
    obtain ⟨b, v⟩ := c
    simp only [Memory.seen]
    split
    · rcases ih (Memory.write_wf hm b v) (n + 1) with h | h
      · by_cases hb : a = b
        · subst hb
          rw [Memory.read_write_same hm] at h
          exact .inr (by rw [h]; exact List.mem_cons_self)
        · rw [Memory.read_write_other hb] at h
          exact .inl h
      · exact .inr (List.mem_cons_of_mem _ h)
    · exact (ih hm (n + 1)).imp id (List.mem_cons_of_mem _)

/-- A byte that the host has not written in the run is seen as memory holds it. -/
theorem Memory.read_seen_other {m : Memory} (hm : m.wf) {cs : List Host.Cell} {a : Nat} (h : ∀ v, (a, v) ∉ cs) (n : Nat) :
    (m.seen cs n).read a = m.read a := (Memory.read_seen hm cs n a).resolve_right (h _)

/-! ## The memory a command leaves -/

theorem Memory.settle_wf {m : Memory} (hm : m.wf) (ws : List Rect) (host engine : Memory) (cs : List Host.Cell) (n : Nat) :
    (Memory.settle ws host engine cs n m).wf := by
  induction cs generalizing m n with
  | nil => exact hm
  | cons c cs ih => exact ih (Memory.write_wf hm _ _) (n + 1)

theorem Memory.settle_inside {m : Memory} {k : Nat} (hm : ∀ c ∈ m, c.1 < k) {cs : List Host.Cell}
    (hc : ∀ c ∈ cs, c.1 < k) (ws : List Rect) (host engine : Memory) (n : Nat) :
    ∀ c ∈ Memory.settle ws host engine cs n m, c.1 < k := by
  induction cs generalizing m n with
  | nil => exact hm
  | cons c cs ih =>
    refine ih (fun d hd => ?_) (fun d hd => hc d (List.mem_cons_of_mem _ hd)) (n + 1)
    rcases Memory.mem_write hd with rfl | hd
    · exact hc c List.mem_cons_self
    · exact hm d hd

/-- A byte after the races are settled: as it was, or, where the host has written it in the run, the host's or, where the
command wrote it too, the engine's. -/
theorem Memory.read_settle {m : Memory} (hm : m.wf) (ws : List Rect) (host engine : Memory) (cs : List Host.Cell)
    (n a : Nat) :
    ((∀ v, (a, v) ∉ cs) ∧ (Memory.settle ws host engine cs n m).read a = m.read a) ∨
      (∃ v, (a, v) ∈ cs) ∧
        ((Memory.settle ws host engine cs n m).read a = host.read a ∨
          covers ws a = true ∧ (Memory.settle ws host engine cs n m).read a = engine.read a) := by
  induction cs generalizing m n with
  | nil => exact .inl ⟨by simp, rfl⟩
  | cons c cs ih =>
    obtain ⟨b, u⟩ := c
    simp only [Memory.settle]
    generalize hw : (if covers ws b && Config.freeBit n then engine.read b else host.read b) = w
    rcases ih (Memory.write_wf hm b w) (n + 1) with ⟨hn, h⟩ | ⟨⟨v, hv⟩, h⟩
    · by_cases hb : a = b
      · subst hb
        rw [Memory.read_write_same hm] at h
        refine .inr ⟨⟨u, List.mem_cons_self⟩, ?_⟩
        rw [h, ← hw]
        split
        · rename_i hc
          exact .inr ⟨(Bool.and_eq_true_iff.1 hc).1, rfl⟩
        · exact .inl rfl
      · rw [Memory.read_write_other hb] at h
        refine .inl ⟨fun v hv => ?_, h⟩
        rcases List.mem_cons.1 hv with e | hv
        · exact hb (Prod.mk.inj e).1
        · exact hn v hv
    · exact .inr ⟨⟨v, List.mem_cons_of_mem _ hv⟩, h⟩

/-! ## While the host has written nothing in the run -/

theorem State.seen_of_raced_nil {s : State} (h : s.raced = []) : s.seen = s := by
  cases s
  simp only at h
  subst h
  rfl

theorem State.settle_of_raced_nil {s : State} (h : s.raced = []) (ws : List Rect) (t : State) :
    s.settle ws t = { t with raced := [], written := ws ++ t.written } := by
  simp only [State.settle, h]
  rfl

/-! ## What a command writes -/

/-- An ADS command hands the write phase as many bytes as it writes (41_metrics.md R127). -/
theorem adsEffect_bytes (off : List Int) (s : State) : (adsEffect off s).bytes.length = adsStored off s := by
  unfold adsEffect adsStored ranged
  split
  · have h (vs : List Int) : (coefBytes vs).length = 2 * vs.length := by
      induction vs with
      | nil => rfl
      | cons v vs ih =>
        rw [coefBytes, List.flatMap_cons, List.length_append, ← coefBytes, ih, leBytes, List.length_map,
          List.length_range, List.length_cons]
        omega
    rw [h, List.length_map]
  · simp [unspecified]

/-- The write phase leaves a byte that is not among the first `bytes.length` addresses of its run. -/
theorem commit_read_other {s : State} {e : Effect} {start : Int} {len a : Nat} (h0 : 0 ≤ start)
    (h : ¬(stretch start e.bytes.length).Has a) : (s.commit [⟨start, len⟩] e).mem.read a = s.mem.read a := by
  rw [State.commit_mem]
  refine Memory.read_storeAll_other fun c hc ha => h ?_
  obtain ⟨k, hk, rfl⟩ := List.mem_iff_getElem.1 hc
  rw [List.length_zip] at hk
  simp only [List.getElem_zip, List.getElem_map, addresses, List.flatMap_cons, List.flatMap_nil, List.append_nil,
    Run.addrs, List.getElem_range] at ha
  rw [has_stretch]
  omega

/-- A command leaves every byte that it does not write (20_memory.md R59, 41_metrics.md R127). -/
theorem exec_read_other {i : Instr} {s t : State} (h : exec i s = .next t) {a : Nat} (ha : ¬Reaches (storedBy i s) a) :
    t.mem.read a = s.mem.read a := by
  have list (j : Instr) (off : State → List Int) (hx : ads j off s = .next t)
      (hn : ¬Reaches [stretch (s.unsignedReg 0) (adsStored (off s) s)] a) : t.mem.read a = s.mem.read a := by
    rcases operation_cases j _ _ _ s with ⟨v, -, e⟩ | ⟨-, -, -, e⟩ <;> rw [ads, e] at hx <;> cases hx
    · rfl
    · refine commit_read_other (addr_nonneg s DST) ?_
      rw [adsEffect_bytes]
      exact fun hr => hn ⟨_, List.mem_singleton_self _, hr⟩
  by_cases hc : isControl i = true
  · cases i with
    | endList => cases h; rfl
    | ldi r imm => cases h; rfl
    | init imm =>
      simp only [exec, execInit] at h
      split at h <;> cases h <;> rfl
    | _ => cases hc
  · by_cases hl : i ∈ [Instr.ads1, .ads2, .ads4]
    · simp only [List.mem_cons, List.not_mem_nil, or_false] at hl
      rcases hl with rfl | rfl | rfl
      · exact list _ _ h ha
      · exact list _ _ h ha
      · exact list _ _ h ha
    · have hw : storedBy i s = writes i s := by cases i <;> first | rfl | simp at hl
      rcases exec_outcomes i s (by simpa using hc) with ⟨-, v, he⟩ | ⟨hA, w, e, hr, -, he⟩ <;>
        rw [he] at h <;> cases h
      · rfl
      · rw [State.advance_mem, State.commit_mem]
        refine Memory.read_storeAll_other fun c hm hca => ha ?_
        obtain ⟨b, hb, e⟩ := List.mem_map.1 (List.of_mem_zip hm).1
        have hb := (hr b).1 hb
        have h0 := (allInMemory_iff.1 hA.2.2 b hb).1
        rw [hw, show (a : Int) = b by omega]
        exact hb

/-- No instruction touches the record of the run. -/
theorem exec_keeps_record {i : Instr} {s t : State} (h : exec i s = .next t) :
    t.written = s.written ∧ t.raced = s.raced := by
  by_cases hc : isControl i = true
  · cases i with
    | endList => cases h; exact ⟨rfl, rfl⟩
    | ldi r imm => cases h; exact ⟨rfl, rfl⟩
    | init imm =>
      simp only [exec, execInit] at h
      split at h <;> cases h <;> exact ⟨rfl, rfl⟩
    | _ => cases hc
  · rcases exec_outcomes i s (by simpa using hc) with ⟨-, v, he⟩ | ⟨-, w, e, -, -, he⟩ <;>
      rw [he] at h <;> cases h <;> exact ⟨rfl, rfl⟩

/-! ## The fetch and the command -/

/-- Everything a fetch and command can do: the two fetch faults, an illegal command, a command that faults, a command that
completes. -/
theorem State.fetchAndRun_cases (s : State) :
    (s.cp.toNat % 8 ≠ 0 ∧ s.fetchAndRun = .next (s.raise ⟨.misaligned, s.cp⟩)) ∨
    (s.cp.toNat % 8 = 0 ∧ s.cfg.memSize < s.cp.toNat + 8 ∧ s.fetchAndRun = .next (s.raise ⟨.access, s.cp⟩)) ∨
    (s.canFetch ∧ (∃ e, decode (s.seen.mem.fetch s.cp.toNat) = .error e) ∧
      s.fetchAndRun = .next
        ({ s with fresh := s.fresh + s.raced.length }.raise ⟨.illegalCommand, s.seen.mem.w0 s.cp.toNat⟩)) ∨
    (s.canFetch ∧ ∃ i t, decode (s.seen.mem.fetch s.cp.toNat) = .ok i ∧ exec i s.seen = .next t ∧
      ((t.st = .faulted ∧ s.fetchAndRun = .next { t with mem := s.mem }) ∨
        (t.st ≠ .faulted ∧ s.fetchAndRun = .next (s.settle (storedBy i s.seen) t)))) := by
  unfold State.fetchAndRun
  by_cases h1 : s.cp.toNat % 8 ≠ 0
  · exact .inl ⟨h1, if_pos h1⟩
  · by_cases h2 : s.cfg.memSize < s.cp.toNat + 8
    · exact .inr (.inl ⟨by omega, h2, by rw [if_neg h1, if_pos h2]⟩)
    · have hf : s.canFetch := ⟨by omega, by omega⟩
      rw [if_neg h1, if_neg h2]
      cases hd : decode (s.seen.mem.fetch s.cp.toNat) with
      | error e => exact .inr (.inr (.inl ⟨hf, ⟨e, rfl⟩, rfl⟩))
      | ok i =>
        obtain ⟨t, ht⟩ := exec_answers i s.seen
        refine .inr (.inr (.inr ⟨hf, i, t, rfl, ht, ?_⟩))
        by_cases hs : t.st = .faulted
        · exact .inl ⟨hs, by simp only [ht, State.afterCommand, if_pos hs]⟩
        · exact .inr ⟨hs, by simp only [ht, State.afterCommand, if_neg hs]⟩

/-- A fetch and command always answers a next state. -/
theorem State.fetchAndRun_answers (s : State) : ∃ t, s.fetchAndRun = .next t := by
  rcases s.fetchAndRun_cases with ⟨-, h⟩ | ⟨-, -, h⟩ | ⟨-, -, h⟩ | ⟨-, i, t, -, -, ⟨-, h⟩ | ⟨-, h⟩⟩ <;> exact ⟨_, h⟩

/-- A step of a running engine is the fetch and command on the state with the move taken from the schedule. -/
theorem step_of_ready {s : State} (h : s.ready) : step s = s.popMove.fetchAndRun := by
  obtain ⟨hw, hs, hm⟩ := h
  unfold step State.nextMove
  unfold State.move at hm
  split
  · rename_i e
    have hp : s.popMove = s := by cases s; simp_all [State.popMove]
    rw [hp]; simp [State.engineMove, hw, hs]
  · rename_i ms e
    have hp : s.popMove = { s with moves := ms } := by simp [State.popMove, e]
    rw [hp]; simp [State.engineMove, hw, hs]
  · rename_i op ms e
    rw [e] at hm
    cases hm

theorem step_answers {s : State} (h : s.ready) : ∃ t, step s = .next t :=
  step_of_ready h ▸ s.popMove.fetchAndRun_answers

/-! ## The run ahead -/

theorem State.runAlone_stopped {s : State} (h : s.st ≠ .running) (n : Nat) : s.runAlone n = s := by
  cases n with
  | zero => rfl
  | succ n => simp only [State.runAlone, if_neg h]

theorem State.runAlone_running {s t : State} (h : s.st = .running) (ht : s.fetchAndRun = .next t) (n : Nat) :
    s.runAlone (n + 1) = t.runAlone n := by
  simp only [State.runAlone, if_pos h, ht]

/-- Running on from where a run stands is one run. -/
theorem State.runAlone_add (s : State) (m n : Nat) : s.runAlone (m + n) = (s.runAlone m).runAlone n := by
  induction m generalizing s with
  | zero => rw [Nat.zero_add]; rfl
  | succ m ih =>
    by_cases h : s.st = .running
    · obtain ⟨t, ht⟩ := s.fetchAndRun_answers
      rw [Nat.add_right_comm, State.runAlone_running h ht, State.runAlone_running h ht, ih]
    · simp only [State.runAlone_stopped h]

/-- The run ahead is the engine's run at some number of commands, the bound at least. -/
theorem State.runAhead_eq (s : State) :
    ∃ n, s.runBound ≤ n ∧ s.runAhead = State.runAlone n { s with moves := [] } := by
  unfold State.runAhead
  by_cases h : (State.runAlone s.runBound { s with moves := [] }).st = .running
  · exact ⟨s.runBound + Config.freeCount s.fresh, Nat.le_add_right .., by rw [State.runAlone_add]; exact if_pos h⟩
  · exact ⟨s.runBound, Nat.le_refl _, if_neg h⟩

/-- The step's record: a completed command adds what it wrote, any other outcome adds nothing. -/
theorem State.fetchAndRun_written {s t : State} (h : s.fetchAndRun = .next t) : ∃ ws, t.written = ws ++ s.written := by
  rcases s.fetchAndRun_cases with ⟨-, e⟩ | ⟨-, -, e⟩ | ⟨-, -, e⟩ | ⟨-, i, u, -, hu, ⟨-, e⟩ | ⟨-, e⟩⟩ <;>
    rw [e] at h <;> cases h
  · exact ⟨[], rfl⟩
  · exact ⟨[], rfl⟩
  · exact ⟨[], rfl⟩
  · exact ⟨[], (exec_keeps_record hu).1⟩
  · exact ⟨storedBy i s.seen, by rw [State.settle_written, (exec_keeps_record hu).1]; rfl⟩

/-- What the run has written stays written. -/
theorem State.runAlone_written (s : State) (n : Nat) : ∃ ws, (s.runAlone n).written = ws ++ s.written := by
  induction n generalizing s with
  | zero => exact ⟨[], rfl⟩
  | succ n ih =>
    by_cases h : s.st = .running
    · obtain ⟨t, ht⟩ := s.fetchAndRun_answers
      obtain ⟨ws, hw⟩ := State.fetchAndRun_written ht
      obtain ⟨vs, hv⟩ := ih t
      exact ⟨vs ++ ws, by rw [State.runAlone_running h ht, hv, hw, List.append_assoc]⟩
    · exact ⟨[], by rw [State.runAlone_stopped h]; rfl⟩

/-- The host's write during a run leaves every other byte, and the byte is the host's value, or the one it held where a
command of the run has written it. -/
theorem State.racingWrite_read {s : State} (hm : s.mem.wf) (a : Nat) (v : Byte) :
    ((s.racingWrite a v).mem.read a = v ∨
        covers s.written a = true ∧ (s.racingWrite a v).mem.read a = s.mem.read a) ∧
      ∀ b, b ≠ a → (s.racingWrite a v).mem.read b = s.mem.read b := by
  rw [State.racingWrite_mem]
  split
  · rename_i h
    rw [Bool.and_eq_true] at h
    exact ⟨.inr ⟨h.1, rfl⟩, fun _ _ => rfl⟩
  · exact ⟨.inl (Memory.read_write_same hm a v), fun b hb => Memory.read_write_other hb v⟩

theorem State.racingWrite_wf {s : State} (hm : s.mem.wf) (a : Nat) (v : Byte) : (s.racingWrite a v).mem.wf := by
  rw [State.racingWrite_mem]
  split
  · exact hm
  · exact Memory.write_wf hm a v

end Sys2Proof.Machine
end

