-- ==== Sys2Proof/Tests/Slice0.lean ====
section
/-! SUPPORT. The model's own tests. Expected numbers are those of the spec: the vectors `T<n>` and examples `X<n>` of
95_test_vectors.md and the worked examples of the rules. Then the witnesses: for every statement with hypotheses a concrete
state and operands that meet them. -/

namespace Sys2Proof.Tests

open Sys2Proof.Machine

set_option Elab.async false

/-! ## Building a state and looking at an outcome -/

/-- The cells of a `w×h` block of bytes. -/
def grid (base stride w h : Nat) (f : Nat → Nat → Nat) : Memory :=
  ((List.range h).flatMap fun y => (List.range w).map fun x => (base + y * stride + x, BitVec.ofNat 8 (f x y))).filter
    fun c => c.2 ≠ 0

/-- Consecutive bytes. -/
def bytes (base : Nat) (vs : List Nat) : Memory := grid base 0 vs.length 1 fun x _ => vs.getD x 0

/-- Consecutive little-endian numbers of `n` bytes. -/
def numbers (n base : Nat) (vs : List Int) : Memory :=
  grid base n n vs.length fun x y => ((vs.getD y 0) / 256 ^ x % 256).toNat

/-- The state before a command: 95_test_vectors.md section 0, with the engine at the command. -/
def before (regs : List (Fin 16 × Word)) (mem : Memory) : State :=
  { State.reset with
    g := regs.foldl (fun g c => g.set c.1 c.2) (Vector.replicate 16 0)
    mem := mem
    inited := true
    st := .running
    cp := 0x100 }

/-- The state after, where there is one. -/
def after (o : Out) : State :=
  match o with
  | .next s => s
  | _ => State.reset

/-- The command completed. -/
def done (o : Out) : Bool := (after o).st == .running && (after o).cp == 0x108

/-- The `w×h` block of bytes at an address. -/
def blockAt (o : Out) (base stride w h : Nat) : List (List Int) :=
  (List.range h).map fun y => (List.range w).map fun x => byteAt (after o).mem ↑(base + y * stride + x)

/-- `n` coefficients at an address. -/
def coefsAt (o : Out) (base n : Nat) : List Int := (List.range n).map fun k => s16At (after o).mem ↑(base + 2 * k)

/-- The fault taken: its cause, the information, the faulting command. -/
def faultOf (o : Out) : Option (Cause × Word × Word) :=
  if (after o).st = .faulted then (after o).fcause.map fun c => (c, (after o).finfo, (after o).fcp) else none

/-- Fixture F of 95_test_vectors.md. -/
def patternA (x y : Nat) : Nat := (37 * x + 101 * y + 11) % 256
def patternB (x y : Nat) : Nat := (59 * x + 17 * y + 200) % 256
def patternC (x y : Nat) : Nat := min 255 (patternA x y + (3 * x + 5 * y) % 7 - 3)

def fixtureRegs : List (Fin 16 × Word) := [(0, 0x6000), (1, 32), (2, 0x2000), (3, 32), (4, 0x3000), (5, 48)]

def fixtureAB (n : Nat) : State :=
  before fixtureRegs (grid 0x2000 32 n n patternA ++ grid 0x3000 48 n n patternB)
def fixtureAC (n : Nat) : State :=
  before fixtureRegs (grid 0x2000 32 n n patternA ++ grid 0x3000 48 n n patternC)

/-! ## What WellFormed refuses (30_encoding.md R87, T5): a size outside each set, and the reserved codes -/

theorem test_wf_refuses_metric7 :
    [Instr.sad .sixteen .four, .sadx3 .sixteen .four, .sadx4 .four .sixteen, .ssd .four .sixteen, .satd .four .sixteen,
      .sad .reserved .four, .sad .four .reserved, .sad .reserved .reserved].map Instr.wf = List.replicate 8 false := by
  decide

theorem test_wf_refuses_sa8d2 :
    [Instr.sa8d .four .four, .sa8d .eight .sixteen, .sa8d .sixteen .eight, .sa8d .reserved .reserved].map Instr.wf
      = List.replicate 4 false := by decide

theorem test_wf_refuses_square3 :
    [Instr.fdct4 .eight .four, .idct4 .four .sixteen, .fdct4 .reserved .reserved].map Instr.wf
      = List.replicate 3 false := by decide

theorem test_wf_refuses_mc9 :
    [Instr.mcluma .reserved .four, .copy .four .reserved, .hpelc .reserved .reserved].map Instr.wf
      = List.replicate 3 false := by decide

theorem test_wf_accepts :
    [Instr.endList, .ldi 15 0, .stq 3 1, .init 5, .sad .sixteen .eight, .sa8d .eight .eight, .fdct4 .sixteen .sixteen,
      .copy .sixteen .four, .mcluma .four .sixteen, .predCP].map Instr.wf = List.replicate 10 true := by decide

/-! ## Decoding (30_encoding.md R81 to R95; T1, T2) -/

/-- The instruction two words stand for. -/
def read (w0 w1 : Word) : Option Instr := (decodeWords w0 w1).toOption

theorem test_decode_control :
    [read 0x00000001 0, read 0x00000902 0xFFFFFFFB, read 0x00000F02 0xFFFFFFFF, read 0x00000303 0xFFFC,
      read 0x00000004 0xABC]
    = [some .endList, some (.ldi 9 0xFFFFFFFB), some (.ldi 15 0xFFFFFFFF), some (.stq 3 0xFFFC), some (.init 0xABC)] := by
  decide +kernel

theorem test_decode_bytes :
    decode [0x03, 0x03, 0x00, 0x00, 0xFC, 0xFF, 0x00, 0x00] = .ok (.stq 3 0xFFFC) ∧
      decode [0x46, 0x60, 0, 0, 0, 0, 0, 0] = .ok (.hpelc .sixteen .eight) := by decide +kernel

theorem test_decode_metrics :
    [0x00006010, 0x00005011, 0x0000A012, 0x00000013, 0x00000014, 0x00001015, 0x00005016, 0x00000017, 0x00000018,
      0x00000019, 0x0000001A].map (read · 0)
    = [some (.sad .sixteen .eight), some (.sadx3 .eight .eight), some (.sadx4 .sixteen .sixteen), some (.ssd .four .four),
      some .ssdwh, some (.satd .eight .four), some (.sa8d .eight .eight), some .ads1, some .ads2, some .ads4,
      some .ssim4] := by decide +kernel

theorem test_decode_transforms :
    [0x0000A020, 0x00005021, 0x00000022, 0x00000023, 0x00000024, 0x00000025, 0x00000026, 0x00000027, 0x00000028,
      0x00000029, 0x0000002A, 0x0000002B, 0x0000002C].map (read · 0)
    = [some (.fdct4 .sixteen .sixteen), some (.idct4 .eight .eight), some .fdct8, some .idct8, some .fdc4, some .idc4,
      some .fdc2, some .idc2, some .quant4, some .quant8, some .quantdc4, some .quantdc2, some .zigzag4] := by
  decide +kernel

theorem test_decode_pred4 :
    [0x00000030, 0x00010030, 0x00020030, 0x00030030, 0x00040030, 0x00050030, 0x00060030, 0x00070030, 0x00080030,
      0x00090030, 0x000A0030, 0x000B0030].map (read · 0)
    = [some .pred4V, some .pred4H, some .pred4DC, some .pred4DDL, some .pred4DDR, some .pred4VR, some .pred4HD,
      some .pred4VL, some .pred4HU, some .pred4DCL, some .pred4DCT, some .pred4DC128] := by decide +kernel

theorem test_decode_pred8 :
    [0x00100030, 0x00110030, 0x00120030, 0x00130030, 0x00140030, 0x00150030, 0x00160030, 0x00170030, 0x00180030,
      0x00190030, 0x001A0030, 0x001B0030].map (read · 0)
    = [some .pred8V, some .pred8H, some .pred8DC, some .pred8DDL, some .pred8DDR, some .pred8VR, some .pred8HD,
      some .pred8VL, some .pred8HU, some .pred8DCL, some .pred8DCT, some .pred8DC128] := by decide +kernel

theorem test_decode_pred16_chroma :
    [0x00200030, 0x00210030, 0x00220030, 0x00290030, 0x002A0030, 0x002B0030, 0x002C0030, 0x00300030, 0x00310030,
      0x00320030, 0x00390030, 0x003A0030, 0x003B0030, 0x003C0030].map (read · 0)
    = [some .pred16V, some .pred16H, some .pred16DC, some .pred16DCL, some .pred16DCT, some .pred16DC128, some .pred16P,
      some .predCV, some .predCH, some .predCDC, some .predCDCL, some .predCDCT, some .predCDC128, some .predCP] := by
  decide +kernel

theorem test_decode_motion :
    [0x00001040, 0x00008041, 0x00002042, 0x0000A043, 0x00000044, 0x00005045, 0x00006046].map (read · 0)
    = [some (.mcluma .eight .four), some (.mcchroma .four .sixteen), some (.copy .sixteen .four),
      some (.avg .sixteen .sixteen), some (.hpelh .four .four), some (.hpelv .eight .eight),
      some (.hpelc .sixteen .eight)] := by decide +kernel

/-- Illegal words (30_encoding.md R93; T3). -/
theorem test_decode_illegal :
    ([0x00000000, 0x00000005, 0x0000000F, 0x0000001B, 0x0000002D, 0x00000031, 0x00000047, 0x000000FF, 0x00000101,
      0x00400001, 0x00001002, 0x00010002, 0x00000104, 0x00000403, 0x00010010, 0x00100010, 0x00000110, 0x80000010,
      0x00001014, 0x00004022, 0x000C0030, 0x000D0030, 0x001C0030, 0x00230030, 0x00280030, 0x00350030, 0x003F0030,
      0x00001030, 0x00000130].all fun w => (read w 0).isNone) ∧
    ([0x00000001, 0x00000010, 0x0000002C, 0x00000030].all fun w => (read w 1).isNone) := by decide +kernel

/-- The host's numbering: `W0` is the low 32 bits. -/
theorem test_decode_table_word :
    decodeTableWord 64 0x0000FFFC00000303 = some (.stq 3 0xFFFC) ∧ decodeTableWord 64 0x30 = some .pred4V ∧
      decodeTableWord 64 0 = none := by decide +kernel

/-! ## Control commands, fetch and faults -/

/-- `END` (T13). -/
theorem test_end : exec .endList (before [] []) = .next { before [] [] with st := .halted } := rfl

/-- `LDI P0, 0xFFFFFFFB` (T10): `sval(P0) = -5`. -/
theorem test_ldi :
    (after (exec (.ldi 9 0xFFFFFFFB) (before [] []))).signedReg 9 = -5 ∧
      done (exec (.ldi 9 0xFFFFFFFB) (before [] [])) = true := by decide +kernel

/-- The result registers of T11. -/
def storing : State := { before [] [] with q := #v[0x11, 0x22, 0x33, 0x44], inited := false }

/-- `STQ q1` to the last four bytes of memory (T11). -/
theorem test_stq : (after (exec (.stq 1 0xFFFC) storing)).mem = [(0xFFFC, 0x22)] := by decide +kernel

/-- Alignment before range (T11). -/
theorem test_stq_faults :
    faultOf (exec (.stq 1 0xFFFFFFFE) storing) = some (.misaligned, 0xFFFFFFFE, 0x100) ∧
      faultOf (exec (.stq 1 0x10000) storing) = some (.access, 0x10000, 0x100) := by decide +kernel

/-- `INIT 0xABC` (T12). -/
theorem test_init : (after (exec (.init 0xABC) storing)).cap = 0xABC ∧ (after (exec (.init 0xABC) storing)).inited = true := by
  decide +kernel

/-- `INIT` twice (T12). -/
theorem test_init_again : faultOf (exec (.init 0xABC) (before [] [])) = some (.reinit, 4, 0x100) := by decide +kernel

/-- An engine started at an address with the given bytes there, uninitialized. -/
def started (a : Word) (mem : Memory) : State := { before [] mem with cp := a, inited := false }

/-- R339 (1), (4), (6): not initialized, a misaligned start, an unassigned operation code. -/
theorem test_step_faults :
    faultOf (step (started 0x100 (bytes 0x100 [0x10]))) = some (.notInitialized, 0x10, 0x100) ∧
      faultOf (step (started 0x104 [])) = some (.misaligned, 0x104, 0x104) ∧
      faultOf (step (started 0x100 (bytes 0x100 [0, 0x12]))) = some (.illegalCommand, 0x1200, 0x100) := by decide +kernel

/-- Fetch at the edges of memory (T101). -/
theorem test_step_edges :
    faultOf (step (started 0xFFFC [])) = some (.misaligned, 0xFFFC, 0xFFFC) ∧
      faultOf (step (started 0x10000 [])) = some (.access, 0x10000, 0x10000) ∧
      (after (step (started 0xFFF8 (bytes 0xFFF8 [1])))).st = .halted ∧
      (after (step (started 0xFFF8 (bytes 0xFFF8 [2, 9, 0, 0, 1])))).cp = 0x10000 := by decide +kernel

/-- R339 (2), (3), (5): a null base, a short stride, an address below 0. -/
theorem test_exec_faults :
    faultOf (exec (.sad .four .four) (before [] [])) = some (.nullBuffer, 2, 0x100) ∧
      faultOf (exec (.sad .four .four) (before [(2, 0x1000), (3, 16), (4, 0x2000), (5, 2)] []))
        = some (.badStride, 5, 0x100) ∧
      faultOf (exec .pred4V (before [(0, 3), (1, 4)] [])) = some (.access, 0xFFFFFFFF, 0x100) := by decide +kernel

/-- Size before null, null before stride, negative strides, no wrap of addresses (T100). -/
theorem test_exec_priority :
    faultOf (exec (.sad .sixteen .four) (before [] [])) = some (.invalidSize, 2, 0x100) ∧
      faultOf (exec (.sad .four .four) (before [(2, 0x2000)] [])) = some (.nullBuffer, 4, 0x100) ∧
      faultOf (exec (.sad .four .four) (before [(2, 0x2000), (3, 0xFFFFFFF0), (4, 0x3000), (5, 16)] []))
        = some (.badStride, 3, 0x100) ∧
      faultOf (exec (.sad .four .four) (before [(2, 0xFFFFFFF0), (3, 16), (4, 0x3000), (5, 16)] []))
        = some (.access, 0xFFFFFFF0, 0x100) := by decide +kernel

/-- A command placed by `withFetchWord` is the one the next step runs. -/
theorem test_with_fetch_word :
    (after (step (State.reset.withFetchWord 64 0xFFFFFFFB00000902))).signedReg 9 = -5 := by decide +kernel

/-! ## The host port (10_state.md R44 to R46; T110, T111) -/

/-- A state whose next move is the host's. -/
def hosted (op : HostOp) (s : State) : State := { s with moves := [.host op] }

/-- The engine after a fault. -/
def stopped : State := after (step (started 0x100 []))

theorem test_host_start_ignored : after (step (hosted (.start 0x200) stopped)) = { stopped with moves := [] } := by
  decide +kernel

theorem test_host_read_status : (after (step (hosted (.read 0x21) stopped))).reply = some 3 := by decide +kernel

theorem test_host_write :
    (after (step (hosted (.write 9 5) stopped))).g[9] = 5 ∧
      after (step (hosted (.write 0x10 5) stopped)) = { stopped with moves := [] } := by decide +kernel

theorem test_host_reset : after (step (hosted .reset { stopped with mem := [(7, 9)] })) = { State.reset with mem := [(7, 9)] } := by
  decide +kernel

/-- A list at the top of memory: `STQ q0, 0x10`, then `END`. -/
def listed : State := started 0xFFF0 (bytes 0xFFF0 [3, 0, 0, 0, 0x10, 0, 0, 0, 1] ++ [(0xFFFE, 7)])

/-- The outcome is a next state with a property. -/
def nextWith (o : Out) (p : State → Bool) : Bool :=
  match o with
  | .next t => p t
  | _ => false

theorem next_with {o : Out} {p : State → Bool} (h : nextWith o p = true) : ∃ t, o = .next t ∧ p t = true := by
  cases o with
  | next t => exact ⟨t, rfl, h⟩
  | fault f => cases h
  | refused r => cases h

/-- Only the bytes that `STQ` writes are open to a host read during the run (20_memory.md R67). -/
theorem test_host_read_running :
    (after (step (hosted (.memRead 0xFFFE) listed))).reply = some 7 ∧ listed.unwrittenByRun 0xF = true ∧
      listed.unwrittenByRun 0x10 = false ∧ listed.unwrittenByRun 0x13 = false ∧ listed.unwrittenByRun 0x14 = true := by
  decide +kernel

/-- A host write during the run to a byte that the run does not touch (20_memory.md R67). -/
theorem test_host_write_running :
    (after (step (hosted (.memWrite 0x40 9) listed))).mem.read 0x40 = 9 ∧
      (after (step (hosted (.memWrite 0x40 9) listed))).st = .running := by decide +kernel

/-! ## Metrics (T20 to T33) -/

theorem test_sad : (after (exec (.sad .four .four) (fixtureAB 4))).q[0] = 1326 := by decide +kernel

/-- Four candidates (T24). -/
def candidates : State :=
  before (fixtureRegs ++ [(6, 0x3800), (7, 0x4000), (8, 0x4800)])
    (grid 0x2000 32 4 4 patternA ++ grid 0x3000 48 4 4 patternB ++ grid 0x3800 48 4 4 patternC
      ++ grid 0x4000 48 4 4 (fun x y => patternA x y ^^^ 1) ++ grid 0x4800 48 4 4 fun x y => 255 - patternA x y)

theorem test_sadx3 :
    (after (exec (.sadx3 .four .four) { candidates with q := #v[9, 9, 9, 0xDEAD] })).q = #v[1326, 27, 16, 0xDEAD] := by
  decide +kernel

theorem test_sadx4 : (after (exec (.sadx4 .four .four) candidates)).q = #v[1326, 27, 16, 1894] := by decide +kernel

theorem test_sadx4_null :
    faultOf (exec (.sadx4 .four .four) { candidates with g := candidates.g.set 8 0 }) = some (.nullBuffer, 8, 0x100) := by
  decide +kernel

theorem test_ssd : (after (exec (.ssd .four .four) (fixtureAB 4))).q[0] = 181520 := by decide +kernel

/-- A region of 5×3 (T25). -/
theorem test_ssdwh :
    (after (exec .ssdwh { fixtureAB 5 with g := ((fixtureAB 5).g.set 9 5).set 10 3 })).q = #v[191791, 0, 0, 0] := by
  decide +kernel

theorem test_ssdwh_params :
    faultOf (exec .ssdwh (before [] [])) = some (.badParam, 9, 0x100) ∧
      faultOf (exec .ssdwh (before [(9, 1)] [])) = some (.badParam, 10, 0x100) := by decide +kernel

theorem test_satd : (after (exec (.satd .four .four) (fixtureAB 4))).q[0] = 2216 := by decide +kernel

theorem test_satd_tiles : (after (exec (.satd .eight .four) (fixtureAB 8))).q[0] = 4912 := by decide +kernel

theorem test_sa8d : (after (exec (.sa8d .eight .eight) (fixtureAB 8))).q[0] = 9680 := by decide +kernel

/-- `ADS1` at threshold 11: the comparison is strict (T30). -/
theorem test_ads1 :
    let s := before [(0, 0x5000), (2, 0x2000), (4, 0x3000), (9, 4), (10, 11), (13, 0x4000)]
      (numbers 4 0x2000 [100] ++ numbers 2 0x3000 [90, 100, 120, 100] ++ numbers 2 0x4000 [1, 2, 3, 0]
        ++ bytes 0x5000 [0x77, 0x77, 0x77, 0x77, 0x77, 0x77, 0x77, 0x77])
    coefsAt (exec .ads1 s) 0x5000 4 = [1, 3, 0x7777, 0x7777] ∧ (after (exec .ads1 s)).q[0] = 2 := by decide +kernel

/-- Of the 8 bytes of the list two entries are written, the rest keeps its values (T30, 41_metrics.md R127). -/
theorem test_ads1_stored :
    let s := before [(0, 0x5000), (2, 0x2000), (4, 0x3000), (9, 4), (10, 11), (13, 0x4000)]
      (numbers 4 0x2000 [100] ++ numbers 2 0x3000 [90, 100, 120, 100] ++ numbers 2 0x4000 [1, 2, 3, 0])
    storedBy .ads1 s = [stretch 0x5000 4] ∧ writes .ads1 s = [stretch 0x5000 8] := by decide +kernel

/-- `ADS2` with a negative offset (T32). -/
theorem test_ads2 :
    let s := before [(0, 0x5000), (2, 0x2000), (4, 0x3008), (9, 3), (10, 20), (11, 0xFFFFFFFC), (13, 0x4000)]
      (numbers 4 0x2000 [100, 50] ++ numbers 2 0x3000 [55, 70, 50, 0, 90, 100, 120] ++ numbers 2 0x4000 [1, 2, 3]
        ++ bytes 0x5000 [0x77, 0x77])
    coefsAt (exec .ads2 s) 0x5000 1 = [0] ∧ (after (exec .ads2 s)).q[0] = 1 := by decide +kernel

/-- `ADS4` (T33). -/
theorem test_ads4 :
    let s := before [(0, 0x5000), (2, 0x2000), (4, 0x3000), (9, 6), (10, 120), (11, 16), (13, 0x4000)]
      (numbers 4 0x2000 [10, 20, 30, 40] ++ numbers 2 0x3000 ((List.range 40).map fun j => ((7 * j * j + 3 * j) % 97 : Nat))
        ++ numbers 2 0x4000 [5, 0, 9, 2, 1, 7])
    coefsAt (exec .ads4 s) 0x5000 4 = [1, 3, 4, 0] ∧ (after (exec .ads4 s)).q[0] = 3 := by decide +kernel

/-- The write set is checked over all `2*width` bytes (T34). -/
theorem test_ads1_write_set :
    faultOf (exec .ads1 (before [(0, 0xFFFA), (2, 0x2000), (4, 0x3000), (9, 4), (13, 0x4000)] []))
      = some (.access, 0x10000, 0x100) := by decide +kernel

theorem test_ssim4 : (after (exec .ssim4 (fixtureAC 4))).q = #v[1952, 1949, 630891, 315413] := by decide +kernel

/-! ## Transforms and quantizers (T40 to T65) -/

theorem test_fdct4 :
    coefsAt (exec (.fdct4 .four .four) (fixtureAC 4)) 0x6000 16
      = [3, 0, 7, 5, 0, 7, 14, -49, 7, 14, 7, 7, -15, 21, 7, 28] := by decide +kernel

/-- The second sub-block is the one to the right (T43). -/
theorem test_fdct4_order :
    coefsAt (exec (.fdct4 .eight .eight) (fixtureAC 8)) 0x6020 4 = [0, -14, 0, -2] := by decide +kernel

/-- The coefficients of T48. -/
def residual : List Int := [-160, 72, -24, -120, 112, 16, -80, 152, 56, -40, -136, 96, 0, -96, 136, 40]

theorem test_idct4 :
    blockAt (exec (.idct4 .four .four)
      (before [(0, 0x2000), (1, 32), (2, 0x5000)] (grid 0x2000 32 4 4 patternA ++ numbers 2 0x5000 residual))) 0x2000 32 4 4
      = [[10, 49, 90, 118], [110, 152, 180, 218], [211, 245, 18, 70], [52, 98, 127, 164]] := by decide +kernel

/-- Floor, then clip (T50): -97 gives -2 and -640 gives -10. -/
theorem test_idct4_rounding :
    let o := fun (d : Nat) (c : Int) => blockAt (exec (.idct4 .four .four)
      (before [(0, 0x2000), (1, 32), (2, 0x5000)] (grid 0x2000 32 4 4 (fun _ _ => d) ++ numbers 2 0x5000 [c]))) 0x2000 32 1 1
    o 100 (-97) = [[98]] ∧ o 5 (-640) = [[0]] := by decide +kernel

/-- An impulse (T47): the floor shifts of the butterfly. -/
theorem test_fdct8 :
    let s := before fixtureRegs
      (grid 0x2000 32 8 8 (fun x y => if x = 1 ∧ y = 0 then 101 else 100) ++ grid 0x3000 48 8 8 fun _ _ => 100)
    coefsAt (exec .fdct8 s) 0x6010 8 = [1, 1, 0, -2, -2, -2, -2, -2] := by decide +kernel

/-- Element 1 alone (T53). -/
theorem test_idct8 :
    let s := before [(0, 0x2000), (1, 32), (2, 0x5000)] (grid 0x2000 32 8 8 (fun _ _ => 100) ++ numbers 2 0x5000 [0, 64])
    blockAt (exec .idct8 s) 0x2020 32 8 1 = [[102, 101, 101, 100, 100, 99, 99, 99]] := by decide +kernel

/-- From an array at 0x2000 to one at 0x6000. -/
def arrayState (vs : List Int) (extra : List (Fin 16 × Word)) : State := before ([(0, 0x6000), (2, 0x2000)] ++ extra) (numbers 2 0x2000 vs)

/-- `X` of T54. -/
def inputX : List Int := [-60, 27, -9, -45, 42, 6, -30, 57, 21, -15, -51, 36, 0, -36, 51, 15]

theorem test_fdc4 :
    coefsAt (exec .fdc4 (arrayState inputX [])) 0x6000 16
      = [9, -39, 123, -81, -33, 123, -123, -123, -123, -123, -369, 123, -201, 123, -123, -123] := by decide +kernel

theorem test_idc4 :
    coefsAt (exec .idc4 (arrayState inputX [])) 0x6000 16
      = [5, -19, 62, -40, -16, 62, -61, -61, -61, -61, -184, 62, -100, 62, -61, -61] := by decide +kernel

theorem test_fdc2 : coefsAt (exec .fdc2 (arrayState [-7, 300, -2, 45] [])) 0x6000 4 = [336, -354, 250, -260] := by decide +kernel

theorem test_idc2 : coefsAt (exec .idc2 (arrayState [-7, 300, -2, 45] [])) 0x6000 4 = [168, -177, 125, -130] := by decide +kernel

/-- `DST` is looked at first, and the read set before the write set (T56). -/
theorem test_fdc4_faults :
    faultOf (exec .fdc4 (before [(0, 0x6001), (2, 0x2003)] [])) = some (.misaligned, 0x6001, 0x100) ∧
      faultOf (exec .fdc4 (before [(0, 0xFFF8), (2, 0xFFF0)] [])) = some (.access, 0x10000, 0x100) := by decide +kernel

/-- In place (T60). -/
theorem test_quant4 :
    let s := before [(0, 0x6000), (2, 0x6000), (9, 10922), (10, 15), (13, 0x4000)]
      (numbers 4 0x4000 [13107, 8066, 13107, 8066, 8066, 5243, 8066, 5243, 13107, 8066, 13107, 8066, 8066, 5243, 8066, 5243]
        ++ numbers 2 0x6000 [3, 0, 7, 5, 0, 7, 14, -49, 7, 14, 7, 7, -15, 21, 7, 28])
    coefsAt (exec .quant4 s) 0x6000 16 = [1, 0, 3, 1, 0, 1, 3, -8, 3, 3, 3, 2, -4, 3, 2, 4] := by decide +kernel

/-- `f` against `2^qbits`, also beyond 31 bits (T64). -/
theorem test_quant4_params :
    faultOf (exec .quant4 (before [(9, 32768), (10, 15)] [])) = some (.badParam, 9, 0x100) ∧
      faultOf (exec .quant4 (before [(9, 0xFFFFFFFF), (10, 40)] [])) = some (.badParam, 10, 0x100) := by decide +kernel

/-- The first four elements of T61, the others 0. -/
theorem test_quant8 :
    let s := before [(0, 0x6000), (2, 0x2000), (9, 21845), (10, 16), (13, 0x4000)]
      (numbers 2 0x2000 [256, 272, 256, 1112]
        ++ numbers 4 0x4000 [10000, 10100, 10200, 10300])
    coefsAt (exec .quant8 s) 0x6000 4 = [39, 42, 40, 175] := by decide +kernel

theorem test_quantdc4 :
    coefsAt (exec .quantdc4 (arrayState inputX [(9, 21845), (10, 16), (11, 13107)])) 0x6000 16
      = [-12, 5, -2, -9, 8, 1, -6, 11, 4, -3, -10, 7, 0, -7, 10, 3] := by decide +kernel

/-- Intermediates beyond 32 bits (T63). -/
theorem test_quantdc2 :
    coefsAt (exec .quantdc2 (arrayState [1, -1, 2, 0] [(9, 0x7FFFFFFF), (10, 31), (11, 0x80000000)])) 0x6000 4 = [1, -1, 2, 0] ∧
      coefsAt (exec .quantdc2 (arrayState [-32768, 32767, 1, -1] [(9, 1), (10, 1), (11, 1)])) 0x6000 4
        = [-16384, 16384, 1, -1] := by decide +kernel

theorem test_zigzag4 :
    coefsAt (exec .zigzag4 (arrayState [1, 0, 3, 1, 0, 1, 3, -8, 3, 3, 3, 2, -4, 3, 2, 4] [])) 0x6000 16
      = [1, 0, 0, 3, 1, 3, 1, 3, 3, -4, 3, 3, -8, 2, 2, 4] := by decide +kernel

/-! ## Intra prediction (T70 to T78) -/

/-- The neighbours of T70 and T77. -/
def neighbours : State :=
  before [(0, 0x2220), (1, 32)]
    (bytes 0x21FF [33, 200, 3, 77, 150, 255, 0, 91, 18]
      ++ grid 0x221F 32 1 8 fun _ y => [64, 250, 9, 128, 77, 31, 222, 140].getD y 0)

/-- The 4×4 block a command leaves. -/
def block4 (i : Instr) : List (List Int) := blockAt (exec i neighbours) 0x2220 32 4 4

theorem test_pred4V : block4 .pred4V = List.replicate 4 [200, 3, 77, 150] := by decide +kernel

theorem test_pred4H : block4 .pred4H = [[64, 64, 64, 64], [250, 250, 250, 250], [9, 9, 9, 9], [128, 128, 128, 128]] := by
  decide +kernel

theorem test_pred4DC : block4 .pred4DC = List.replicate 4 [110, 110, 110, 110] := by decide +kernel

theorem test_pred4DDL :
    block4 .pred4DDL = [[71, 77, 158, 165], [77, 158, 165, 87], [158, 165, 87, 50], [165, 87, 50, 36]] := by decide +kernel

theorem test_pred4DDR :
    block4 .pred4DDR = [[83, 109, 71, 77], [103, 83, 109, 71], [143, 103, 83, 109], [99, 143, 103, 83]] := by decide +kernel

theorem test_pred4VR :
    block4 .pred4VR = [[117, 102, 40, 114], [83, 109, 71, 77], [103, 117, 102, 40], [143, 83, 109, 71]] := by decide +kernel

theorem test_pred4HD :
    block4 .pred4HD = [[49, 83, 109, 71], [157, 103, 49, 83], [130, 143, 157, 103], [69, 99, 130, 143]] := by decide +kernel

theorem test_pred4VL :
    block4 .pred4VL = [[102, 40, 114, 203], [71, 77, 158, 165], [40, 114, 203, 128], [77, 158, 165, 87]] := by decide +kernel

theorem test_pred4HU :
    block4 .pred4HU = [[157, 143, 130, 99], [130, 99, 69, 98], [69, 98, 128, 128], [128, 128, 128, 128]] := by decide +kernel

theorem test_pred4DCL : block4 .pred4DCL = List.replicate 4 [113, 113, 113, 113] := by decide +kernel

theorem test_pred4DCT : block4 .pred4DCT = List.replicate 4 [108, 108, 108, 108] := by decide +kernel

theorem test_pred4DC128 :
    blockAt (exec .pred4DC128 (before [(0, 1), (1, 4)] [])) 1 4 4 4 = List.replicate 4 [128, 128, 128, 128] := by decide +kernel

/-- Address 0 is data; the corner below it is no address (T72). -/
theorem test_pred4_edges :
    done (exec .pred4V (before [(0, 0x10), (1, 16)] [])) = true ∧
      faultOf (exec .pred4DDR (before [(0, 0x10), (1, 16)] [])) = some (.access, 0xFFFFFFFF, 0x100) := by decide +kernel

/-- The edge array of T73. -/
def edges : State :=
  before [(0, 0x2220), (1, 32), (13, 0x4000)]
    (bytes 0x4000 [33, 200, 3, 77, 150, 255, 0, 91, 18, 5, 240, 60, 130, 99, 1, 180, 45, 64, 250, 9, 128, 77, 31, 222, 140])

/-- Two rows of the 8×8 block a command leaves. -/
def rows8 (i : Instr) (a b : Nat) : List (List Int) :=
  blockAt (exec i edges) (0x2220 + 32 * a) 32 8 1 ++ blockAt (exec i edges) (0x2220 + 32 * b) 32 8 1

theorem test_pred8V : rows8 .pred8V 0 7 = List.replicate 2 [200, 3, 77, 150, 255, 0, 91, 18] := by decide +kernel

theorem test_pred8H : rows8 .pred8H 1 7 = [List.replicate 8 250, List.replicate 8 140] := by decide +kernel

theorem test_pred8DC : rows8 .pred8DC 0 7 = List.replicate 2 (List.replicate 8 107) := by decide +kernel

theorem test_pred8DDL : rows8 .pred8DDL 0 7 = [[71, 77, 158, 165, 87, 50, 33, 67], [67, 136, 123, 105, 82, 70, 102, 79]] := by
  decide +kernel

theorem test_pred8DDR : rows8 .pred8DDR 0 7 = [[83, 109, 71, 77, 158, 165, 87, 50], [154, 90, 78, 86, 99, 143, 103, 83]] := by
  decide +kernel

theorem test_pred8VR : rows8 .pred8VR 6 7 = [[78, 99, 103, 117, 102, 40, 114, 203], [90, 86, 143, 83, 109, 71, 77, 158]] := by
  decide +kernel

theorem test_pred8HD : rows8 .pred8HD 0 7 = [[49, 83, 109, 71, 77, 158, 165, 87], [181, 154, 127, 90, 54, 78, 103, 86]] := by
  decide +kernel

theorem test_pred8VL : rows8 .pred8VL 6 7 = [[203, 128, 46, 55, 12, 123, 150, 95], [165, 87, 50, 33, 67, 136, 123, 105]] := by
  decide +kernel

theorem test_pred8HU : rows8 .pred8HU 0 4 = [[157, 143, 130, 99, 69, 86, 103, 78], [54, 90, 127, 154, 181, 161, 140, 140]] := by
  decide +kernel

theorem test_pred8DCL : rows8 .pred8DCL 0 7 = List.replicate 2 (List.replicate 8 115) := by decide +kernel

theorem test_pred8DCT : rows8 .pred8DCT 0 7 = List.replicate 2 (List.replicate 8 99) := by decide +kernel

/-- `DC128` does not look at `TBL`; every other mode does (T73). -/
theorem test_pred8DC128 :
    blockAt (exec .pred8DC128 (before [(0, 1), (1, 8)] [])) 1 8 8 1 = [List.replicate 8 128] ∧
      faultOf (exec .pred8V (before [(0, 1), (1, 8)] [])) = some (.nullBuffer, 13, 0x100) := by decide +kernel

/-- The neighbours of T74. -/
def around16 : State :=
  before [(0, 0x2220), (1, 32)]
    (bytes 0x21FF [77] ++ grid 0x2200 32 16 1 (fun x _ => (53 * x + 7) % 256) ++ grid 0x221F 32 1 16 fun _ y => (91 * y + 40) % 256)

/-- One row of the 16×16 block. -/
def row16 (i : Instr) (y : Nat) : List (List Int) := blockAt (exec i around16) (0x2220 + 32 * y) 32 16 1

theorem test_pred16V :
    row16 .pred16V 0 = [[7, 60, 113, 166, 219, 16, 69, 122, 175, 228, 25, 78, 131, 184, 237, 34]] := by decide +kernel

theorem test_pred16H : row16 .pred16H 1 = [List.replicate 16 131] := by decide +kernel

theorem test_pred16DC : row16 .pred16DC 0 = [List.replicate 16 116] := by decide +kernel

theorem test_pred16DCL : row16 .pred16DCL 0 = [List.replicate 16 115] := by decide +kernel

theorem test_pred16DCT : row16 .pred16DCT 0 = [List.replicate 16 117] := by decide +kernel

theorem test_pred16DC128 : row16 .pred16DC128 0 = [List.replicate 16 128] := by decide +kernel

/-- Row 0 of T75. -/
theorem test_pred16P :
    row16 .pred16P 0 = [[55, 59, 63, 67, 71, 75, 80, 84, 88, 92, 96, 100, 104, 109, 113, 117]] := by decide +kernel

/-- Two rows of the chroma block. -/
def rowsC (i : Instr) : List (List Int) :=
  blockAt (exec i neighbours) 0x2220 32 8 1 ++ blockAt (exec i neighbours) 0x2300 32 8 1

theorem test_predCV : rowsC .predCV = List.replicate 2 [200, 3, 77, 150, 255, 0, 91, 18] := by decide +kernel

theorem test_predCH : rowsC .predCH = [List.replicate 8 64, List.replicate 8 140] := by decide +kernel

theorem test_predCDC : rowsC .predCDC = [[110, 110, 110, 110, 91, 91, 91, 91], [118, 118, 118, 118, 104, 104, 104, 104]] := by
  decide +kernel

theorem test_predCDCL : rowsC .predCDCL = [List.replicate 8 113, List.replicate 8 118] := by decide +kernel

theorem test_predCDCT : rowsC .predCDCT = List.replicate 2 [108, 108, 108, 108, 91, 91, 91, 91] := by decide +kernel

theorem test_predCDC128 : rowsC .predCDC128 = List.replicate 2 (List.replicate 8 128) := by decide +kernel

/-- The first two rows of T78. -/
theorem test_predCP :
    blockAt (exec .predCP neighbours) 0x2220 32 8 2 = [[63, 60, 56, 52, 49, 45, 42, 38], [72, 68, 65, 61, 58, 54, 51, 47]] := by
  decide +kernel

/-! ## Motion compensation (T80 to T90) -/

/-- The part of fixture M that the tests read: columns 5 to 14, rows 2 to 14 of each plane (T80). -/
def planes : Memory :=
  grid 0x4045 32 10 13 (fun x y => (13 * (x + 5) + 29 * (y + 2) + 5) % 256)
    ++ grid 0x4445 32 10 13 (fun x y => (17 * (x + 5) + 31 * (y + 2) + 60) % 256)
    ++ grid 0x4845 32 10 13 (fun x y => (19 * (x + 5) + 37 * (y + 2) + 120) % 256)
    ++ grid 0x4C45 32 10 13 fun x y => (23 * (x + 5) + 41 * (y + 2) + 180) % 256

def moved (mvx mvy : Word) : State :=
  before [(0, 0x6000), (1, 16), (4, 0x4108), (5, 32), (6, 0x4508), (7, 0x4908), (8, 0x4D08), (9, mvx), (10, mvy)] planes

/-- A negative vector with both fractions 3 (T82). -/
theorem test_mcluma :
    blockAt (exec (.mcluma .four .four) (moved 0xFFFFFFFF 0xFFFFFFFF)) 0x6000 16 4 4
      = [[95, 113, 131, 149], [129, 147, 165, 183], [163, 181, 71, 89], [69, 87, 105, 123]] := by decide +kernel

/-- Only the planes the phase uses are looked at (T83). -/
theorem test_mcluma_planes :
    done (exec (.mcluma .four .four) { moved 2 2 with g := (moved 2 2).g.set 4 0 }) = true ∧
      faultOf (exec (.mcluma .four .four) { moved 1 0 with g := (moved 1 0).g.set 6 0 }) = some (.nullBuffer, 6, 0x100) := by
  decide +kernel

/-- The vector (-3, -9) (T84). -/
theorem test_mcchroma :
    blockAt (exec (.mcchroma .four .four) (moved 0xFFFFFFFD 0xFFFFFFF7)) 0x6000 16 4 4
      = [[48, 61, 74, 87], [77, 90, 103, 116], [106, 119, 132, 145], [135, 148, 161, 174]] := by decide +kernel

/-- The read set is `(w+1)×(h+1)` also without a fraction (T84). -/
theorem test_mcchroma_reads :
    done (exec (.mcchroma .four .four) (before [(0, 0x6000), (1, 16), (4, 0xFFEB), (5, 4)] [])) = true ∧
      faultOf (exec (.mcchroma .four .four) (before [(0, 0x6000), (1, 16), (4, 0xFFEC), (5, 4)] []))
        = some (.access, 0x10000, 0x100) := by decide +kernel

/-- Overlap: every byte is the old value of its source (T87). -/
theorem test_copy_overlap :
    blockAt (exec (.copy .four .four) (before [(0, 0x2001), (1, 8), (4, 0x2000), (5, 8)] (bytes 0x2000 (List.range' 1 64))))
      0x2000 8 8 4
      = [[1, 1, 2, 3, 4, 6, 7, 8], [9, 9, 10, 11, 12, 14, 15, 16], [17, 17, 18, 19, 20, 22, 23, 24],
        [25, 25, 26, 27, 28, 30, 31, 32]] := by decide +kernel

theorem test_avg :
    blockAt (exec (.avg .four .four) (fixtureAB 4)) 0x6000 32 4 4
      = [[106, 26, 74, 122], [165, 85, 133, 181], [224, 144, 64, 112], [155, 75, 123, 171]] := by decide +kernel

theorem test_hpelh :
    blockAt (exec (.hpelh .four .four) (moved 0 0)) 0x6000 16 4 2 = [[92, 105, 118, 131], [121, 134, 147, 160]] := by decide +kernel

/-- With a clip at 255 (T88). -/
theorem test_hpelv :
    blockAt (exec (.hpelv .four .four) (moved 0 0)) 0x6000 16 4 4
      = [[100, 113, 126, 139], [129, 142, 155, 168], [158, 171, 176, 189], [179, 192, 245, 255]] := by decide +kernel

theorem test_hpelc :
    blockAt (exec (.hpelc .four .four) (moved 0 0)) 0x6010 16 4 1 = [[135, 148, 161, 175]] := by decide +kernel

/-- Two columns to the left are read (T90). -/
theorem test_hpelh_reads :
    faultOf (exec (.hpelh .four .four) (before [(0, 0x6000), (1, 16), (4, 1), (5, 16)] [])) = some (.access, 0xFFFFFFFF, 0x100) ∧
      done (exec (.hpelh .four .four) (before [(0, 0x6000), (1, 16), (4, 2), (5, 16)] [])) = true := by decide +kernel

/-! # Witnesses: states and operands that meet the hypotheses of each statement -/

/-- A state that accepts every operation of legal size. -/
def ample : State :=
  before [(0, 0x6000), (1, 32), (2, 0x2000), (3, 32), (4, 0x3000), (5, 32), (6, 0x3800), (7, 0x4000), (8, 0x4800), (9, 3),
    (10, 5), (11, 8), (13, 0x5000)] []

/-- Blocks of 4×4 whose last byte is the last byte of memory, with the least legal strides. -/
def tight : State :=
  before [(0, 0xFFF0), (1, 4), (2, 0xFFF0), (3, 4), (4, 0xFFF0), (5, 4), (6, 0xFFF0), (7, 0xFFF0), (8, 0xFFF0), (13, 0xFF00)] []

/-- A destination block whose corner neighbour is at address 0, and an edge array that ends at the end of memory. -/
def lowest : State := before [(0, 0x11), (1, 16), (13, 0xFFDF)] []

/-- A state whose next move is the engine's, stopped. -/
def idle : State := { State.reset with moves := [.engine] }

/-- A register of a state set. -/
def withG (s : State) (r : Fin 16) (v : Word) : State := { s with g := s.g.set r v }

def accepts (i : Instr) (s : State) : Bool := decide (Accepts i s)

theorem accepted {i : Instr} {s : State} (h : accepts i s = true) : Accepts i s := of_decide_eq_true h

theorem least_of_all {s : State} {rs : List Rect} {a : Int}
    (h : ∀ r ∈ rs, ∀ x < r.w, ∀ y < r.h, s.inMemory (r.addr (x : Nat) (y : Nat)) ∨ a ≤ r.addr (x : Nat) (y : Nat)) :
    ∀ b, Reaches rs b → ¬s.inMemory b → a ≤ b := by
  rintro b ⟨r, hr, x, hx, y, hy, rfl⟩ hb
  exact (h r hr x hx y hy).resolve_left hb

theorem reaches_of {rs : List Rect} {a : Int} (h : ∃ r ∈ rs, ∃ x < r.w, ∃ y < r.h, a = r.addr (x : Nat) (y : Nat)) :
    Reaches rs a := h

/-! ## Encoding -/

theorem witness_EncodeOfDecode : decodeWords 0x00000303 0xFFFC = .ok (.stq 3 0xFFFC) := by decide +kernel

theorem witness_IllegalCommandFault :
    ((started 0xFFF8 []).ready ∧ (started 0xFFF8 []).canFetch ∧ (started 0xFFF8 []).raced = []) ∧
      w0At (started 0xFFF8 []).mem 0xFFF8 = 0 ∧ w1At (started 0xFFF8 []).mem 0xFFF8 = 0 ∧ IllegalWords 0 0 :=
  ⟨by decide +kernel, by decide +kernel, by decide +kernel, .inl (by decide +kernel)⟩

/-- Each condition of the list alone. -/
theorem witness_IllegalWords :
    IllegalWords 0x400010 0 ∧ IllegalWords 0x1 1 ∧ IllegalWords 0x1002 7 ∧ IllegalWords 0x104 0 ∧ IllegalWords 0x403 0 ∧
      IllegalWords 0x10010 0 ∧ IllegalWords 0xD0030 0 :=
  ⟨.inr (.inl (by decide +kernel)), .inr (.inr (.inl (by decide +kernel))), .inr (.inr (.inr (.inl (by decide +kernel)))),
    .inr (.inr (.inr (.inr (.inl (by decide +kernel))))), .inr (.inr (.inr (.inr (.inr (.inl (by decide +kernel)))))),
    .inr (.inr (.inr (.inr (.inr (.inr (.inl (by decide +kernel))))))),
    .inr (.inr (.inr (.inr (.inr (.inr (.inr ⟨by decide +kernel, .inr (.inr (by unfold legalPair; decide +kernel))⟩))))))⟩

/-! ## The step, the host, reset -/

/-- `END` in the last 8 bytes of memory. -/
def topmost : State := started 0xFFF8 (bytes 0xFFF8 [1])

/-- A run during which the host has written a byte that `STQ` writes. -/
def racing : State := { listed with raced := [(0x10, 5)] }

theorem racing_decodes : decode (racing.seen.mem.fetch racing.cp.toNat) = .ok (.stq 0 0x10) := by
  show decode (Memory.fetch (if Config.freeBit 0 then listed.mem.write 0x10 5 else listed.mem) 0xFFF0) = _
  cases Config.freeBit 0 <;> decide +kernel

/-- The last command of memory; and a command while the host races. -/
theorem witness_StepRunsDecodedCommand :
    (topmost.ready ∧ topmost.canFetch ∧ topmost.raced = [] ∧ decode (topmost.mem.fetch topmost.cp.toNat) = .ok .endList) ∧
    racing.ready ∧ racing.canFetch ∧ decode (racing.seen.mem.fetch racing.cp.toNat) = .ok (.stq 0 0x10) :=
  ⟨by decide +kernel, by decide +kernel, by decide +kernel, racing_decodes⟩

theorem witness_FetchFaults :
    ((started 0xFFFC []).ready ∧ (started 0xFFFC []).cp.toNat % 8 ≠ 0) ∧
      ((started 0x10000 []).ready ∧ (started 0x10000 []).cp.toNat % 8 = 0 ∧
        (started 0x10000 []).cfg.memSize < (started 0x10000 []).cp.toNat + 8) ∧
      ({ started 0xFFFFFFF8 [] with cfg := { Config.standard with memSize := 2 ^ 32 } }).cfg.memSize = 2 ^ 32 := by
  decide +kernel

theorem witness_StoppedEngineKeepsState : idle.cfg.wf = true ∧ idle.move = .engine ∧ idle.st ≠ .running := by decide +kernel

theorem witness_HostPortOperations :
    (hosted .reset stopped).moves = [.host .reset] ∧
      ((hosted (.start 8) idle).st = .idle ∧ (hosted (.start 8) idle).moves = [.host (.start 8)]) ∧
      ((hosted (.start 8) stopped).st = .faulted ∧ (hosted (.start 8) stopped).moves = [.host (.start 8)]) ∧
      (hosted (.read 0x25) ample).moves = [.host (.read 0x25)] ∧
      ((hosted (.write 15 1) idle).st ≠ .running ∧ (hosted (.write 15 1) idle).moves = [.host (.write 15 1)]) ∧
      ((hosted (.write 15 1) ample).st = .running ∧ (hosted (.write 16 1) ample).moves = [.host (.write 16 1)]) := by
  decide +kernel

/-- A run that has ended says what the run ahead writes. -/
theorem run_unwritten {s u : State} {n : Nat} {a : Int} (hm : s.moves = []) (hu : Sys2Proof.core.run n s = .next u)
    (hf : step u = .next u) (ha : ¬Reaches u.written a)
    (hb : ∀ k < n, nextWith (Sys2Proof.core.run k s) (fun t => !covers t.written a) = true) :
    ∀ (k : Nat) (t : State), Sys2Proof.core.run k { s with moves := [] } = .next t → ¬Reaches t.written a := by
  have onward (m : Nat) (v : State) (l : Nat) (hv : Sys2Proof.core.run m v = .next u) :
      Sys2Proof.core.run (m + l) v = Sys2Proof.core.run l u := by
    induction m generalizing v with
    | zero => cases hv; rw [Nat.zero_add]
    | succ m ih =>
      rw [Nat.add_right_comm]
      simp only [Host.Core.run] at hv ⊢
      split at hv
      · exact ih _ hv
      · cases hv
      · cases hv
  have rest (l : Nat) : Sys2Proof.core.run l u = .next u := by
    induction l with
    | zero => rfl
    | succ l ih =>
      have hf : Sys2Proof.core.step u = .next u := hf
      simpa only [Host.Core.run, hf] using ih
  have hs : ({ s with moves := [] } : State) = s := by cases s; cases hm; rfl
  intro k t ht
  rw [hs] at ht
  by_cases hk : k < n
  · have h := hb k hk
    rw [ht] at h
    simpa only [nextWith, Bool.not_eq_true', ← Bool.not_eq_true, covers_iff] using h
  · rw [show k = n + (k - n) by omega, onward n s _ hu, rest] at ht
    cases ht
    exact ha

/-- The engine stopped; and a run of two commands that writes bytes 0x10 to 0x13 and no other. -/
theorem witness_HostMemoryAccess :
    (idle.mem.wf ∧ idle.st ≠ .running ∧ 0xFFFF < idle.cfg.memSize ∧
      (hosted (.memRead 0xFFFF) idle).moves = [.host (.memRead 0xFFFF)] ∧
      (hosted (.memWrite 0xFFFF 5) idle).moves = [.host (.memWrite 0xFFFF 5)] ∧
      listed.mem.wf ∧ listed.cfg.wf = true ∧ listed.st = .running ∧ 2 ≤ listed.cfg.memSize / 8 + 2) ∧
    (∃ t, Sys2Proof.core.run 2 listed = .next t ∧ Reaches t.written 0x13) ∧
    ∀ (k : Nat) (t : State), Sys2Proof.core.run k { listed with moves := [] } = .next t → ¬Reaches t.written 0x14 := by
  have h : nextWith (Sys2Proof.core.run 2 listed)
      (fun t => decide (t.moves = [] ∧ t.cfg.wf = true ∧ t.st ≠ .running) && covers t.written 0x13 &&
        !covers t.written 0x14) = true := by decide +kernel
  obtain ⟨u, hu, h⟩ := next_with h
  simp only [Bool.and_eq_true, decide_eq_true_eq, Bool.not_eq_true', ← Bool.not_eq_true] at h
  obtain ⟨⟨⟨hm, hw, hs⟩, h3⟩, h4⟩ := h
  have hf : step u = .next u := by simp [step, State.nextMove, hm, State.engineMove, hw, hs]
  exact ⟨by decide +kernel, ⟨u, hu, covers_iff.1 h3⟩,
    run_unwritten rfl hu hf (fun hr => h4 (covers_iff.2 hr)) (by decide +kernel)⟩

theorem witness_ResetState : ∃ s, step (hosted .reset stopped) = .next s := ⟨_, rfl⟩

theorem reset_Inv : State.reset.Inv :=
  ⟨State.reset_mem_wf, fun c hc => absurd hc List.not_mem_nil, by simp [State.faultRegisters, State.reset], fun _ => rfl,
    fun c hc => absurd hc List.not_mem_nil⟩

theorem witness_StepKeepsInvariant : State.reset.Inv ∧ step State.reset = .next State.reset := ⟨reset_Inv, rfl⟩

/-- A step of each kind that changes or keeps the state of the engine. -/
theorem witness_StateTransitions :
    (∃ t, step (hosted .reset stopped) = .next t) ∧ (∃ t, step (hosted (.start 8) idle) = .next t) ∧
      (∃ t, step (hosted (.start 8) stopped) = .next t) ∧
      (∃ t, step (started 0xFFFC []) = .next t) ∧ (∃ t, step (hosted (.write 0 1) stopped) = .next t) ∧
      ∃ t, step idle = .next t := by
  and_intros <;> exact ⟨_, rfl⟩

/-! ## Every instruction, every register -/

/-- A command that completes, one that faults, `LDI` and `INIT`. -/
theorem witness_RegistersKeptByInstructions :
    (∃ t, exec .pred4DC128 ample = .next t) ∧ (∃ t, exec (.ldi 15 1) ample = .next t) ∧ (∃ t, exec (.init 1) ample = .next t) ∧
      ample.st ≠ .faulted ∧ (after (exec .pred4DC128 ample)).st ≠ .faulted :=
  ⟨exec_answers _ _, exec_answers _ _, exec_answers _ _, by decide +kernel, by decide +kernel⟩

theorem witness_ResultRegistersByTable :
    (∃ t, exec (.sadx3 .four .four) ample = .next t) ∧ (3 : Fin 4) ∉ resultRegisters (.sadx3 .four .four) :=
  ⟨exec_answers _ _, by decide⟩

theorem witness_FaultEntry :
    (ample.st ≠ .faulted ∧ (∃ t, exec (.init 1) ample = .next t) ∧ (after (exec (.init 1) ample)).st = .faulted) ∧
      stopped.st = .faulted ∧ stopped.move ≠ .host .reset ∧ ∃ t, step stopped = .next t :=
  ⟨⟨by decide +kernel, exec_answers _ _, by decide +kernel⟩, by decide +kernel, by decide +kernel, ⟨_, rfl⟩⟩

theorem witness_CommandPointer :
    ample.st = .running ∧ (∃ t, exec .endList ample = .next t) ∧ ∃ t, exec .ssim4 ample = .next t :=
  ⟨rfl, exec_answers _ _, exec_answers _ _⟩

theorem witness_CausesByInstruction :
    ample.st ≠ .faulted ∧ (∃ t, exec (.stq 0 0xFFFE) ample = .next t) ∧ (after (exec (.stq 0 0xFFFE) ample)).st = .faulted :=
  ⟨by decide +kernel, exec_answers _ _, by decide +kernel⟩

/-! ## Checks -/

theorem witness_NotInitializedFault :
    0x10 ≤ wordField (w0Of (.sad .sixteen .four)) 0 8 ∧ storing.inited = false ∧ wordField (w0Of (.init 0xFFFFFFFF)) 0 8 < 0x10 := by
  decide +kernel

theorem witness_InvalidSizeFault :
    ample.inited = true ∧ sizeOk (.sad .sixteen .four) = false ∧ sizeOk (.copy .reserved .reserved) = false := by decide +kernel

/-- `P0` one above its interval, `P1` one below, `f` equal to `2^qbits`, `qbits` one above. -/
theorem witness_BadParamFault :
    (PassesSize .ads1 (before [(9, 32768)] []) ∧ ((9 : Fin 16), false) ∈ params .ads1 (before [(9, 32768)] []) ∧
      ∀ p ∈ params .ads1 (before [(9, 32768)] []), p.1 < 9 → p.2 = true) ∧
    (PassesSize .ssdwh (before [(9, 65535)] []) ∧ ((10 : Fin 16), false) ∈ params .ssdwh (before [(9, 65535)] []) ∧
      ∀ p ∈ params .ssdwh (before [(9, 65535)] []), p.1 < 10 → p.2 = true) ∧
    (PassesSize .quant4 (before [(9, 32), (10, 5)] []) ∧ ((9 : Fin 16), false) ∈ params .quant4 (before [(9, 32), (10, 5)] []) ∧
      ∀ p ∈ params .quant4 (before [(9, 32), (10, 5)] []), p.1 < 9 → p.2 = true) ∧
    (PassesSize .quantdc2 (before [(10, 32)] []) ∧ ((10 : Fin 16), false) ∈ params .quantdc2 (before [(10, 32)] []) ∧
      ∀ p ∈ params .quantdc2 (before [(10, 32)] []), p.1 < 10 → p.2 = true) :=
  ⟨by decide +kernel, by decide +kernel, by decide +kernel, by decide +kernel⟩

theorem witness_NullBufferFault :
    let s := (withG ample 8 0)
    PassesParams (.sadx4 .four .four) s ∧ (8 : Fin 16) ∈ bases (.sadx4 .four .four) s ∧ s.g[8] = 0 ∧
      ∀ b ∈ bases (.sadx4 .four .four) s, b < 8 → s.g[b] ≠ 0 := by decide +kernel

/-- A stride one below the width, and a negative one. -/
theorem witness_BadStrideFault :
    (PassesNulls (.sad .eight .four) (withG ample 5 7) ∧ (5 : Fin 16) ∈ (strides (.sad .eight .four) (withG ample 5 7)).1 ∧
      (withG ample 5 7).signedReg 5 < (strides (.sad .eight .four) (withG ample 5 7)).2 ∧
      ∀ b ∈ (strides (.sad .eight .four) (withG ample 5 7)).1, b < 5 →
        (strides (.sad .eight .four) (withG ample 5 7)).2 ≤ (withG ample 5 7).signedReg b) ∧
    (PassesNulls .pred8H (withG ample 1 0xFFFFFFF0) ∧ (1 : Fin 16) ∈ (strides .pred8H (withG ample 1 0xFFFFFFF0)).1 ∧
      (withG ample 1 0xFFFFFFF0).signedReg 1 < (strides .pred8H (withG ample 1 0xFFFFFFF0)).2 ∧
      ∀ b ∈ (strides .pred8H (withG ample 1 0xFFFFFFF0)).1, b < 1 →
        (strides .pred8H (withG ample 1 0xFFFFFFF0)).2 ≤ (withG ample 1 0xFFFFFFF0).signedReg b) :=
  ⟨by decide +kernel, by decide +kernel⟩

theorem witness_MisalignedFault :
    ((started 0x104 []).ready ∧ (started 0x104 []).cp.toNat % 8 ≠ 0) ∧
    (PassesStrides .quant8 (withG ample 13 0x4002) ∧ ((13 : Fin 16), 4) ∈ arrays .quant8 ∧
      (withG ample 13 0x4002).g[13].toNat % 4 ≠ 0 ∧
      ∀ c ∈ arrays .quant8, c.1 < 13 → (withG ample 13 0x4002).g[c.1].toNat % c.2 = 0) ∧
    (0xFFFFFFFE : Word).toNat % 4 ≠ 0 := ⟨by decide +kernel, by decide +kernel, by decide +kernel⟩

/-- A read one byte past memory, a read below address 0, a write one byte past memory. -/
theorem witness_AccessFault :
    ((started 0x10000 []).ready ∧ (started 0x10000 []).cp.toNat % 8 = 0 ∧ 0x10000 < (started 0x10000 []).cp.toNat + 8) ∧
    (PassesAlignment (.sad .four .four) (withG tight 4 0xFFF1) ∧
      Reaches (reads (.sad .four .four) (withG tight 4 0xFFF1)) 0x10000 ∧ ¬(withG tight 4 0xFFF1).inMemory 0x10000 ∧
      ∀ b, Reaches (reads (.sad .four .four) (withG tight 4 0xFFF1)) b → ¬(withG tight 4 0xFFF1).inMemory b → 0x10000 ≤ b) ∧
    (PassesAlignment .pred4DDR (withG lowest 0 0x10) ∧ Reaches (reads .pred4DDR (withG lowest 0 0x10)) (-1) ∧
      ¬(withG lowest 0 0x10).inMemory (-1) ∧
      ∀ b, Reaches (reads .pred4DDR (withG lowest 0 0x10)) b → ¬(withG lowest 0 0x10).inMemory b → -1 ≤ b) ∧
    (PassesAlignment (.copy .four .four) (withG tight 0 0xFFF1) ∧
      (withG tight 0 0xFFF1).allInMemory (reads (.copy .four .four) (withG tight 0 0xFFF1)) ∧
      Reaches (writes (.copy .four .four) (withG tight 0 0xFFF1)) 0x10000 ∧ ¬(withG tight 0 0xFFF1).inMemory 0x10000 ∧
      ∀ b, Reaches (writes (.copy .four .four) (withG tight 0 0xFFF1)) b → ¬(withG tight 0 0xFFF1).inMemory b → 0x10000 ≤ b) :=
  ⟨by decide +kernel,
    ⟨by decide +kernel, reaches_of (by decide +kernel), by decide +kernel, least_of_all (by decide +kernel)⟩,
    ⟨by decide +kernel, reaches_of (by decide +kernel), by decide +kernel, least_of_all (by decide +kernel)⟩,
    ⟨by decide +kernel, by decide +kernel, reaches_of (by decide +kernel), by decide +kernel, least_of_all (by decide +kernel)⟩⟩

/-- The last byte of memory can be reached, the byte after it cannot. -/
theorem witness_CompletesExactlyWhenAccepted :
    tight.st = .running ∧ Accepts (.sad .four .four) tight ∧ ¬Accepts (.sad .four .four) (withG tight 4 0xFFF1) :=
  ⟨rfl, accepted (by decide +kernel), by decide +kernel⟩

theorem witness_CompletionFrame : Accepts (.copy .four .four) tight ∧ Accepts (.stq 3 0xFFFC) tight :=
  ⟨accepted (by decide +kernel), accepted (by decide +kernel)⟩

theorem witness_CapSelectsNothing : (started 0xFFFC []).move = .engine ∧ ∃ t, step (started 0xFFFC []) = .next t :=
  ⟨rfl, ⟨_, rfl⟩⟩

/-! ## Control commands -/

theorem witness_StqStoresResultRegister :
    storing.mem.wf ∧ (0 : Word).toNat % 4 = 0 ∧ (0 : Word).toNat + 4 ≤ storing.cfg.memSize ∧ (0xFFFC : Word).toNat % 4 = 0 ∧
      (0xFFFC : Word).toNat + 4 ≤ storing.cfg.memSize := by decide +kernel

theorem witness_InitInitializes : storing.inited = false ∧ ample.inited = true := by decide +kernel

/-! ## Metrics -/

theorem witness_SadAndSsdReturnSums :
    Accepts (.sad .four .four) tight ∧ Accepts (.ssd .four .four) tight ∧ Accepts (.ssd .sixteen .sixteen) ample :=
  ⟨accepted (by decide +kernel), accepted (by decide +kernel), accepted (by decide +kernel)⟩

theorem witness_BatchedSadReturnsSums :
    Accepts (.sadx3 .four .four) tight ∧ Accepts (.sadx4 .four .four) tight ∧ Accepts (.sadx4 .sixteen .eight) ample :=
  ⟨accepted (by decide +kernel), accepted (by decide +kernel), accepted (by decide +kernel)⟩

/-- The least and the greatest width; the second region ends with memory. -/
theorem witness_SsdwhReturnsWideSum :
    Accepts .ssdwh (withG (withG tight 9 1) 10 4) ∧
      Accepts .ssdwh (before [(2, 1), (3, 65535), (4, 1), (5, 65535), (9, 65535), (10, 1)] []) := by
  refine ⟨by decide +kernel, ⟨by decide +kernel, ?_, fun r h => absurd h List.not_mem_nil⟩⟩
  have h2 : (1 : Word).toNat = 1 := rfl
  have h9 : (65535 : Word).toNat = 65535 := rfl
  intro r hr x hx y hy
  have hr : r = ⟨1, 65535, 0, 0, 65535, 1⟩ := by
    rcases List.mem_cons.1 hr with rfl | hr
    · rfl
    · rcases List.mem_cons.1 hr with rfl | hr
      · rfl
      · exact absurd hr List.not_mem_nil
  subst hr
  have hm : (before [(2, 1), (3, 65535), (4, 1), (5, 65535), (9, 65535), (10, 1)] []).cfg.memSize = 65536 := rfl
  simp only [State.inMemory, hm, Rect.addr] at *
  omega

theorem witness_SatdReturnsTransformedSum : Accepts (.satd .four .four) tight ∧ Accepts (.satd .sixteen .eight) ample :=
  ⟨accepted (by decide +kernel), accepted (by decide +kernel)⟩

theorem witness_Sa8dReturnsTransformedSum : Accepts (.sa8d .eight .eight) ample ∧ Accepts (.sa8d .sixteen .sixteen) ample :=
  ⟨accepted (by decide +kernel), accepted (by decide +kernel)⟩

theorem witness_AdsListsAcceptedCandidates :
    ample.mem.wf ∧ (∀ i ∈ [Instr.ads1, .ads2, .ads4], Accepts i ample ∧ ∀ n < 3, adsCost i ample n < 2 ^ 31) ∧
      Accepts .ads4 (withG ample 9 0) :=
  ⟨by decide +kernel, by decide +kernel, accepted (by decide +kernel)⟩

theorem witness_Ssim4ReturnsPartialSums : Accepts .ssim4 tight := by decide +kernel

/-- Equal blocks, both in the last bytes of memory. -/
theorem witness_MetricLaws :
    Accepts (.sad .four .four) tight ∧ (∃ t, exec (.sad .four .four) tight = .next t) ∧
      (∀ x < 4, ∀ y < 4, tight.sampleA (x : Nat) (y : Nat) = tight.sampleB (x : Nat) (y : Nat)) ∧
      Accepts (.satd .four .four) tight ∧ Accepts (.ssd .four .four) tight ∧ Accepts (.sa8d .eight .eight) ample :=
  ⟨by decide +kernel, exec_answers _ _, by decide +kernel, by decide +kernel, by decide +kernel, by decide +kernel⟩

/-! ## Transforms and quantizers -/

theorem witness_Fdct4StoresTransform :
    ample.mem.wf ∧ Accepts (.fdct4 .four .four) ample ∧ Accepts (.fdct4 .sixteen .sixteen) ample :=
  ⟨by decide +kernel, accepted (by decide +kernel), accepted (by decide +kernel)⟩

/-- Element 0 is 32735: its sum with the rounding term is 32767, the greatest `s16`. -/
def greatest : State := { ample with mem := numbers 2 0x2000 [32735] }

theorem witness_Idct4AddsResidual :
    greatest.mem.wf ∧ Accepts (.idct4 .four .four) greatest ∧
      ∀ n < 4 * 4 / 16, Inv4InRange fun k => greatest.sourceCoef (16 * n + k) :=
  ⟨by decide +kernel, accepted (by decide +kernel), by unfold Inv4InRange; decide +kernel⟩

theorem witness_Fdct8StoresTransform : ample.mem.wf ∧ Accepts .fdct8 ample := by decide +kernel

theorem witness_Idct8AddsResidual : greatest.mem.wf ∧ Accepts .idct8 greatest ∧ Inv8InRange greatest :=
  ⟨by decide +kernel, accepted (by decide +kernel), by unfold Inv8InRange; decide +kernel⟩

/-- A state whose first coefficient is given and whose others are 0. -/
def single (c : Int) : State := { ample with mem := numbers 2 0x2000 [c] }

theorem witness_DcTransformsStore :
    ((single 32767).mem.wf ∧ Accepts .fdc4 (single 32767) ∧
      ∀ u < 4, ∀ v < 4, IsS16 (dcRow (single 32767) u v) ∧ IsS16 (dcCol (single 32767) u v)) ∧
    ((single 32766).mem.wf ∧ Accepts .idc4 (single 32766) ∧ ∀ u < 4, ∀ v < 4,
      IsS16 (dcRow (single 32766) u v) ∧ IsS16 (dcCol (single 32766) u v) ∧ IsS16 (dcCol (single 32766) u v + 1)) ∧
    (Accepts .fdc2 (single 32767) ∧ ∀ k < 4, IsS16 (dc2 (single 32767) k)) ∧
    (Accepts .idc2 (single 32766) ∧ ∀ k < 4, IsS16 (dc2 (single 32766) k) ∧ IsS16 (dc2 (single 32766) k + 1)) :=
  ⟨⟨by decide +kernel, accepted (by decide +kernel), by decide +kernel⟩, ⟨by decide +kernel, accepted (by decide +kernel), by decide +kernel⟩, ⟨accepted (by decide +kernel), by decide +kernel⟩, ⟨accepted (by decide +kernel), by decide +kernel⟩⟩

/-- `f` and `qbits` 0 and the multiplier 1: the level is the coefficient, 32767. -/
def leveled : State :=
  { ample with g := ((ample.g.set 9 0).set 10 0).set 11 1, mem := numbers 2 0x2000 [32767] ++ numbers 4 0x5000 [1] }

theorem witness_QuantizersStoreLevels :
    leveled.mem.wf ∧
    (Accepts .quant4 leveled ∧ ∀ k < 16, |levelOf leveled (leveled.sourceCoef k) (multiplier leveled k)| ≤ 32767) ∧
    (Accepts .quant8 leveled ∧ ∀ k < 64, |levelOf leveled (leveled.sourceCoef k) (multiplier leveled k)| ≤ 32767) ∧
    (Accepts .quantdc4 leveled ∧ ∀ k < 16, |levelOf leveled (leveled.sourceCoef k) (leveled.unsignedReg 11)| ≤ 32767) ∧
    (Accepts .quantdc2 leveled ∧ ∀ k < 4, |levelOf leveled (leveled.sourceCoef k) (leveled.unsignedReg 11)| ≤ 32767) :=
  ⟨by decide +kernel, ⟨accepted (by decide +kernel), by decide +kernel⟩, ⟨accepted (by decide +kernel), by decide +kernel⟩, ⟨accepted (by decide +kernel), by decide +kernel⟩, ⟨accepted (by decide +kernel), by decide +kernel⟩⟩

theorem witness_ZigzagReorders : ample.mem.wf ∧ Accepts .zigzag4 ample := by decide +kernel

/-! ## Intra prediction: the corner at address 0, the edge array at the end of memory -/

theorem witness_PredictPlainModes :
    lowest.mem.wf ∧ ∀ i ∈ [Instr.pred4V, .pred4H, .pred4DC128, .pred8V, .pred8H, .pred8DC128, .pred16V, .pred16H, .pred16DC128,
      .predCV, .predCH, .predCDC128], Accepts i lowest := by decide +kernel

theorem witness_PredictLumaDcModes :
    lowest.mem.wf ∧ ∀ i ∈ [Instr.pred4DC, .pred4DCL, .pred4DCT, .pred8DC, .pred8DCL, .pred8DCT, .pred16DC, .pred16DCL,
      .pred16DCT], Accepts i lowest := by decide +kernel

theorem witness_PredictChromaDcModes :
    lowest.mem.wf ∧ ∀ i ∈ [Instr.predCDC, .predCDCL, .predCDCT], Accepts i lowest := by decide +kernel

theorem witness_PredictDirectional4 :
    lowest.mem.wf ∧ ∀ i ∈ [Instr.pred4DDL, .pred4DDR, .pred4VR, .pred4HD, .pred4VL, .pred4HU], Accepts i lowest := by
  decide +kernel

theorem witness_PredictDirectional8 :
    lowest.mem.wf ∧ ∀ i ∈ [Instr.pred8DDL, .pred8DDR, .pred8VR, .pred8HD, .pred8VL, .pred8HU], Accepts i lowest := by
  decide +kernel

theorem witness_PredictPlanar : lowest.mem.wf ∧ ∀ i ∈ [Instr.pred16P, .predCP], Accepts i lowest := by decide +kernel

/-! ## Motion compensation -/

/-- With a second source and without one. -/
theorem witness_MclumaInterpolates :
    ample.mem.wf ∧ Accepts (.mcluma .sixteen .sixteen) ample ∧ ample.usesSecond = true ∧ Accepts (.mcluma .four .four) tight ∧
      tight.usesSecond = false :=
  ⟨by decide +kernel, accepted (by decide +kernel), by decide +kernel, accepted (by decide +kernel), by decide +kernel⟩

theorem witness_McchromaInterpolates :
    ample.mem.wf ∧ Accepts (.mcchroma .four .sixteen) ample ∧
      Accepts (.mcchroma .four .four) (withG tight 4 0xFFEB) :=
  ⟨by decide +kernel, accepted (by decide +kernel), accepted (by decide +kernel)⟩

theorem witness_CopyAndAverage : tight.mem.wf ∧ Accepts (.copy .four .four) tight ∧ Accepts (.avg .four .four) tight :=
  ⟨by decide +kernel, accepted (by decide +kernel), accepted (by decide +kernel)⟩

/-- The least bases for which the filters' extra rows and columns lie in memory. -/
theorem witness_HalfPelFilters :
    tight.mem.wf ∧ Accepts (.hpelh .four .four) (withG tight 4 2) ∧
      Accepts (.hpelv .four .four) (withG tight 4 8) ∧
      Accepts (.hpelc .four .four) (withG tight 4 10) :=
  ⟨by decide +kernel, accepted (by decide +kernel), accepted (by decide +kernel), accepted (by decide +kernel)⟩

theorem witness_ZeroVectorIsCopy :
    tight.cfg.wf = true ∧ tight.signedReg 9 = 0 ∧ tight.signedReg 10 = 0 ∧ Accepts (.copy .four .four) tight := by
  decide +kernel

/-! ## Racing accesses -/

/-- A run at an illegal command during which the host has written another byte. -/
def racingIllegal : State := { started 0xFFF8 [] with raced := [(0x10, 5)] }

/-- A run at `ADS1` with three candidates. -/
def searching : State := { ample with mem := bytes 0x100 [0x17] }

theorem racingIllegal_words : w0At racingIllegal.seen.mem 0xFFF8 = 0 ∧ w1At racingIllegal.seen.mem 0xFFF8 = 0 := by
  show w0At (if Config.freeBit 0 then Memory.write [] 0x10 5 else []) 0xFFF8 = 0 ∧
    w1At (if Config.freeBit 0 then Memory.write [] 0x10 5 else []) 0xFFF8 = 0
  cases Config.freeBit 0 <;> decide +kernel

theorem witness_RacingAccesses :
    (racing.mem.wf ∧ racing.ready ∧ racing.canFetch ∧ decode (racing.seen.mem.fetch racing.cp.toNat) = .ok (.stq 0 0x10) ∧
      (∃ t, step racing = .next t) ∧ racing.hostWrote 0x10 ∧ Reaches (storedBy (.stq 0 0x10) racing.seen) 0x10) ∧
    racingIllegal.mem.wf ∧ racingIllegal.ready ∧ racingIllegal.canFetch ∧
      IllegalWords (w0At racingIllegal.seen.mem 0xFFF8) (w1At racingIllegal.seen.mem 0xFFF8) ∧
      searching.mem.wf ∧ searching.ready ∧ searching.canFetch ∧
      decode (searching.seen.mem.fetch searching.cp.toNat) = .ok .ads1 ∧ (∃ t, step searching = .next t) ∧
      Accepts .ads1 searching ∧ ∀ n < 3, adsCost .ads1 searching.seen n < 2 ^ 31 :=
  ⟨⟨by decide +kernel, by decide +kernel, by decide +kernel, racing_decodes, step_answers (by decide +kernel),
      ⟨5, List.mem_cons_self⟩, covers_iff.1 (by decide +kernel)⟩,
    by decide +kernel, by decide +kernel, by decide +kernel, by
      rw [racingIllegal_words.1, racingIllegal_words.2]; exact .inl (by decide +kernel),
    by decide +kernel, by decide +kernel, by decide +kernel, by decide +kernel, step_answers (by decide +kernel),
    accepted (by decide +kernel), by decide +kernel⟩

end Sys2Proof.Tests
end

section
/-! The statements of the family 00_scope.md: the frame of an accepted command, and the step as the command it decodes. -/

namespace Sys2Proof.Machine

/-! ## The frame of an accepted command (00_scope.md R13, 20_memory.md R59, R60) -/

theorem isControl_eq_false_of_ne {i : Instr} (hend : i ≠ .endList) (hldi : ∀ r imm, i ≠ .ldi r imm)
    (hinit : ∀ imm, i ≠ .init imm) : isControl i = false := by
  cases i with
  | endList => exact absurd rfl hend
  | ldi r imm => exact absurd rfl (hldi r imm)
  | init imm => exact absurd rfl (hinit imm)
  | _ => rfl

/-- The write phase leaves every byte outside a set in memory that holds its runs. -/
theorem commit_read_of_not_reaches {s : State} {w : List Run} {rs : List Rect} (hw : ∀ b ∈ addresses w, Reaches rs b)
    (hm : s.allInMemory rs) {a : Nat} (ha : ¬Reaches rs a) (e : Effect) :
    (s.commit w e).mem.read a = s.mem.read a := by
  rw [State.commit_mem]
  refine Memory.read_storeAll_other fun c hc hca => ha ?_
  obtain ⟨b, hb, hbc⟩ := List.mem_map.1 (List.of_mem_zip hc).1
  have hreach := hw b hb
  have hnonneg : 0 ≤ b := (allInMemory_iff.1 hm b hreach).1
  have hab : (a : Int) = b := by omega
  exact hab ▸ hreach

/-- Settles O27: an accepted command is its write phase, which stays in the write set, and the advance of `CP`. -/
theorem completionFrame : Obligations.CompletionFrame := by
  intro i s hacc hend hldi hinit
  rcases exec_outcomes i s (isControl_eq_false_of_ne hend hldi hinit) with ⟨hrej, -⟩ | ⟨-, w, e, hw, hq, hexec⟩
  · exact absurd hacc hrej
  · refine ⟨_, hexec, rfl, fun r hr => ?_, fun a ha => ?_⟩
    · exact setResults_other fun c hc hcr => hr (hcr ▸ hq c hc)
    · exact commit_read_of_not_reaches (fun b => (hw b).1) hacc.2.2 ha e

/-! ## The step of a running engine (00_scope.md R17) -/

/-- A command that leaves the engine `FAULTED`, which was not, did nothing but enter the fault (60_exceptions.md R334). -/
theorem exec_eq_raise_of_faulted {i : Instr} {s t : State} (hs : s.st ≠ .faulted) (h : exec i s = .next t)
    (ht : t.st = .faulted) : ∃ v, t = s.raise v := by
  by_cases hc : isControl i = true
  · cases i with
    | endList => cases h; cases ht
    | ldi r imm => cases h; exact absurd ht hs
    | init imm =>
      simp only [exec, execInit] at h
      split at h <;> cases h
      · exact ⟨_, rfl⟩
      · exact absurd ht hs
    | _ => cases hc
  · rcases exec_outcomes i s (by simpa using hc) with ⟨-, v, he⟩ | ⟨-, w, e, -, -, he⟩ <;> rw [he] at h <;> cases h
    · exact ⟨v, rfl⟩
    · exact absurd ht hs

/-- The step of a running engine at a command that decodes. -/
theorem step_of_decode {s : State} {i : Instr} (hready : s.ready) (hfetch : s.canFetch)
    (hdec : decode (s.seen.mem.fetch s.cp.toNat) = .ok i) :
    ∃ t, exec i s.popMove.seen = .next t ∧
      step s = .next (if t.st = .faulted then { t with mem := s.mem } else s.settle (storedBy i s.seen) t) := by
  obtain ⟨t, ht⟩ := exec_answers i s.popMove.seen
  refine ⟨t, ht, ?_⟩
  rw [step_of_ready hready]
  rcases s.popMove.fetchAndRun_cases with ⟨hmis, -⟩ | ⟨-, hout, -⟩ | ⟨-, ⟨e, herr⟩, -⟩ | ⟨-, j, u, hj, hu, hrun⟩
  · exact absurd hfetch.1 hmis
  · exact absurd hfetch.2 (Nat.not_le.2 hout)
  · cases hdec.symm.trans herr
  · cases hdec.symm.trans hj
    cases ht.symm.trans hu
    rcases hrun with ⟨hst, hrun⟩ | ⟨hst, hrun⟩
    · rw [hrun, if_pos hst]; rfl
    · rw [hrun, if_neg hst]; rfl

/-- Settles O5: the step at a command that decodes, and that step with no racing bytes to see or to settle. -/
theorem stepRunsDecodedCommand : Obligations.StepRunsDecodedCommand := by
  refine ⟨fun s i hready hfetch hraced hdec => ?_, fun s i => step_of_decode⟩
  have hseen : s.seen = s := State.seen_of_raced_nil hraced
  obtain ⟨t, ht, hstep⟩ := step_of_decode hready hfetch (by rwa [hseen])
  rw [State.seen_of_raced_nil (s := s.popMove) hraced] at ht
  refine ⟨t, ht, hstep.trans ?_⟩
  by_cases hst : t.st = .faulted
  · obtain ⟨-, hrunning, -⟩ := hready
    obtain ⟨v, rfl⟩ := exec_eq_raise_of_faulted (by simp [hrunning]) ht hst
    rw [if_pos hst, if_pos hst]
    rfl
  · obtain ⟨hwritten, hkept⟩ := exec_keeps_record ht
    have hnone : t.raced = [] := hkept.trans hraced
    rw [if_neg hst, if_neg hst, State.settle_of_raced_nil hraced, hseen, hwritten, ← hnone]
    rfl

end Sys2Proof.Machine
end

section
/-! The statements of the family 10_state.md: what an instruction and a step can do, once, and from that the invariant, the
transitions of `STATUS.STATE`, the frame of the registers, the host port and reset. -/

namespace Sys2Proof.Machine

/-! ## What an instruction can do -/

/-- The states an instruction can answer from `s`: the control commands by their rules, fault entry for a command that is not
accepted, and for an accepted one the write phase over its write set (00_scope.md R13, R17). -/
inductive ExecOutcome (s : State) : Instr → State → Prop
  | halted : ExecOutcome s .endList { s with st := .halted }
  | loaded (r : Fin 16) (imm : Word) : ExecOutcome s (.ldi r imm) (s.setG r imm).advance
  | initialized (imm : Word) (state : s.inited = false) :
      ExecOutcome s (.init imm) { s with cap := imm, inited := true }.advance
  | raised {i : Instr} (v : Violation) (rejected : ¬Accepts i s) : ExecOutcome s i (s.raise v)
  | completed {i : Instr} (w : List Run) (e : Effect) (kind : isControl i = false) (accepted : Accepts i s)
      (bytes : ∀ a, a ∈ addresses w ↔ Reaches (writes i s) a)
      (results : ∀ c ∈ e.results, c.1 ∈ resultRegisters i) : ExecOutcome s i (s.commit w e).advance

/-- Every answer of `exec` is one of these. -/
theorem exec_outcome {i : Instr} {s t : State} (h : exec i s = .next t) : ExecOutcome s i t := by
  by_cases hc : isControl i = true
  · cases i with
    | endList => cases h; exact .halted
    | ldi r imm => cases h; exact .loaded r imm
    | init imm =>
      simp only [exec, execInit] at h
      split at h <;> rename_i hinited <;> cases h
      · exact .raised _ fun hacc => by simp [(accepts_init imm s).1 hacc] at hinited
      · exact .initialized imm (by simpa using hinited)
    | _ => cases hc
  · have hc : isControl i = false := by simpa using hc
    rcases exec_outcomes i s hc with ⟨hrej, v, he⟩ | ⟨hacc, w, e, hw, hq, he⟩ <;> rw [he] at h <;> cases h
    · exact .raised v hrej
    · exact .completed w e hc hacc hw hq

/-- Settles O14: by the outcome of the instruction. -/
theorem registersKeptByInstructions : Obligations.RegistersKeptByInstructions := by
  intro i s t h
  cases exec_outcome h with
  | halted => exact ⟨fun _ => rfl, fun _ => ⟨rfl, rfl⟩, fun _ _ => ⟨rfl, rfl, rfl⟩, rfl, rfl, rfl, rfl, rfl⟩
  | loaded r imm =>
    exact ⟨fun hne => absurd rfl (hne r imm), fun _ => ⟨rfl, rfl⟩, fun _ _ => ⟨rfl, rfl, rfl⟩, rfl, rfl, rfl, rfl, rfl⟩
  | initialized imm =>
    exact ⟨fun _ => rfl, fun hne => absurd rfl (hne imm), fun _ _ => ⟨rfl, rfl, rfl⟩, rfl, rfl, rfl, rfl, rfl⟩
  | raised v => exact ⟨fun _ => rfl, fun _ => ⟨rfl, rfl⟩, fun _ hst => absurd rfl hst, rfl, rfl, rfl, rfl, rfl⟩
  | completed w e => exact ⟨fun _ => rfl, fun _ => ⟨rfl, rfl⟩, fun _ _ => ⟨rfl, rfl, rfl⟩, rfl, rfl, rfl, rfl, rfl⟩

/-- Settles O15: only a write phase writes result registers, those of the command's row. -/
theorem resultRegistersByTable : Obligations.ResultRegistersByTable := by
  intro i s t h r hr
  cases exec_outcome h with
  | halted => rfl
  | loaded r imm => rfl
  | initialized imm => rfl
  | raised v => rfl
  | completed w e _ _ _ hq => exact setResults_other fun c hc hcr => hr (hcr ▸ hq c hc)

/-- Settles O17: by the outcome of the instruction. -/
theorem commandPointer : Obligations.CommandPointer := by
  intro i s t hs h
  cases exec_outcome h with
  | halted => exact .inr ⟨.inl ⟨rfl, rfl⟩, rfl⟩
  | loaded r imm => exact .inl ⟨hs, rfl⟩
  | initialized imm => exact .inl ⟨hs, rfl⟩
  | raised v => exact .inr ⟨.inr rfl, rfl⟩
  | completed w e => exact .inl ⟨hs, rfl⟩

/-! ## What a step can do -/

/-- The states a step can answer from `s`: a stopped engine keeps its state, a running one enters a fault or completes a
command, the host does one operation. -/
inductive StepOutcome (s : State) : State → Prop
  | stopped (move : s.move = .engine) (state : s.st ≠ .running) : StepOutcome s s.popMove
  | faulted (move : s.move = .engine) (state : s.st = .running) (v : Violation) (f : Nat) :
      StepOutcome s { s.popMove.raise v with fresh := f }
  | ran (move : s.move = .engine) (state : s.st = .running) {i : Instr} {u : State}
      (decoded : decode (s.seen.mem.fetch s.cp.toNat) = .ok i) (run : exec i s.popMove.seen = .next u)
      (kept : u.st ≠ .faulted) : StepOutcome s (s.popMove.settle (storedBy i s.popMove.seen) u)
  | host {op : HostOp} {t : State} (move : s.move = .host op) (done : hostMove op s.popMove = .next t) : StepOutcome s t

theorem State.popMove_of_cons {s : State} {m : Move} {ms : List Move} (h : s.moves = m :: ms) :
    s.popMove = { s with moves := ms } := by
  simp only [State.popMove, h, List.tail_cons]

/-- The host's move is its operation on the state with the move taken from the schedule. -/
theorem step_of_host {s : State} {op : HostOp} {ms : List Move} (h : s.moves = .host op :: ms) :
    step s = hostMove op { s with moves := ms } := by
  simp only [step, State.nextMove, h]

theorem State.moves_of_move_host {s : State} {op : HostOp} (h : s.move = .host op) : ∃ ms, s.moves = .host op :: ms := by
  unfold State.move at h
  split at h
  · cases h
  · subst h
    exact ⟨_, ‹_›⟩

/-- The engine's move is taken on the state with the move taken from the schedule. -/
theorem step_of_engine {s : State} (h : s.move = .engine) : step s = s.popMove.engineMove := by
  unfold State.move at h
  cases hm : s.moves with
  | nil =>
    have hpop : s.popMove = s := by cases s; cases hm; rfl
    simp only [step, State.nextMove, hm, hpop]
  | cons m ms =>
    rw [hm] at h
    cases (h : m = .engine)
    simp only [step, State.nextMove, hm, State.popMove_of_cons hm]

/-- A fetch and command of an engine that has not faulted enters a fault, or is a command that completes. -/
theorem StepOutcome.of_fetchAndRun {s t : State} (hmove : s.move = .engine) (hst : s.st = .running)
    (h : s.popMove.fetchAndRun = .next t) : StepOutcome s t := by
  rcases s.popMove.fetchAndRun_cases with ⟨-, e⟩ | ⟨-, -, e⟩ | ⟨-, -, e⟩ | ⟨-, i, u, hdec, hu, ⟨hf, e⟩ | ⟨hf, e⟩⟩ <;>
    rw [e] at h <;> cases h
  · exact .faulted hmove hst _ s.fresh
  · exact .faulted hmove hst _ s.fresh
  · exact .faulted hmove hst _ _
  · obtain ⟨v, rfl⟩ := exec_eq_raise_of_faulted (by simp [hst]) hu hf
    exact .faulted hmove hst v _
  · exact .ran hmove hst hdec hu hf

/-- Every answer of `step` is one of these. -/
theorem step_outcome {s t : State} (h : step s = .next t) : StepOutcome s t := by
  cases hmove : s.move with
  | engine =>
    rw [step_of_engine hmove] at h
    unfold State.engineMove at h
    split at h
    · cases h
    · split at h
      · exact .of_fetchAndRun hmove ‹_› h
      · cases h
        exact .stopped hmove ‹_›
  | host op =>
    obtain ⟨ms, hms⟩ := State.moves_of_move_host hmove
    rw [step_of_host hms, ← State.popMove_of_cons hms] at h
    exact .host hmove h

/-! ## What the host can do (10_state.md R44, 20_memory.md R67) -/

theorem State.hostStart_of_idle_or_halted {s : State} (h : s.st = .idle ∨ s.st = .halted) (addr : Word) :
    s.hostStart addr = { s with cp := addr, st := .running, written := [], raced := [] } := by
  rcases h with h | h <;> simp only [State.hostStart, h]

theorem State.hostStart_of_running_or_faulted {s : State} (h : s.st = .running ∨ s.st = .faulted) (addr : Word) :
    s.hostStart addr = s := by
  rcases h with h | h <;> simp only [State.hostStart, h]

theorem EngineState.accepts_start_or_not (e : EngineState) :
    (e = .idle ∨ e = .halted) ∨ e = .running ∨ e = .faulted := by
  cases e <;> simp

theorem State.hostWrite_eq (s : State) (n v : Word) :
    s.hostWrite n v =
      if s.st ≠ .running ∧ n.toNat < 16 then { s with g := s.g.setIfInBounds n.toNat v } else s := by
  unfold State.hostWrite
  by_cases hst : s.st = .running
  · simp [hst]
  · by_cases hn : n.toNat < 16
    · simp [hst, hn, State.setG, Nat.mod_eq_of_lt hn, Vector.setIfInBounds, Vector.set, Array.setIfInBounds]
    · simp [hst, hn]

/-- A memory read of the host changes the reply and the counter only. -/
theorem State.hostMemRead_next {s t : State} {a : Nat} (h : s.hostMemRead a = .next t) :
    ∃ reply fresh, t = { s with reply := reply, fresh := fresh } := by
  unfold State.hostMemRead at h
  split at h
  · cases h
  · split at h <;> cases h
    · exact ⟨_, s.fresh, rfl⟩
    · exact ⟨_, _, rfl⟩

/-- A memory write of the host is inside memory; it races during a run. -/
theorem State.hostMemWrite_next {s t : State} {a : Nat} {v : Byte} (h : s.hostMemWrite a v = .next t) :
    a < s.cfg.memSize ∧ (t = s.racingWrite a v ∨ t = { s with mem := s.mem.write a v }) := by
  unfold State.hostMemWrite at h
  split at h
  · cases h
  · refine ⟨Nat.lt_of_not_le ‹_›, ?_⟩
    split at h <;> cases h
    · exact .inl rfl
    · exact .inr rfl

/-- No operation of the host but `RESET` and `START` changes `STATUS.STATE` (10_state.md R32). -/
theorem hostMove_keeps_state {op : HostOp} {s t : State} (hreset : op ≠ .reset) (hstart : ∀ a, op ≠ .start a)
    (h : hostMove op s = .next t) : t.st = s.st := by
  cases op with
  | reset => exact absurd rfl hreset
  | start a => exact absurd rfl (hstart a)
  | read n => cases h; rfl
  | write n v =>
    cases h
    rw [State.hostWrite_eq]
    split <;> rfl
  | memRead a =>
    obtain ⟨_, _, rfl⟩ := State.hostMemRead_next h
    rfl
  | memWrite a v =>
    obtain ⟨-, rfl | rfl⟩ := State.hostMemWrite_next h <;> rfl

/-- Settles O13: by the outcome of the step, for a completed command by that of its instruction. -/
theorem stateTransitions : Obligations.StateTransitions := by
  intro s t h
  cases step_outcome h with
  | stopped hmove hst =>
    exact .inr (.inr (.inr (.inr ⟨fun _ => by simp [hmove], by simp [hmove], rfl, fun _ _ => rfl⟩)))
  | faulted hmove hst v f => exact .inr (.inr (.inr (.inl ⟨hmove, hst, v.cause, v.info, f, rfl⟩)))
  | ran hmove hst hdec hrun hkept =>
    cases exec_outcome hrun with
    | halted => exact .inr (.inr (.inl ⟨hmove, hst, rfl, hdec⟩))
    | raised v => exact absurd rfl hkept
    | _ =>
      exact .inr (.inr (.inr (.inr ⟨fun _ => by simp [hmove], by simp [hmove], rfl, fun _ hne => absurd hst hne⟩)))
  | @host op t hmove hdone =>
    cases op with
    | reset => cases hdone; exact .inl ⟨hmove, rfl⟩
    | start addr =>
      cases hdone
      rcases s.st.accepts_start_or_not with hst | hst
      · refine .inr (.inl ⟨addr, hmove, .inl ⟨hst, ?_⟩⟩)
        rw [State.hostStart_of_idle_or_halted (s := s.popMove) hst]
        exact ⟨rfl, rfl⟩
      · exact .inr (.inl ⟨addr, hmove, .inr ⟨hst, State.hostStart_of_running_or_faulted (s := s.popMove) hst addr⟩⟩)
    | _ =>
      exact .inr (.inr (.inr (.inr ⟨fun _ => by simp [hmove], by simp [hmove],
        hostMove_keeps_state (s := s.popMove) (by simp) (by simp) hdone, fun he => by simp [hmove] at he⟩)))

/-! ## The invariant of the machine -/

/-- While it is not `FAULTED`, the fault registers are those of the reset state. -/
theorem State.faultRegisters_of_ne_faulted {s t : State} (hs : s.faultRegisters) (hst : s.st ≠ .faulted)
    (ht : t.st ≠ .faulted) (hcause : t.fcause = s.fcause) (hfcp : t.fcp = s.fcp) (hinfo : t.finfo = s.finfo) :
    t.faultRegisters := by
  obtain ⟨hiff, -, hzero⟩ := hs
  refine ⟨⟨fun e => absurd e ht, fun e => absurd (hiff.2 (hcause ▸ e)) hst⟩, fun e => absurd e ht, fun _ => ?_⟩
  rw [hfcp, hinfo]
  exact hzero hst

/-- Fault entry leaves fault registers that tell of the fault (60_exceptions.md R336). -/
theorem State.raise_faultRegisters (s : State) (v : Violation) : (s.raise v).faultRegisters :=
  ⟨⟨fun _ => rfl, fun _ => rfl⟩, fun _ => rfl, fun e => absurd rfl e⟩

theorem State.Inv.raise {s : State} (h : s.Inv) (v : Violation) : (s.raise v).Inv :=
  { h with faultRegisters := s.raise_faultRegisters v }

theorem State.Inv.popMove {s : State} (h : s.Inv) : s.popMove.Inv := { h with }

/-- The command sees a memory that is canonical and inside `MEM_SIZE`. -/
theorem State.Inv.seen {s : State} (h : s.Inv) : s.seen.Inv :=
  { h with
    memCanonical := Memory.seen_wf h.memCanonical _ _
    memInside := Memory.seen_inside h.memInside h.racedInside _ }

/-- Settling the races after a command keeps the invariant: it writes racing bytes only. -/
theorem State.Inv.settle {s t : State} (hs : s.Inv) (ht : t.Inv) (hcfg : t.cfg = s.cfg) (ws : List Rect) :
    (s.settle ws t).Inv := by
  have hraced : ∀ c ∈ s.raced, c.1 < t.cfg.memSize := hcfg ▸ hs.racedInside
  refine { ht with
    memCanonical := Memory.settle_wf ht.memCanonical _ _ _ _ _
    memInside := Memory.settle_inside ht.memInside hraced _ _ _ _
    racedInside := fun c hc => ?_ }
  rw [State.settle_raced, mem_foldr_note, mem_newRaces] at hc
  rcases hc with ⟨⟨v, hv⟩, -⟩ | hc
  · exact hraced (c.1, v) hv
  · exact hraced c hc

/-- A command of a running engine keeps the invariant. -/
theorem exec_keeps_inv {i : Instr} {s t : State} (hs : s.Inv) (hst : s.st = .running) (h : exec i s = .next t) :
    t.Inv := by
  have hne : s.st ≠ .faulted := by simp [hst]
  have registers {u : State} (hu : u.st ≠ .faulted) :=
    State.faultRegisters_of_ne_faulted (t := u) hs.faultRegisters hne hu
  cases exec_outcome h with
  | halted => exact { hs with faultRegisters := registers (by simp) rfl rfl rfl }
  | loaded r imm => exact { hs with faultRegisters := registers hne rfl rfl rfl }
  | initialized imm =>
    exact { hs with faultRegisters := registers hne rfl rfl rfl, capWhenInited := fun e => by cases e }
  | raised v => exact hs.raise v
  | completed w e _ hacc hw =>
    obtain ⟨-, -, hin⟩ := hacc
    exact { hs with
      memCanonical := State.commit_wf hs.memCanonical w e
      memInside := State.commit_inside hs.memInside (fun a ha => allInMemory_iff.1 hin a ((hw a).1 ha)) e
      faultRegisters := registers hne rfl rfl rfl }

/-- `RESET` establishes all of the invariant but what it says of memory, which `RESET` leaves (10_state.md R46). -/
theorem State.hostReset_inv {s : State} (hm : s.mem.wf) (hin : s.memInside) : s.hostReset.Inv where
  memCanonical := hm
  memInside := hin
  faultRegisters := by simp [State.faultRegisters]
  capWhenInited := fun _ => rfl
  racedInside := fun _ hc => absurd hc List.not_mem_nil

theorem State.Inv.hostStart {s : State} (h : s.Inv) (addr : Word) : (s.hostStart addr).Inv := by
  rcases s.st.accepts_start_or_not with hst | hst
  · rw [State.hostStart_of_idle_or_halted hst]
    have hne : s.st ≠ .faulted := by rcases hst with hst | hst <;> simp [hst]
    exact { h with
      faultRegisters := State.faultRegisters_of_ne_faulted h.faultRegisters hne (by simp) rfl rfl rfl
      racedInside := fun _ hc => absurd hc List.not_mem_nil }
  · rwa [State.hostStart_of_running_or_faulted hst]

theorem State.Inv.memWrite {s : State} (h : s.Inv) {a : Nat} (ha : a < s.cfg.memSize) (v : Byte) :
    State.Inv { s with mem := s.mem.write a v } :=
  { h with
    memCanonical := Memory.write_wf h.memCanonical a v
    memInside := Memory.storeAll_inside h.memInside (stores := [(a, v)]) (by simpa using ha) }

theorem State.Inv.racingWrite {s : State} (h : s.Inv) {a : Nat} (ha : a < s.cfg.memSize) (v : Byte) :
    (s.racingWrite a v).Inv := by
  refine { h with
    memCanonical := State.racingWrite_wf h.memCanonical a v, memInside := ?_, racedInside := fun c hc => ?_ }
  · show ∀ c ∈ (s.racingWrite a v).mem, c.1 < s.cfg.memSize
    rw [State.racingWrite_mem]
    split
    · exact h.memInside
    · exact (h.memWrite ha v).memInside
  · rw [State.racingWrite_raced, mem_note, mem_note] at hc
    rcases hc with rfl | rfl | hc
    · exact ha
    · exact ha
    · exact h.racedInside c hc

/-- Every operation of the host keeps the invariant. -/
theorem hostMove_keeps_inv {op : HostOp} {s t : State} (hs : s.Inv) (h : hostMove op s = .next t) : t.Inv := by
  cases op with
  | reset => cases h; exact State.hostReset_inv hs.memCanonical hs.memInside
  | start addr => cases h; exact hs.hostStart addr
  | read n => cases h; exact { hs with }
  | write n v =>
    cases h
    rw [State.hostWrite_eq]
    split
    · exact { hs with }
    · exact hs
  | memRead a =>
    obtain ⟨_, _, rfl⟩ := State.hostMemRead_next h
    exact { hs with }
  | memWrite a v =>
    obtain ⟨ha, rfl | rfl⟩ := State.hostMemWrite_next h
    · exact hs.racingWrite ha v
    · exact hs.memWrite ha v

/-- Settles O12: the invariant holds of what the command sees, of what it leaves, and after the races are settled; and every
operation of the host keeps it. -/
theorem stepKeepsInvariant : Obligations.StepKeepsInvariant := by
  intro s t hs h
  cases step_outcome h with
  | stopped => exact hs.popMove
  | faulted hmove hst v f => exact { hs.popMove.raise v with }
  | @ran hmove hst i u hdec hrun hkept =>
    obtain ⟨-, -, -, hcfg, -⟩ := registersKeptByInstructions i _ u hrun
    exact hs.popMove.settle (exec_keeps_inv hs.popMove.seen hst hrun) hcfg _
  | host hmove hdone => exact hostMove_keeps_inv hs.popMove hdone

/-- Settles O11: the reset state is a `RESET` of itself (10_state.md R46), with nothing listed in memory. -/
theorem invariantAtReset : Obligations.InvariantAtReset :=
  State.hostReset_inv (s := State.reset) State.reset_mem_wf fun _ hc => absurd hc List.not_mem_nil

/-! ## Reset and the host port (10_state.md R44 to R46) -/

theorem step_of_reset {s t : State} {ms : List Move} (hm : s.moves = .host .reset :: ms) (h : step s = .next t) :
    t = { s with moves := ms }.hostReset := by
  rw [step_of_host hm] at h
  cases h
  rfl

/-- Settles O10: the reset state is a `RESET` of itself, so that both cases are the values `RESET` gives. -/
theorem resetState : Obligations.ResetState := by
  refine ⟨fun s hs => ?_, fun r s ms hm h => step_of_reset hm h ▸ rfl⟩
  obtain ⟨r, rfl⟩ : ∃ r : State, s = r.hostReset := by
    rcases hs with rfl | ⟨r, ms, hm, h⟩
    · exact ⟨State.reset, rfl⟩
    · exact ⟨_, step_of_reset hm h⟩
  exact ⟨fun k => by simp, fun k => by simp, rfl, rfl, rfl, rfl, rfl, rfl, rfl⟩

theorem State.status_eq (s : State) : s.status = portRegister s 0x21 := by
  unfold State.status portRegister
  cases s.st <;> cases s.inited <;> rfl

theorem State.fcauseWord_eq (s : State) : s.fcauseWord = portRegister s 0x23 := by
  unfold State.fcauseWord portRegister
  cases s.fcause with
  | none => rfl
  | some c => cases c <;> rfl

/-- The register of a port number, with the words `STATUS` and `FCAUSE` written out (10_state.md R45). -/
theorem State.port_eq (s : State) (n : Word) : s.port n = portRegister s n.toNat := by
  unfold State.port
  split
  · rename_i hg
    simp [portRegister, hg, Nat.le_of_lt_succ hg]
  · rename_i hg
    split
    · rename_i hq
      have hindex : n.toNat - 16 < 4 := by omega
      have hlast : n.toNat ≤ 19 := by omega
      simp [portRegister, hindex, hq.1, hlast, Nat.not_le_of_lt (show 15 < n.toNat by omega)]
    · split <;> rename_i hn
      · rw [hn]; rfl
      · rw [hn]; exact s.status_eq
      · rw [hn]; rfl
      · rw [hn]; exact s.fcauseWord_eq
      · rw [hn]; rfl
      · rw [hn]; rfl
      · rename_i hcp hstatus hcap hfcause hfcp
        have hoperand : ¬n.toNat ≤ 0x0F := by omega
        have hresult : ¬(0x10 ≤ n.toNat ∧ n.toNat ≤ 0x13) := by omega
        rw [portRegister, if_neg hoperand, if_neg hresult, if_neg hcp, if_neg hstatus, if_neg hcap, if_neg hfcause,
          if_neg hfcp, if_neg hn]

/-- Settles O8: each operation on the state with the move taken from the schedule. -/
theorem hostPortOperations : Obligations.HostPortOperations := by
  intro s ms
  refine ⟨fun hm => ?_, fun addr hm => ?_, fun n hm => ?_, fun n v hm => ?_⟩ <;> rw [step_of_host hm, hostMove]
  · rfl
  · rcases s.st.accepts_start_or_not with hst | hst
    · rw [if_pos hst, State.hostStart_of_idle_or_halted (s := { s with moves := ms }) hst]
    · have hne : ¬(s.st = .idle ∨ s.st = .halted) := by rcases hst with hst | hst <;> simp [hst]
      rw [if_neg hne, State.hostStart_of_running_or_faulted (s := { s with moves := ms }) hst]
  · rw [State.port_eq]
    rfl
  · rw [State.hostWrite_eq]

end Sys2Proof.Machine
end

section
/-! The statements of the family 20_memory.md: the host's access to memory, and what a command sees and leaves where the host
has written memory during the run. -/

namespace Sys2Proof.Machine

/-! ## The run ahead is the engine's moves (20_memory.md R67, 10_state.md R47) -/

theorem State.fetchAndRun_keeps_cfg_moves {s t : State} (h : s.fetchAndRun = .next t) :
    t.cfg = s.cfg ∧ t.moves = s.moves := by
  rcases s.fetchAndRun_cases with ⟨-, e⟩ | ⟨-, -, e⟩ | ⟨-, -, e⟩ | ⟨-, i, u, -, hu, hrun⟩
  · cases e.symm.trans h; exact ⟨rfl, rfl⟩
  · cases e.symm.trans h; exact ⟨rfl, rfl⟩
  · cases e.symm.trans h; exact ⟨rfl, rfl⟩
  · obtain ⟨-, -, -, hcfg, hmoves, -⟩ := registersKeptByInstructions i _ u hu
    rcases hrun with ⟨-, e⟩ | ⟨-, e⟩ <;> cases e.symm.trans h <;> exact ⟨hcfg, hmoves⟩

/-- A step and the steps after it. -/
theorem run_succ_of_step {s t : State} (h : step s = .next t) (k : Nat) :
    Sys2Proof.core.run (k + 1) s = Sys2Proof.core.run k t := by
  have h : Sys2Proof.core.step s = .next t := h
  simp only [Host.Core.run, h]

/-- With an empty schedule every move is the engine's: so many steps are the engine alone, for so many commands. -/
theorem run_eq_runAlone {s : State} (hw : s.cfg.wf = true) (hm : s.moves = []) (k : Nat) :
    Sys2Proof.core.run k s = .next (s.runAlone k) := by
  induction k generalizing s with
  | zero => rfl
  | succ k ih =>
    have hstep : step s = s.engineMove := by simp only [step, State.nextMove, hm]
    by_cases hst : s.st = .running
    · obtain ⟨t, ht⟩ := s.fetchAndRun_answers
      obtain ⟨hcfg, hmoves⟩ := State.fetchAndRun_keeps_cfg_moves ht
      have hnext : step s = .next t := by rw [hstep, State.engineMove, hw, if_pos hst, ht]; rfl
      rw [run_succ_of_step hnext, ih (hcfg ▸ hw) (hmoves.trans hm), State.runAlone_running hst ht]
    · have hnext : step s = .next s := by rw [hstep, State.engineMove, hw, if_neg hst]; rfl
      rw [run_succ_of_step hnext, ih hw hm, State.runAlone_stopped hst, State.runAlone_stopped hst]

theorem State.runAlone_written_mono {s : State} {k n : Nat} (hk : k ≤ n) {a : Int}
    (h : Reaches (s.runAlone k).written a) : Reaches (s.runAlone n).written a := by
  obtain ⟨ws, hws⟩ := (s.runAlone k).runAlone_written (n - k)
  rw [← State.runAlone_add, Nat.add_sub_cancel' hk] at hws
  obtain ⟨r, hr, ha⟩ := h
  exact ⟨r, hws ▸ List.mem_append_right ws hr, ha⟩

/-! ## The host's access to one byte (20_memory.md R67) -/

theorem State.unwrittenByRun_iff {s : State} {a : Nat} :
    s.unwrittenByRun a = true ↔ ¬Reaches s.runAhead.written a := by
  simp only [State.unwrittenByRun, Bool.not_eq_true', ← covers_iff, Bool.not_eq_true]

/-- A byte, read as an unsigned number and held in a register. -/
theorem ofInt_byteAt (m : Memory) (a : Nat) : BitVec.ofInt 32 (byteAt m a) = (m.read a).setWidth 32 := by
  rw [byteAt, Int.toNat_natCast, BitVec.ofInt_natCast, BitVec.ofNat_toNat]

theorem State.hostMemRead_byte {s : State} {a : Nat} (ha : a < s.cfg.memSize)
    (h : s.st ≠ .running ∨ ¬Reaches s.runAhead.written a) :
    s.hostMemRead a = .next { s with reply := some (BitVec.ofInt 32 (byteAt s.mem a)) } := by
  rw [ofInt_byteAt, State.hostMemRead, if_neg (Nat.not_le.2 ha), if_pos]
  simpa only [Bool.or_eq_true, decide_eq_true_eq, State.unwrittenByRun_iff] using h

theorem State.hostMemRead_free {s : State} {a : Nat} (ha : a < s.cfg.memSize) (hst : s.st = .running)
    (h : Reaches s.runAhead.written a) :
    s.hostMemRead a = .next
      { s with reply := some ((Config.freeByte s.fresh).setWidth 32), fresh := s.fresh + 1 } := by
  rw [State.hostMemRead, if_neg (Nat.not_le.2 ha), if_neg]
  simpa only [Bool.or_eq_true, decide_eq_true_eq, State.unwrittenByRun_iff, not_or, not_not] using ⟨hst, h⟩

theorem State.hostMemWrite_stopped {s : State} {a : Nat} (ha : a < s.cfg.memSize) (hst : s.st ≠ .running) (v : Byte) :
    s.hostMemWrite a v = .next { s with mem := s.mem.write a v } := by
  rw [State.hostMemWrite, if_neg (Nat.not_le.2 ha), if_neg hst]

theorem State.hostMemWrite_running {s : State} {a : Nat} (ha : a < s.cfg.memSize) (hst : s.st = .running) (v : Byte) :
    s.hostMemWrite a v = .next (s.racingWrite a v) := by
  rw [State.hostMemWrite, if_neg (Nat.not_le.2 ha), if_pos hst]

theorem State.mem_racingWrite_raced {s : State} {a : Nat} {v : Byte} {c : Host.Cell} :
    c ∈ (s.racingWrite a v).raced ↔ c ∈ s.raced ∨ c = (a, v) ∨ c = (a, s.mem.read a) := by
  rw [State.racingWrite_raced, mem_note, mem_note]
  tauto

/-- Settles O9: the run ahead is the engine's run at some number of commands, the bound at least, and what a run has written
stays written. -/
theorem hostMemoryAccess : Obligations.HostMemoryAccess := by
  intro s ms a hwf ha
  refine ⟨fun hm => ?_, fun v hm => ?_⟩ <;> rw [step_of_host hm, hostMove]
  · refine ⟨fun hst => State.hostMemRead_byte (s := { s with moves := ms }) ha (.inl hst), fun hcfg hst => ?_⟩
    obtain ⟨n, hn, hahead⟩ := State.runAhead_eq { s with moves := ms }
    have hrun (k : Nat) := run_eq_runAlone (s := { s with moves := [] }) hcfg rfl k
    refine ⟨fun hnone => ?_, fun k t hk ht hreach => ?_, ?_⟩
    · exact State.hostMemRead_byte (s := { s with moves := ms }) ha (.inr (hahead ▸ hnone n _ (hrun n)))
    · cases (hrun k).symm.trans ht
      exact State.hostMemRead_free (s := { s with moves := ms }) ha hst
        (hahead ▸ State.runAlone_written_mono (Nat.le_trans hk hn) hreach)
    · by_cases hreach : Reaches (State.runAhead { s with moves := ms }).written a
      · exact .inr (State.hostMemRead_free (s := { s with moves := ms }) ha hst hreach)
      · exact .inl (State.hostMemRead_byte (s := { s with moves := ms }) ha (.inr hreach))
  · refine ⟨fun hst => ?_, fun hst => ?_⟩
    · exact ⟨s.mem.write a v, State.hostMemWrite_stopped (s := { s with moves := ms }) ha hst v,
        Memory.read_write_same hwf a v, fun b hb => Memory.read_write_other hb v⟩
    · obtain ⟨hbyte, hother⟩ := State.racingWrite_read (s := { s with moves := ms }) hwf a v
      exact ⟨_, _, _, State.hostMemWrite_running (s := { s with moves := ms }) ha hst v,
        hbyte.imp_right (And.imp_left covers_iff.1), hother, fun c => State.mem_racingWrite_raced⟩

/-! ## The words that are no command (30_encoding.md R93, R95) -/

theorem toNat_field (w : Word) (lo len : Nat) : (w.extractLsb' lo len).toNat = wordField w lo len := by
  rw [BitVec.extractLsb'_toNat, Nat.shiftRight_eq_div_pow]
  rfl

theorem field_ne_zero_iff {w : Word} {lo len : Nat} : w.extractLsb' lo len ≠ 0 ↔ wordField w lo len ≠ 0 := by
  rw [← toNat_field, Ne, ← BitVec.toNat_inj]
  rfl

theorem wordField_lt (w : Word) (lo len : Nat) : wordField w lo len < 2 ^ len := Nat.mod_lt _ (Nat.two_pow_pos len)

/-- Two neighbouring fields as one: it is zero when both are. -/
theorem wordField_add_ne_zero {w : Word} {lo m n : Nat} :
    wordField w lo (m + n) ≠ 0 ↔ wordField w lo m ≠ 0 ∨ wordField w (lo + m) n ≠ 0 := by
  simp only [wordField, Nat.pow_add, ← Nat.div_div_eq_div_mul, Nat.mod_mul, Ne, Nat.add_eq_zero_iff, Nat.mul_eq_zero,
    Nat.pow_eq_zero, OfNat.ofNat_ne_zero, false_and, false_or, not_and_or]

/-- A test of a format that fails is an error, and else what follows decides. -/
theorem error_of_ite_iff {c : Prop} [Decidable c] {e : DecodeError} {x : Except DecodeError Instr} :
    (∃ d, (if c then .error e else x) = .error d) ↔ c ∨ ∃ d, x = .error d := by
  by_cases hc : c <;> simp [hc]

theorem readZ_error_iff {w0 w1 : Word} {i : Instr} :
    (∃ e, readZ w0 w1 i = .error e) ↔ wordField w0 8 14 ≠ 0 ∨ w1 ≠ 0 := by
  have hfields : wordField w0 8 (4 + (2 + (2 + (4 + 2)))) ≠ 0 ↔
      rField w0 ≠ 0 ∨ wcField w0 ≠ 0 ∨ hcField w0 ≠ 0 ∨ modeField w0 ≠ 0 ∨ clsField w0 ≠ 0 := by
    simp only [wordField_add_ne_zero, rField, wcField, hcField, modeField, clsField, field_ne_zero_iff]
  rw [readZ, error_of_ite_iff, error_of_ite_iff, ← hfields]
  simp

theorem readI_error_iff {w0 : Word} {build : Nat → Except DecodeError Instr} :
    (∃ e, readI w0 build = .error e) ↔ wordField w0 12 10 ≠ 0 ∨ ∃ e, build (wordField w0 8 4) = .error e := by
  have hfields : wordField w0 12 (2 + (2 + (4 + 2))) ≠ 0 ↔
      wcField w0 ≠ 0 ∨ hcField w0 ≠ 0 ∨ modeField w0 ≠ 0 ∨ clsField w0 ≠ 0 := by
    simp only [wordField_add_ne_zero, wcField, hcField, modeField, clsField, field_ne_zero_iff]
  rw [readI, error_of_ite_iff, ← hfields, rField, toNat_field]

theorem readB_error_iff {w0 w1 : Word} {build : SizeCode → SizeCode → Instr} :
    (∃ e, readB w0 w1 build = .error e) ↔ wordField w0 16 6 ≠ 0 ∨ wordField w0 8 4 ≠ 0 ∨ w1 ≠ 0 := by
  have hfields : wordField w0 16 (4 + 2) ≠ 0 ↔ modeField w0 ≠ 0 ∨ clsField w0 ≠ 0 := by
    simp only [wordField_add_ne_zero, modeField, clsField, field_ne_zero_iff]
  rw [readB, error_of_ite_iff, error_of_ite_iff, ← hfields, rField, field_ne_zero_iff]
  simp [or_assoc, or_left_comm]

/-- The pairs that name no slot (30_encoding.md R89, R90). -/
theorem predictionOf_eq_none_iff : ∀ cls < 4, ∀ mode < 16, predictionOf cls mode = none ↔ ¬legalPair cls mode := by
  unfold legalPair
  decide

theorem readP_error_iff {w0 w1 : Word} :
    (∃ e, readP w0 w1 = .error e) ↔
      wordField w0 8 8 ≠ 0 ∨ w1 ≠ 0 ∨ ¬legalPair (wordField w0 20 2) (wordField w0 16 4) := by
  have hfields : wordField w0 8 (4 + (2 + 2)) ≠ 0 ↔ rField w0 ≠ 0 ∨ wcField w0 ≠ 0 ∨ hcField w0 ≠ 0 := by
    simp only [wordField_add_ne_zero, rField, wcField, hcField, field_ne_zero_iff]
  rw [readP, error_of_ite_iff, error_of_ite_iff, ← hfields, clsField, modeField, toNat_field, toNat_field,
    ← predictionOf_eq_none_iff _ (wordField_lt w0 20 2) _ (wordField_lt w0 16 4)]
  cases predictionOf (wordField w0 20 2) (wordField w0 16 4) <;> simp

theorem toNat_opField (w0 : Word) : (opField w0).toNat = wordField w0 0 8 := toNat_field w0 0 8

/-- The commands without operand fields, formats C and Z. -/
theorem decodeOpcode_readZ {w0 w1 : Word} (h : wordField w0 0 8 ∈ opcodesC ++ opcodesZ) :
    ∃ i, decodeOpcode w0 w1 = readZ w0 w1 i := by
  rw [← toNat_opField] at h
  simp only [opcodesC, opcodesZ, List.cons_append, List.nil_append, List.mem_cons, List.not_mem_nil, or_false] at h
  rcases h with h | h | h | h | h | h | h | h | h | h | h | h | h | h | h | h | h <;>
    simp only [decodeOpcode, h] <;> exact ⟨_, rfl⟩

/-- The commands with a size. -/
theorem decodeOpcode_readB {w0 w1 : Word} (h : wordField w0 0 8 ∈ opcodesB) :
    ∃ build, decodeOpcode w0 w1 = readB w0 w1 build := by
  rw [← toNat_opField] at h
  simp only [opcodesB, List.mem_cons, List.not_mem_nil, or_false] at h
  rcases h with h | h | h | h | h | h | h | h | h | h | h | h | h | h | h <;>
    simp only [decodeOpcode, h] <;> exact ⟨_, rfl⟩

/-- The commands with an immediate. -/
theorem decodeOpcode_readI {w0 w1 : Word} (h : wordField w0 0 8 ∈ opcodesI) :
    ∃ build, decodeOpcode w0 w1 = readI w0 build := by
  rw [← toNat_opField] at h
  simp only [opcodesI, List.mem_cons, List.not_mem_nil, or_false] at h
  rcases h with h | h | h <;> simp only [decodeOpcode, h] <;> exact ⟨_, rfl⟩

theorem decodeOpcode_unknown {w0 w1 : Word}
    (h : wordField w0 0 8 ∉ opcodesC ++ opcodesI ++ opcodesB ++ opcodesZ ++ opcodesP) :
    decodeOpcode w0 w1 = .error .unknownOpcode := by
  rw [← toNat_opField] at h
  unfold decodeOpcode
  split
  case h_37 => rfl
  all_goals exact absurd (‹(opField w0).toNat = _› ▸ by decide) h

theorem decodeWords_error_of_illegalWords {w0 w1 : Word} (h : IllegalWords w0 w1) :
    ∃ e, decodeWords w0 w1 = .error e := by
  rw [decodeWords, error_of_ite_iff, reservedField, field_ne_zero_iff]
  rcases h with hop | hres | ⟨hop, h⟩ | ⟨hop, h⟩ | ⟨hop, h⟩ | ⟨hop, h⟩ | ⟨hop, h⟩ | ⟨hop, h⟩
  · exact .inr ⟨_, decodeOpcode_unknown hop⟩
  · exact .inl hres
  · obtain ⟨i, hread⟩ := decodeOpcode_readZ (w1 := w1) hop
    exact .inr (hread ▸ readZ_error_iff.2 h)
  · obtain ⟨build, hread⟩ := decodeOpcode_readI (w1 := w1) hop
    exact .inr (hread ▸ readI_error_iff.2 (.inl h))
  · simp only [decodeOpcode, toNat_opField, hop]
    exact .inr (readI_error_iff.2 (.inr ⟨_, if_neg h⟩))
  · simp only [decodeOpcode, toNat_opField, hop]
    exact .inr (readI_error_iff.2 (.inr ⟨_, if_neg (Nat.not_le.2 h)⟩))
  · obtain ⟨build, hread⟩ := decodeOpcode_readB (w1 := w1) hop
    exact .inr (hread ▸ readB_error_iff.2 h)
  · simp only [decodeOpcode, toNat_opField, List.mem_singleton.1 hop]
    exact .inr (readP_error_iff.2 h)

/-- The four bytes of a word, as one number (20_memory.md R50). -/
theorem Memory.w0_eq_w0At (m : Memory) (a : Nat) : m.w0 a = w0At m a := by
  have append_toNat {k : Nat} (x : BitVec k) (y : Byte) : (x ++ y).toNat = x.toNat * 2 ^ 8 + y.toNat := by
    rw [BitVec.toNat_append, ← Nat.shiftLeft_add_eq_or_of_lt y.isLt, Nat.shiftLeft_eq]
  have hnat : u32At m a = ((m.w0 a).toNat : Int) := by
    simp only [Memory.w0, wordOfBytes, append_toNat, u32At, u16At, byteAt]
    rw [show ((a : Int) + 1).toNat = a + 1 by omega, show ((a : Int) + 2).toNat = a + 2 by omega,
      show ((a : Int) + 2 + 1).toNat = a + 3 by omega, Int.toNat_natCast]
    omega
  rw [w0At, hnat, BitVec.ofInt_natCast, BitVec.ofNat_toNat, BitVec.setWidth_eq]

theorem decode_fetch (m : Memory) (a : Nat) : decode (m.fetch a) = decodeWords (w0At m a) (w1At m a) := by
  have hnext : w1At m a = m.w0 (a + 4) := (m.w0_eq_w0At (a + 4)).symm
  rw [hnext, ← Memory.w0_eq_w0At]
  rfl

/-- The step of a running engine at words that are no command (60_exceptions.md R323). -/
theorem step_of_illegalWords {s : State} (hready : s.ready) (hfetch : s.canFetch)
    (h : IllegalWords (w0At s.seen.mem s.cp.toNat) (w1At s.seen.mem s.cp.toNat)) :
    step s = .next
      { faulted s.popMove .illegalCommand (w0At s.seen.mem s.cp.toNat) with fresh := s.seen.fresh } := by
  obtain ⟨e, herr⟩ := decodeWords_error_of_illegalWords h
  rw [← decode_fetch] at herr
  rw [step_of_ready hready, ← Memory.w0_eq_w0At]
  rcases s.popMove.fetchAndRun_cases with ⟨hmis, -⟩ | ⟨-, hout, -⟩ | ⟨-, -, hrun⟩ | ⟨-, i, t, hdec, -⟩
  · exact absurd hfetch.1 hmis
  · exact absurd hfetch.2 (Nat.not_le.2 hout)
  · exact hrun
  · cases herr.symm.trans hdec

/-! ## What a command of a run writes (20_memory.md R60, 41_metrics.md R127; log 23) -/

theorem storedBy_of_not_ads {i : Instr} (hi : i ∉ [Instr.ads1, .ads2, .ads4]) (s : State) :
    storedBy i s = writes i s := by
  unfold storedBy
  split
  · exact absurd (by decide) hi
  · exact absurd (by decide) hi
  · exact absurd (by decide) hi
  · rfl

theorem storedBy_of_ads {i : Instr} (hi : i ∈ [Instr.ads1, .ads2, .ads4]) (s : State) :
    storedBy i s = [stretch (s.unsignedReg 0) (adsStored (adsOffsets i s) s)] := by
  simp only [List.mem_cons, List.not_mem_nil, or_false] at hi
  rcases hi with rfl | rfl | rfl <;> rfl

theorem reads_of_ads {i : Instr} (hi : i ∈ [Instr.ads1, .ads2, .ads4]) (s : State) :
    reads i s = stretch (s.unsignedReg 2) (4 * (adsOffsets i s).length)
      :: (adsOffsets i s).map (fun o => stretch (s.unsignedReg 4 + 2 * o) (2 * s.g[(9 : Fin 16)].toNat))
      ++ [stretch (s.unsignedReg 13) (2 * s.g[(9 : Fin 16)].toNat)] := by
  simp only [List.mem_cons, List.not_mem_nil, or_false] at hi
  rcases hi with rfl | rfl | rfl <;> rfl

/-- The total of a candidate is its cost where the command may read it. -/
theorem adsTotal_eq_adsCost {i : Instr} {s : State} (hi : i ∈ [Instr.ads1, .ads2, .ads4])
    (hin : s.allInMemory (reads i s)) {n : Nat} (hn : n < s.g[(9 : Fin 16)].toNat) :
    adsTotal (adsOffsets i s) s n = adsCost i s n := by
  have hbase {o : Int} (ho : o ∈ adsOffsets i s) : 0 ≤ s.unsignedReg 4 + 2 * (n + o) := by
    refine (allInMemory_iff.1 hin _ ⟨stretch (s.unsignedReg 4 + 2 * o) (2 * s.g[(9 : Fin 16)].toNat), ?_, ?_⟩).1
    · rw [reads_of_ads hi]
      exact List.mem_append_left _ (List.mem_cons_of_mem _ (List.mem_map_of_mem ho))
    · rw [has_stretch]
      omega
  rw [adsTotal, adsCost, sumTo_eq_sum, u16_eq s (by have := addr_nonneg s TBL; omega)]
  refine congrArg₂ (· + ·) (Finset.sum_congr rfl fun k hk => ?_) rfl
  have hk := Finset.mem_range.1 hk
  have ho : (adsOffsets i s).getD k 0 ∈ adsOffsets i s := by
    rw [List.getD_eq_getElem _ _ hk]
    exact List.getElem_mem hk
  rw [iabs_eq_abs, s32_eq s (addr_nonneg s SRCA), u16_eq s (base := s.addr SRCB) (hbase ho)]
  rfl

theorem adsCost_nonneg (i : Instr) (s : State) (n : Nat) : 0 ≤ adsCost i s n :=
  add_nonneg (Finset.sum_nonneg fun _ _ => abs_nonneg _) (u16At_bounds _ _).1

/-- In range an ADS command writes the two bytes of each candidate of its list. -/
theorem adsStored_eq {i : Instr} {s : State} (hi : i ∈ [Instr.ads1, .ads2, .ads4]) (hin : s.allInMemory (reads i s))
    (hcost : ∀ n < s.g[(9 : Fin 16)].toNat, adsCost i s n < 2 ^ 31) :
    adsStored (adsOffsets i s) s = 2 * (adsList i s).length := by
  have hrange : adsInRange (adsOffsets i s) s = true := by
    refine List.all_eq_true.2 fun n hn => decide_eq_true ?_
    have hn := List.mem_range.1 hn
    rw [adsTotal_eq_adsCost hi hin hn]
    exact ⟨adsCost_nonneg i s n, hcost n hn⟩
  have hlist : adsAccepted (adsOffsets i s) s = adsList i s :=
    List.filter_congr fun n hn => by rw [adsTotal_eq_adsCost hi hin (List.mem_range.1 hn)]; rfl
  rw [adsStored, if_pos hrange, hlist]

theorem reaches_storedBy_of_ads {i : Instr} {s : State} (hi : i ∈ [Instr.ads1, .ads2, .ads4])
    (hin : s.allInMemory (reads i s)) (hcost : ∀ n < s.g[(9 : Fin 16)].toNat, adsCost i s n < 2 ^ 31) (a : Int) :
    Reaches (storedBy i s) a ↔
      s.unsignedReg 0 ≤ a ∧ a < s.unsignedReg 0 + 2 * ((adsList i s).length : Nat) := by
  rw [storedBy_of_ads hi, adsStored_eq hi hin hcost, reaches_cons, has_stretch, or_iff_left reaches_nil]
  push_cast
  rfl

/-! ## What a command of a run leaves (20_memory.md R67) -/

theorem exec_keeps_canonical {i : Instr} {s t : State} (hm : s.mem.wf) (h : exec i s = .next t) : t.mem.wf := by
  cases exec_outcome h with
  | completed w e => exact State.commit_wf hm w e
  | _ => exact hm

/-- The bytes that a command of a run leaves: `m` is memory after it, `u` what the command itself did on the memory seen. -/
structure LeavesBytes (s u : State) (ws : List Rect) (m : Memory) : Prop where
  either : ∀ a : Nat, m.read a = u.mem.read a ∨ m.read a = s.mem.read a
  ofUnraced : ∀ a : Nat, ¬s.hostWrote a → m.read a = u.mem.read a
  ofUnwritten : ∀ a : Nat, ¬Reaches ws a → m.read a = s.mem.read a

/-- A command that faults leaves memory as it was. -/
theorem leavesBytes_of_fault {s u : State} (hm : s.mem.wf) (hu : u.mem = s.seen.mem) (ws : List Rect) :
    LeavesBytes s u ws s.mem where
  either _ := .inr rfl
  ofUnraced a ha := by
    rw [hu]
    exact (Memory.read_seen_other hm (fun v hv => ha ⟨v, hv⟩) _).symm
  ofUnwritten _ _ := rfl

/-- A command that completes leaves the bytes it does not write, and the racing ones that it does as the choices say. -/
theorem leavesBytes_of_settle {i : Instr} {s u : State} (hm : s.mem.wf) (h : exec i s.popMove.seen = .next u) :
    LeavesBytes s u (storedBy i s.seen) (s.settle (storedBy i s.seen) u).mem := by
  have hsettle := Memory.read_settle (exec_keeps_canonical (Memory.seen_wf hm _ _) h) (storedBy i s.seen) s.mem u.mem
    s.raced u.fresh
  refine ⟨fun a => ?_, fun a ha => ?_, fun a ha => ?_⟩
  · rcases hsettle a with ⟨-, e⟩ | ⟨-, e | ⟨-, e⟩⟩
    · exact .inl e
    · exact .inr e
    · exact .inl e
  · rcases hsettle a with ⟨-, e⟩ | ⟨hraced, -⟩
    · exact e
    · exact absurd hraced ha
  · rcases hsettle a with ⟨hraced, e⟩ | ⟨-, e | ⟨hcovers, -⟩⟩
    · exact e.trans ((exec_read_other h ha).trans (Memory.read_seen_other hm hraced _))
    · exact e
    · exact absurd (covers_iff.1 hcovers) ha

/-- Settles O60: the command runs on the memory seen; then it has faulted and memory is as it was, or the races are settled. -/
theorem racingAccesses : Obligations.RacingAccesses := by
  intro s hm hready hfetch
  refine ⟨Memory.read_seen hm s.raced s.fresh, step_of_illegalWords hready hfetch, fun i t hdec hstep => ?_⟩
  obtain ⟨u, hu, hnext⟩ := step_of_decode hready hfetch hdec
  cases hstep.symm.trans hnext
  have hads (hi : i ∈ [Instr.ads1, .ads2, .ads4]) : Accepts i s → _ := fun ⟨_, hreads, _⟩ =>
    reaches_storedBy_of_ads (s := s.seen) hi hreads
  have hbytes : LeavesBytes s u (storedBy i s.seen)
      (if u.st = .faulted then { u with mem := s.mem } else s.settle (storedBy i s.seen) u).mem := by
    split
    · obtain ⟨-, hrunning, -⟩ := hready
      obtain ⟨v, rfl⟩ := exec_eq_raise_of_faulted (by simp [hrunning]) hu ‹_›
      exact leavesBytes_of_fault (u := s.popMove.seen.raise v) hm rfl _
    · exact leavesBytes_of_settle hm hu
  refine ⟨u, hu, ?_, hbytes.either, hbytes.ofUnraced, hbytes.ofUnwritten, fun hi => storedBy_of_not_ads hi s.seen, hads⟩
  split <;> rfl

end Sys2Proof.Machine
end

section
/-! The statements of the family 30_encoding.md: the decoder and the encoder agree format by format, and what is no command
raises `ILLEGAL_COMMAND`. -/

namespace Sys2Proof.Machine

/-! ## Packing the fields of a control word, and reading them (30_encoding.md R80, R81) -/

section
variable (op : BitVec 8) (r : BitVec 4) (wc hc : BitVec 2) (mode : BitVec 4) (cls : BitVec 2)

@[simp] theorem opField_packW0 : opField (packW0 op r wc hc mode cls) = op := by
  rw [opField, packW0]
  exact BitVec.extractLsb'_append_eq_right

@[simp] theorem rField_packW0 : rField (packW0 op r wc hc mode cls) = r := by
  rw [rField, packW0, BitVec.extractLsb'_append_eq_of_le (by decide)]
  exact BitVec.extractLsb'_append_eq_right

@[simp] theorem wcField_packW0 : wcField (packW0 op r wc hc mode cls) = wc := by
  rw [wcField, packW0]
  iterate 2 rw [BitVec.extractLsb'_append_eq_of_le (by decide)]
  exact BitVec.extractLsb'_append_eq_right

@[simp] theorem hcField_packW0 : hcField (packW0 op r wc hc mode cls) = hc := by
  rw [hcField, packW0]
  iterate 3 rw [BitVec.extractLsb'_append_eq_of_le (by decide)]
  exact BitVec.extractLsb'_append_eq_right

@[simp] theorem modeField_packW0 : modeField (packW0 op r wc hc mode cls) = mode := by
  rw [modeField, packW0]
  iterate 4 rw [BitVec.extractLsb'_append_eq_of_le (by decide)]
  exact BitVec.extractLsb'_append_eq_right

@[simp] theorem clsField_packW0 : clsField (packW0 op r wc hc mode cls) = cls := by
  rw [clsField, packW0]
  iterate 5 rw [BitVec.extractLsb'_append_eq_of_le (by decide)]
  exact BitVec.extractLsb'_append_eq_right

theorem decodeWords_packW0 (w1 : Word) :
    decodeWords (packW0 op r wc hc mode cls) w1 = decodeOpcode (packW0 op r wc hc mode cls) w1 :=
  if_neg (not_not.2 (Laws.ReservedZero.reserved_packW0 op r wc hc mode cls))

end

/-- A control word whose reserved bits are zero is its fields. -/
theorem packW0_fields {w0 : Word} (h : reservedField w0 = 0) :
    packW0 (opField w0) (rField w0) (wcField w0) (hcField w0) (modeField w0) (clsField w0) = w0 := by
  rw [packW0, ← BitVec.ofNat_eq_ofNat, ← h, reservedField, clsField, modeField, hcField, wcField, rField, opField]
  iterate 6 rw [BitVec.extractLsb'_append_extractLsb'_eq_extractLsb' (by decide)]
  exact BitVec.extractLsb'_eq_self

theorem wordOfBytes_bytesOfWord (w : Word) :
    wordOfBytes (w.extractLsb' 0 8) (w.extractLsb' 8 8) (w.extractLsb' 16 8) (w.extractLsb' 24 8) = w := by
  rw [wordOfBytes]
  iterate 3 rw [BitVec.extractLsb'_append_extractLsb'_eq_extractLsb' (by decide)]
  exact BitVec.extractLsb'_eq_self

@[simp] theorem ofBits_bits (c : SizeCode) : SizeCode.ofBits c.bits = c := by cases c <;> rfl

@[simp] theorem bits_ofBits : ∀ b : BitVec 2, (SizeCode.ofBits b).bits = b := by decide

/-- A register number in the field `r`. -/
theorem fin_ofNat_toNat_ofNat {n : Nat} [NeZero n] (r : Fin n) (h : n ≤ 16) :
    Fin.ofNat n (BitVec.ofNat 4 r.val).toNat = r := by
  rw [BitVec.toNat_ofNat, Nat.mod_eq_of_lt (Nat.lt_of_lt_of_le r.isLt h), Fin.ofNat_val_eq_self]

/-- The number in the field `r` as a register number. -/
theorem bitVec_ofNat_val_ofNat {n : Nat} [NeZero n] (r : BitVec 4) (h : r.toNat < n) :
    BitVec.ofNat 4 (Fin.ofNat n r.toNat).val = r := by
  rw [Fin.val_ofNat, Nat.mod_eq_of_lt h, BitVec.ofNat_toNat, BitVec.setWidth_eq]

/-! ## Decoding an encoding, format by format (30_encoding.md R83 to R92) -/

section
variable {op : BitVec 8} {i : Instr}

theorem decodeWords_formatZ (hop : ∀ w0 w1, opField w0 = op → decodeOpcode w0 w1 = readZ w0 w1 i) :
    decodeWords (formatZ op).1 (formatZ op).2 = .ok i := by
  rw [formatZ, decodeWords_packW0, hop _ _ (opField_packW0 ..)]
  simp [readZ]

theorem decodeWords_formatI {build : Word → Nat → Except DecodeError Instr}
    (hop : ∀ w0 w1, opField w0 = op → decodeOpcode w0 w1 = readI w0 (build w1)) (r : BitVec 4) (imm : Word) :
    decodeWords (formatI op r imm).1 (formatI op r imm).2 = build imm r.toNat := by
  rw [formatI, decodeWords_packW0, hop _ _ (opField_packW0 ..)]
  simp [readI]

theorem decodeWords_formatB {build : SizeCode → SizeCode → Instr}
    (hop : ∀ w0 w1, opField w0 = op → decodeOpcode w0 w1 = readB w0 w1 build) (wc hc : SizeCode) :
    decodeWords (formatB op wc hc).1 (formatB op wc hc).2 = .ok (build wc hc) := by
  rw [formatB, decodeWords_packW0, hop _ _ (opField_packW0 ..)]
  simp [readB]

theorem decodeWords_formatP {cls : BitVec 2} {mode : BitVec 4} (h : predictionOf cls.toNat mode.toNat = some i) :
    decodeWords (formatP cls mode).1 (formatP cls mode).2 = .ok i := by
  rw [formatP, decodeWords_packW0, decodeOpcode, opField_packW0]
  simp [readP, h]

end

theorem decodeWords_ldi (r : Fin 16) (imm : Word) :
    decodeWords (encodeWords (.ldi r imm)).1 (encodeWords (.ldi r imm)).2 = .ok (.ldi r imm) := by
  refine (decodeWords_formatI (fun w0 w1 h => by rw [decodeOpcode, h]; rfl) _ imm).trans ?_
  rw [fin_ofNat_toNat_ofNat r (by decide)]

theorem decodeWords_stq (r : Fin 4) (imm : Word) :
    decodeWords (encodeWords (.stq r imm)).1 (encodeWords (.stq r imm)).2 = .ok (.stq r imm) := by
  refine (decodeWords_formatI (fun w0 w1 h => by rw [decodeOpcode, h]; rfl) _ imm).trans ?_
  rw [if_pos, fin_ofNat_toNat_ofNat r (by decide)]
  rw [BitVec.toNat_ofNat]
  omega

theorem decodeWords_init (imm : Word) :
    decodeWords (encodeWords (.init imm)).1 (encodeWords (.init imm)).2 = .ok (.init imm) :=
  (decodeWords_formatI (fun w0 w1 h => by rw [decodeOpcode, h]; rfl) 0 imm).trans (if_pos rfl)

/-- Decoding the words of an instruction, by its format. -/
theorem decodeWords_encodeWords (i : Instr) : decodeWords (encodeWords i).1 (encodeWords i).2 = .ok i := by
  cases i with
  | endList | ssdwh | ads1 | ads2 | ads4 | ssim4 | fdct8 | idct8 | fdc4 | idc4 | fdc2 | idc2 | quant4 | quant8 | quantdc4
  | quantdc2 | zigzag4 => exact decodeWords_formatZ fun w0 w1 h => by rw [decodeOpcode, h]; rfl
  | ldi r imm => exact decodeWords_ldi r imm
  | stq r imm => exact decodeWords_stq r imm
  | init imm => exact decodeWords_init imm
  | sad wc hc | sadx3 wc hc | sadx4 wc hc | ssd wc hc | satd wc hc | sa8d wc hc | fdct4 wc hc | idct4 wc hc | mcluma wc hc
  | mcchroma wc hc | copy wc hc | avg wc hc | hpelh wc hc | hpelv wc hc | hpelc wc hc =>
    exact decodeWords_formatB (fun w0 w1 h => by rw [decodeOpcode, h]; rfl) wc hc
  | _ => exact decodeWords_formatP rfl

/-- Settles O1: the bytes give the two words back, and the words the instruction. -/
theorem decodeOfEncode : Obligations.DecodeOfEncode := by
  intro i rest
  refine Eq.trans ?_ (decodeWords_encodeWords i)
  simp only [encode, bytesOfWord, List.cons_append, List.nil_append, decode, wordOfBytes_bytesOfWord]

/-- Settles O3: each pair of words is the encoding of its instruction, and decodes to it. -/
theorem sampleWordsDecode : Obligations.SampleWordsDecode :=
  ⟨decodeOfEncode (.ldi 1 16) [], decodeWords_encodeWords .endList, decodeWords_encodeWords (.ldi 9 0xFFFFFFFD),
    decodeWords_encodeWords (.stq 3 0xFFFC), decodeWords_encodeWords (.sad .sixteen .eight),
    decodeWords_encodeWords (.fdct4 .sixteen .sixteen), decodeWords_encodeWords .zigzag4,
    decodeWords_encodeWords .pred8DC128, decodeWords_encodeWords .predCP, decodeWords_encodeWords (.mcluma .four .sixteen)⟩

/-! ## What decodes is an encoding (30_encoding.md R94, R95) -/

/-- The pairs of R89, as the encoder writes them. -/
theorem encodeWords_of_predictionOf : ∀ (cls : BitVec 2) (mode : BitVec 4),
    ∀ i ∈ predictionOf cls.toNat mode.toNat, encodeWords i = formatP cls mode := by decide

/-- A test of a format that answers an instruction has passed. -/
theorem ok_of_ite_iff {c : Prop} [Decidable c] {e : DecodeError} {x : Except DecodeError Instr} {i : Instr} :
    (if c then .error e else x) = .ok i ↔ ¬c ∧ x = .ok i := by
  by_cases hc : c <;> simp [hc]

section
variable {w0 w1 : Word} {op : BitVec 8} {i j : Instr} (hres : reservedField w0 = 0)
include hres

theorem encodeWords_of_readZ (henc : encodeWords j = formatZ op) (hop : (opField w0).toNat = op.toNat)
    (h : readZ w0 w1 j = .ok i) : encodeWords i = (w0, w1) := by
  simp only [readZ, ok_of_ite_iff, not_or, not_not] at h
  obtain ⟨⟨hr, hwc, hhc, hmode, hcls⟩, hw1, hi⟩ := h
  cases hi
  have hword := packW0_fields hres
  rw [BitVec.eq_of_toNat_eq hop, hr, hwc, hhc, hmode, hcls] at hword
  rw [henc, formatZ, hword, hw1]

theorem encodeWords_of_readI {build : Nat → Except DecodeError Instr}
    (henc : ∀ r : BitVec 4, build r.toNat = .ok i → encodeWords i = formatI op r w1)
    (hop : (opField w0).toNat = op.toNat) (h : readI w0 build = .ok i) : encodeWords i = (w0, w1) := by
  simp only [readI, ok_of_ite_iff, not_or, not_not] at h
  obtain ⟨⟨hwc, hhc, hmode, hcls⟩, hbuild⟩ := h
  have hword := packW0_fields hres
  rw [BitVec.eq_of_toNat_eq hop, hwc, hhc, hmode, hcls] at hword
  rw [henc _ hbuild, formatI, hword]

theorem encodeWords_of_readB {build : SizeCode → SizeCode → Instr}
    (henc : ∀ wc hc, encodeWords (build wc hc) = formatB op wc hc) (hop : (opField w0).toNat = op.toNat)
    (h : readB w0 w1 build = .ok i) : encodeWords i = (w0, w1) := by
  simp only [readB, ok_of_ite_iff, not_or, not_not] at h
  obtain ⟨⟨hr, hmode, hcls⟩, hw1, hi⟩ := h
  cases hi
  have hword := packW0_fields hres
  rw [BitVec.eq_of_toNat_eq hop, hr, hmode, hcls] at hword
  rw [henc, formatB, bits_ofBits, bits_ofBits, hword, hw1]

theorem encodeWords_of_readP (hop : (opField w0).toNat = 0x30) (h : readP w0 w1 = .ok i) :
    encodeWords i = (w0, w1) := by
  simp only [readP, ok_of_ite_iff, not_or, not_not] at h
  obtain ⟨⟨hr, hwc, hhc⟩, hw1, hi⟩ := h
  split at hi <;> cases hi
  have hword := packW0_fields hres
  rw [BitVec.eq_of_toNat_eq (y := 0x30) hop, hr, hwc, hhc] at hword
  rw [encodeWords_of_predictionOf _ _ _ ‹_›, formatP, hword, hw1]

/-- What an operation code reads is what the encoder writes with that code (30_encoding.md R92). The cases are the arms of
`decodeOpcode`: formats I (`ldi`, `stq`, `init`), P, no code, C and Z, B. -/
theorem encodeWords_of_decodeOpcode (h : decodeOpcode w0 w1 = .ok i) : encodeWords i = (w0, w1) := by
  unfold decodeOpcode at h
  split at h
  case h_2 =>
    refine encodeWords_of_readI hres (fun r hi => ?_) ‹(opField w0).toNat = (0x02 : BitVec 8).toNat› h
    cases hi
    rw [encodeWords, bitVec_ofNat_val_ofNat r r.isLt]
  case h_3 =>
    refine encodeWords_of_readI hres (fun r hi => ?_) ‹(opField w0).toNat = (0x03 : BitVec 8).toNat› h
    split at hi <;> cases hi
    rw [encodeWords, bitVec_ofNat_val_ofNat r (by omega)]
  case h_4 =>
    refine encodeWords_of_readI hres (fun r hi => ?_) ‹(opField w0).toNat = (0x04 : BitVec 8).toNat› h
    split at hi <;> cases hi
    rw [encodeWords, BitVec.eq_of_toNat_eq (x := r) (y := 0#4) ‹_›]
  case h_29 => exact encodeWords_of_readP hres ‹_› h
  case h_37 => cases h
  case h_1 | h_9 | h_12 | h_13 | h_14 | h_15 | h_18 | h_19 | h_20 | h_21 | h_22 | h_23 | h_24 | h_25 | h_26 | h_27
      | h_28 =>
    exact encodeWords_of_readZ hres rfl ‹_› h
  all_goals exact encodeWords_of_readB hres (fun _ _ => rfl) ‹_› h

end

/-- Settles O2: the reserved bits are zero, and the operation code's format gives back every other field. -/
theorem encodeOfDecode : Obligations.EncodeOfDecode := by
  intro w0 w1 i h
  rw [decodeWords, ok_of_ite_iff, not_not] at h
  exact encodeWords_of_decodeOpcode h.1 h.2

/-! ## The words that are no command, and their fault (30_encoding.md R93, 60_exceptions.md R323) -/

/-- An immediate command that is rejected has a stray field, or a register number that it cannot have. -/
theorem illegalWords_of_opcodesI {w0 w1 : Word} (hop : wordField w0 0 8 ∈ opcodesI)
    (h : ∃ e, decodeOpcode w0 w1 = .error e) : IllegalWords w0 w1 := by
  have hfield (hstray : wordField w0 12 10 ≠ 0) : IllegalWords w0 w1 := .inr (.inr (.inr (.inl ⟨hop, hstray⟩)))
  simp only [opcodesI, List.mem_cons, List.not_mem_nil, or_false] at hop
  rcases hop with hop | hop | hop <;>
    (simp only [decodeOpcode, toNat_opField, hop, readI_error_iff] at h; refine h.elim hfield fun ⟨e, hbuild⟩ => ?_)
  · cases hbuild
  · split at hbuild <;> cases hbuild
    exact .inr (.inr (.inr (.inr (.inr (.inl ⟨hop, Nat.not_le.1 ‹_›⟩)))))
  · split at hbuild <;> cases hbuild
    exact .inr (.inr (.inr (.inr (.inl ⟨hop, ‹_›⟩))))

theorem illegalWords_of_decodeOpcode_error {w0 w1 : Word} (h : ∃ e, decodeOpcode w0 w1 = .error e) :
    IllegalWords w0 w1 := by
  have hplain (hop : wordField w0 0 8 ∈ opcodesC ++ opcodesZ) : IllegalWords w0 w1 := by
    obtain ⟨i, hread⟩ := decodeOpcode_readZ (w1 := w1) hop
    exact .inr (.inr (.inl ⟨hop, readZ_error_iff.1 (hread ▸ h)⟩))
  by_cases hop : wordField w0 0 8 ∈ opcodesC ++ opcodesI ++ opcodesB ++ opcodesZ ++ opcodesP
  · simp only [List.mem_append, or_assoc] at hop
    rcases hop with hC | hI | hB | hZ | hP
    · exact hplain (List.mem_append_left _ hC)
    · exact illegalWords_of_opcodesI hI h
    · obtain ⟨build, hread⟩ := decodeOpcode_readB (w1 := w1) hB
      exact .inr (.inr (.inr (.inr (.inr (.inr (.inl ⟨hB, readB_error_iff.1 (hread ▸ h)⟩))))))
    · exact hplain (List.mem_append_right _ hZ)
    · simp only [decodeOpcode, toNat_opField, List.mem_singleton.1 hP] at h
      exact .inr (.inr (.inr (.inr (.inr (.inr (.inr ⟨hP, readP_error_iff.1 h⟩))))))
  · exact .inl hop

theorem decodeWords_error_iff (w0 w1 : Word) : (∃ e, decodeWords w0 w1 = .error e) ↔ IllegalWords w0 w1 := by
  refine ⟨fun h => ?_, decodeWords_error_of_illegalWords⟩
  rw [decodeWords, error_of_ite_iff, reservedField, field_ne_zero_iff] at h
  rcases h with hres | h
  · exact .inr (.inl hres)
  · exact illegalWords_of_decodeOpcode_error h

/-- Settles O4: the decoder's errors are the listed conditions, and with no racing bytes the step reads the words in memory. -/
theorem illegalCommandFault : Obligations.IllegalCommandFault := by
  refine ⟨decodeWords_error_iff, fun s hready hfetch hraced h => ?_⟩
  have hseen : s.seen = s := State.seen_of_raced_nil hraced
  rw [step_of_illegalWords hready hfetch (hseen.symm ▸ h), hseen]
  rfl

end Sys2Proof.Machine
end

section
/-! The statements of the family 41_metrics.md: an accepted command is its write phase, the sums are those of the model in the
words of the claims, and the transforms are sign matrices. -/

namespace Sys2Proof.Machine

/-! ## An accepted operation command completes (00_scope.md R17) -/

/-- An accepted command cannot have raised: its `CP` moves on, and fault entry leaves `CP` (60_exceptions.md R336). -/
theorem exec_of_accepts {i : Instr} {checks : List Check} {foot : State → Footprint} {effect : State → Effect} {s : State}
    (hacc : Accepts i s) (hkind : isControl i = false) (hexec : exec i s = operation i checks foot effect s) :
    exec i s = .next (s.commit (foot s).writes (effect s)).advance := by
  rcases operation_cases i checks foot effect s with ⟨v, -, hraise⟩ | ⟨-, -, -, hdone⟩
  · rcases exec_outcomes i s hkind with ⟨hrej, -⟩ | ⟨-, w, e, -, -, hdone⟩
    · exact absurd hacc hrej
    · have hstate : s.raise v = (s.commit w e).advance :=
        Host.Outcome.next.inj (hraise.symm.trans (hexec.symm.trans hdone))
      have hcp : s.cp = s.cp + 8 := congrArg State.cp hstate
      simp at hcp
  · exact hexec.trans hdone

/-- An accepted command without a write set writes its result registers and nothing else. -/
theorem returnsResults_of_accepts {i : Instr} {checks : List Check} {reads : State → List Run}
    {vs : State → List (Fin 4 × Int)} {s : State} (hacc : Accepts i s) (hkind : isControl i = false)
    (hexec : exec i s = operation i checks (fun s => { reads := reads s }) (fun s => results (vs s)) s) :
    ReturnsResults i s (setResults s.q ((vs s).map fun c => (c.1, BitVec.ofInt 32 c.2))) :=
  exec_of_accepts hacc hkind hexec

/-- A metric over blocks A and B returns its value in `q0`. -/
theorem metric_returnsResults {i : Instr} {set : SizeSet} {wc hc : SizeCode} {value : State → Nat → Nat → Int} {s : State}
    (hacc : Accepts i s) (hkind : isControl i = false) (hexec : exec i s = metric i set wc hc value s) :
    ReturnsResults i s (s.q.set 0 (BitVec.ofInt 32 (value s wc.pixels hc.pixels))) :=
  returnsResults_of_accepts hacc hkind hexec

/-! ## The meaning of each metric, its arm of `exec` -/

theorem exec_sad (wc hc : SizeCode) (s : State) : exec (.sad wc hc) s = execSad wc hc s := rfl
theorem exec_sadx3 (wc hc : SizeCode) (s : State) : exec (.sadx3 wc hc) s = execSadx3 wc hc s := rfl
theorem exec_sadx4 (wc hc : SizeCode) (s : State) : exec (.sadx4 wc hc) s = execSadx4 wc hc s := rfl
theorem exec_ssd (wc hc : SizeCode) (s : State) : exec (.ssd wc hc) s = execSsd wc hc s := rfl
theorem exec_satd (wc hc : SizeCode) (s : State) : exec (.satd wc hc) s = execSatd wc hc s := rfl
theorem exec_sa8d (wc hc : SizeCode) (s : State) : exec (.sa8d wc hc) s = execSa8d wc hc s := rfl
theorem exec_ssdwh (s : State) : exec .ssdwh s = execSsdwh s := rfl
theorem exec_ssim4 (s : State) : exec .ssim4 s = execSsim4 s := rfl

/-! ## Sums of differences (41_metrics.md R111 to R119) -/

theorem sumBlock_eq_blockSum (w h : Nat) (f : Nat → Nat → Int) : sumBlock w h f = blockSum w h f := sumBlock_eq_sum w h f

theorem State.diff_eq (s : State) (x y : Nat) : s.diff x y = s.sampleA x y - s.sampleB x y :=
  congrArg₂ (· - ·) (pix_block s SRCA SRCAS x y) (pix_block s SRCB SRCBS x y)

theorem sad_eq_sadAgainst (s : State) (r : Fin 16) (w h : Nat) : sad s s.blockA (s.block r SRCBS) w h = sadAgainst s r w h := by
  simp only [sad, sadAgainst, sumBlock_eq_blockSum, iabs_eq_abs, State.blockA, pix_block]

theorem ssd_eq_ssdOf (s : State) (w h : Nat) : ssd s w h = ssdOf s w h := by
  simp only [ssd, ssdOf, sumBlock_eq_blockSum, State.diff_eq, pow_two]

/-- Settles O33: both are metrics over blocks A and B, and their sums are the claim's. -/
theorem sadAndSsdReturnSums : Obligations.SadAndSsdReturnSums := by
  refine fun wc hc s => ⟨fun hacc => ?_, fun hacc => ?_⟩
  · rw [← sad_eq_sadAgainst]
    exact metric_returnsResults hacc rfl (exec_sad wc hc s)
  · rw [← ssd_eq_ssdOf]
    exact metric_returnsResults hacc rfl (exec_ssd wc hc s)

/-- The candidates' sums go to the result registers in order. -/
theorem batchedSad_returnsResults {i : Instr} {bases : List (Fin 16)} {wc hc : SizeCode} {s : State} (hacc : Accepts i s)
    (hkind : isControl i = false) (hexec : exec i s = batchedSad i bases wc hc s) :
    ReturnsResults i s (setResults s.q (((List.finRange 4).zip (bases.map fun r => sadAgainst s r wc.pixels hc.pixels)).map
      fun c => (c.1, BitVec.ofInt 32 c.2))) := by
  have hsums : (s.candidates bases).map (fun b => sad s s.blockA b wc.pixels hc.pixels) =
      bases.map fun r => sadAgainst s r wc.pixels hc.pixels := by
    simp only [State.candidates, List.map_map, Function.comp_def, sad_eq_sadAgainst]
  rw [← hsums]
  exact returnsResults_of_accepts hacc hkind hexec

/-- Settles O34: three and four candidates, at the bases of R114 and R115. -/
theorem batchedSadReturnsSums : Obligations.BatchedSadReturnsSums := fun wc hc s =>
  ⟨fun hacc => batchedSad_returnsResults hacc rfl (exec_sadx3 wc hc s),
    fun hacc => batchedSad_returnsResults hacc rfl (exec_sadx4 wc hc s)⟩

/-- The low word of a sum is that of its remainder. -/
theorem ofInt_emod_two_pow (v : Int) : BitVec.ofInt 32 (v % 2 ^ 32) = BitVec.ofInt 32 v :=
  BitVec.eq_of_toNat_eq (by simp [BitVec.toNat_ofInt])

/-- Settles O35: the two result registers are the low word of the sum and of the sum shifted. -/
theorem ssdwhReturnsWideSum : Obligations.SsdwhReturnsWideSum := by
  intro s hacc
  rw [ofInt_emod_two_pow, ← ssd_eq_ssdOf]
  exact returnsResults_of_accepts hacc rfl (exec_ssdwh s)

/-- Settles O39: the four sums over the samples of the two blocks. -/
theorem ssim4ReturnsPartialSums : Obligations.Ssim4ReturnsPartialSums := by
  intro s hacc
  simp only [← sumBlock_eq_blockSum, pow_two, State.sampleA, State.sampleB, ← pix_block]
  exact returnsResults_of_accepts hacc rfl (exec_ssim4 s)

/-! ## The transforms as sign matrices (41_metrics.md R120, R123) -/

/-- The row of the sign matrix that output `u` of `HAD4` is. -/
def hadOrder : Nat → Nat
  | 0 => 0
  | 1 => 2
  | 2 => 3
  | _ => 1

/-- `HAD4` is a sign matrix, its rows in that order (41_metrics.md R120). -/
theorem had4_eq_sum (f : Nat → Int) {u : Nat} (hu : u < 4) :
    had4 f u = ∑ x ∈ Finset.range 4, butterflySign (hadOrder u) x * f x := by
  interval_cases u <;> simp [had4, hadOrder, butterflySign, Finset.sum_range_succ] <;> ring

/-- `SA8D_1D` is a sign matrix, its rows in their own order (41_metrics.md R123). -/
theorem sa8d1d_eq_sum (f : Nat → Int) {u : Nat} (hu : u < 8) :
    sa8d1d f u = ∑ x ∈ Finset.range 8, butterflySign u x * f x := by
  interval_cases u <;> simp [sa8d1d, butterflySign, Finset.sum_range_succ] <;> ring

theorem sum_hadOrder (g : Nat → Int) : ∑ u ∈ Finset.range 4, g (hadOrder u) = ∑ u ∈ Finset.range 4, g u := by
  simp only [Finset.sum_range_succ, Finset.sum_range_zero, hadOrder]
  ring

/-- The sum of the absolute coefficients of a two-pass transform whose passes are sign matrices, up to the order `o` of
their outputs. -/
theorem sumBlock_iabs_passes {n : Nat} {f : (Nat → Int) → Nat → Int} {o : Nat → Nat}
    (hf : ∀ g, ∀ u < n, f g u = ∑ x ∈ Finset.range n, butterflySign (o u) x * g x)
    (ho : ∀ g : Nat → Int, ∑ u ∈ Finset.range n, g (o u) = ∑ u ∈ Finset.range n, g u) (d : Nat → Nat → Int) :
    sumBlock n n (fun u v => iabs (colPass f (rowPass f d) u v)) =
      blockSum n n fun u v => |blockSum n n fun x y => butterflySign u x * butterflySign v y * d x y| := by
  have hcoef : ∀ u < n, ∀ v < n, iabs (colPass f (rowPass f d) u v) =
      |blockSum n n fun x y => butterflySign (o u) x * butterflySign (o v) y * d x y| := by
    intro u hu v hv
    simp only [colPass, rowPass, hf _ u hu, hf _ v hv, iabs_eq_abs, blockSum, Finset.mul_sum]
    refine congrArg _ (Finset.sum_congr rfl fun y _ => Finset.sum_congr rfl fun x _ => ?_)
    ring
  rw [sumBlock_eq_sum, blockSum, ← ho fun v => ∑ u ∈ Finset.range n, |_|]
  refine Finset.sum_congr rfl fun v hv => ?_
  rw [← ho fun u => |_|]
  exact Finset.sum_congr rfl fun u hu => hcoef u (Finset.mem_range.1 hu) v (Finset.mem_range.1 hv)

theorem raw4_tile (s : State) (x0 y0 : Nat) : raw4 (s.tile x0 y0) = tileSum s 4 x0 y0 := by
  simp only [raw4, tileSum, sumBlock_iabs_passes (fun g u => had4_eq_sum g) sum_hadOrder, State.tile, State.diff_eq]

theorem raw8_tile (s : State) (x0 y0 : Nat) : raw8 (s.tile x0 y0) = tileSum s 8 x0 y0 := by
  simp only [raw8, tileSum, sumBlock_iabs_passes (o := id) (fun g u => sa8d1d_eq_sum g) (fun _ => rfl), State.tile,
    State.diff_eq]

theorem satd_eq_tilesSum (s : State) (w h : Nat) : satd s w h = tilesSum s 4 w h / 2 := by
  simp only [satd, tilesSum, sumBlock_eq_blockSum, raw4_tile, asr]
  rfl

theorem sa8d_eq_tilesSum (s : State) (w h : Nat) : sa8d s w h = (tilesSum s 8 w h + 2) / 4 := by
  simp only [sa8d, tilesSum, sumBlock_eq_blockSum, raw8_tile, asr]
  rfl

/-- Settles O36: the tiles of the model are those of the claim, in matrix form. -/
theorem satdReturnsTransformedSum : Obligations.SatdReturnsTransformedSum := by
  intro wc hc s hacc
  rw [← satd_eq_tilesSum]
  exact metric_returnsResults hacc rfl (exec_satd wc hc s)

/-- Settles O37: as for `SATD`, rounded once. -/
theorem sa8dReturnsTransformedSum : Obligations.Sa8dReturnsTransformedSum := by
  intro wc hc s hacc
  rw [← sa8d_eq_tilesSum]
  exact metric_returnsResults hacc rfl (exec_sa8d wc hc s)

/-! ## The raw sums are even (41_metrics.md R121, R124) -/

/-- Absolute values keep the parity of a sum. -/
theorem even_sum_iabs_iff (n : Nat) (f : Nat → Int) :
    Even (∑ v ∈ Finset.range n, iabs (f v)) ↔ Even (∑ v ∈ Finset.range n, f v) := by
  have hdiff : Even (∑ v ∈ Finset.range n, iabs (f v) - ∑ v ∈ Finset.range n, f v) := by
    rw [← Finset.sum_sub_distrib]
    exact Finset.even_sum _ fun v _ => by rw [iabs_eq_abs, Int.even_sub]; exact even_abs
  exact Int.even_sub.1 hdiff

/-- The outputs of the last pass have an even sum for each column, so that the raw sum is even. -/
theorem even_sumBlock_colPass {n : Nat} {f : (Nat → Int) → Nat → Int}
    (hf : ∀ g, Even (∑ v ∈ Finset.range n, f g v)) (r : Nat → Nat → Int) :
    Even (sumBlock n n fun u v => iabs (colPass f r u v)) := by
  rw [sumBlock_eq_sum, Finset.sum_comm]
  exact Finset.even_sum _ fun u _ => (even_sum_iabs_iff n _).2 (hf fun y => r u y)

theorem even_sum_had4 (g : Nat → Int) : Even (∑ v ∈ Finset.range 4, had4 g v) :=
  ⟨2 * g 0, by simp only [Finset.sum_range_succ, Finset.sum_range_zero, had4]; ring⟩

theorem even_sum_sa8d1d (g : Nat → Int) : Even (∑ v ∈ Finset.range 8, sa8d1d g v) :=
  ⟨4 * g 0, by simp only [Finset.sum_range_succ, Finset.sum_range_zero, sa8d1d]; ring⟩

/-- Settles O41: the outputs of each transform sum to a multiple of its first input. -/
theorem transformedSumsEven : Obligations.TransformedSumsEven := fun _ =>
  ⟨Int.even_iff.1 (even_sumBlock_colPass even_sum_had4 _), Int.even_iff.1 (even_sumBlock_colPass even_sum_sa8d1d _)⟩

/-! ## The laws of the metrics (41_metrics.md R118) -/

theorem blockSum_eq_zero {w h : Nat} {f : Nat → Nat → Int} (hf : ∀ x < w, ∀ y < h, f x y = 0) : blockSum w h f = 0 :=
  Finset.sum_eq_zero fun y hy => Finset.sum_eq_zero fun x hx => hf x (Finset.mem_range.1 hx) y (Finset.mem_range.1 hy)

theorem blockSum_neg (w h : Nat) (f : Nat → Nat → Int) : blockSum w h (fun x y => -f x y) = -blockSum w h f := by
  simp only [blockSum, Finset.sum_neg_distrib]

/-- Blocks A and B agree at every position. -/
abbrev State.BlocksAgree (s : State) (w h : Nat) : Prop :=
  ∀ x < w, ∀ y < h, s.sampleA (x : Nat) (y : Nat) = s.sampleB (x : Nat) (y : Nat)

section
variable {s : State} {w h : Nat} (hagree : s.BlocksAgree w h)
include hagree

theorem sadAgainst_eq_zero : sadAgainst s 4 w h = 0 :=
  blockSum_eq_zero fun x hx y hy => abs_eq_zero.2 (sub_eq_zero.2 (hagree x hx y hy))

theorem ssdOf_eq_zero : ssdOf s w h = 0 :=
  blockSum_eq_zero fun x hx y hy => pow_eq_zero_iff two_ne_zero |>.2 (sub_eq_zero.2 (hagree x hx y hy))

theorem tilesSum_eq_zero (n : Nat) : tilesSum s n w h = 0 := by
  have inside {i x m : Nat} (hi : i < m / n) (hx : x < n) : n * i + x < m :=
    calc n * i + x < n * (i + 1) := by rw [Nat.mul_succ]; omega
      _ ≤ n * (m / n) := Nat.mul_le_mul_left n hi
      _ ≤ m := Nat.mul_div_le m n
  refine blockSum_eq_zero fun i hi j hj => blockSum_eq_zero fun u _ v _ => abs_eq_zero.2 ?_
  refine blockSum_eq_zero fun x hx y hy => mul_eq_zero_of_right _ (sub_eq_zero.2 ?_)
  exact hagree _ (inside hi hx) _ (inside hj hy)

end

/-- The registers of blocks A and B exchanged. -/
def State.exchangeBlocks (s : State) : State :=
  { s with g := (((s.g.set 2 s.g[4]).set 3 s.g[5]).set 4 s.g[2]).set 5 s.g[3] }

section
variable (s : State)

theorem State.exchangeBlocks_g :
    s.exchangeBlocks.g[(2 : Fin 16)] = s.g[(4 : Fin 16)] ∧ s.exchangeBlocks.g[(3 : Fin 16)] = s.g[(5 : Fin 16)] ∧
      s.exchangeBlocks.g[(4 : Fin 16)] = s.g[(2 : Fin 16)] ∧ s.exchangeBlocks.g[(5 : Fin 16)] = s.g[(3 : Fin 16)] := by
  simp [State.exchangeBlocks]

theorem State.exchangeBlocks_mem : s.exchangeBlocks.mem = s.mem := rfl

theorem State.exchangeBlocks_sampleA (x y : Int) : s.exchangeBlocks.sampleA x y = s.sampleB x y := by
  simp only [State.sample, State.sampleAddr, State.unsignedReg, State.signedReg, s.exchangeBlocks_g, s.exchangeBlocks_mem]

theorem State.exchangeBlocks_sampleB (x y : Int) : s.exchangeBlocks.sampleB x y = s.sampleA x y := by
  simp only [State.sample, State.sampleAddr, State.unsignedReg, State.signedReg, s.exchangeBlocks_g, s.exchangeBlocks_mem]

variable (w h : Nat)

theorem State.exchangeBlocks_areaA : s.exchangeBlocks.area 2 3 0 0 w h = s.area 4 5 0 0 w h := by
  simp only [State.area, State.unsignedReg, State.signedReg, s.exchangeBlocks_g]

theorem State.exchangeBlocks_areaB : s.exchangeBlocks.area 4 5 0 0 w h = s.area 2 3 0 0 w h := by
  simp only [State.area, State.unsignedReg, State.signedReg, s.exchangeBlocks_g]

theorem sadAgainst_exchangeBlocks : sadAgainst s.exchangeBlocks 4 w h = sadAgainst s 4 w h := by
  simp only [sadAgainst, State.exchangeBlocks_sampleA, State.exchangeBlocks_sampleB]
  simp only [abs_sub_comm]

theorem ssdOf_exchangeBlocks : ssdOf s.exchangeBlocks w h = ssdOf s w h := by
  simp only [ssdOf, State.exchangeBlocks_sampleA, State.exchangeBlocks_sampleB, sub_sq_comm]

theorem tileSum_exchangeBlocks (n x0 y0 : Nat) : tileSum s.exchangeBlocks n x0 y0 = tileSum s n x0 y0 := by
  refine congrArg (blockSum n n) (funext fun u => funext fun v => ?_)
  rw [← abs_neg, ← blockSum_neg]
  simp only [State.exchangeBlocks_sampleA, State.exchangeBlocks_sampleB, ← mul_neg, neg_sub]

theorem tilesSum_exchangeBlocks (n : Nat) : tilesSum s.exchangeBlocks n w h = tilesSum s n w h := by
  simp only [tilesSum, tileSum_exchangeBlocks]

end

section
variable {wc hc : SizeCode} {i : Instr} (hi : i ∈ [Instr.sad wc hc, .satd wc hc, .ssd wc hc, .sa8d wc hc])
include hi

/-- What the two-block metrics check and reach (41_metrics.md R111), by their tables. -/
theorem accepts_pair_iff (s : State) :
    Accepts i s ↔ s.inited = true ∧ sizeOk i = true ∧ (s.g[(2 : Fin 16)] ≠ 0 ∧ s.g[(4 : Fin 16)] ≠ 0) ∧
      ((wc.pixels : Int) ≤ s.signedReg 3 ∧ (wc.pixels : Int) ≤ s.signedReg 5) ∧
      s.allInMemory [s.area 2 3 0 0 wc.pixels hc.pixels, s.area 4 5 0 0 wc.pixels hc.pixels] := by
  have tables : dispatchOk i s = s.inited ∧ params i s = [] ∧ bases i s = [2, 4] ∧
      strides i s = ([3, 5], (wc.pixels : Int)) ∧ arrays i = [] ∧ immediateOk i = true ∧
      reads i s = [s.area 2 3 0 0 wc.pixels hc.pixels, s.area 4 5 0 0 wc.pixels hc.pixels] ∧ writes i s = [] := by
    simp only [List.mem_cons, List.not_mem_nil, or_false] at hi
    rcases hi with rfl | rfl | rfl | rfl <;> exact ⟨rfl, rfl, rfl, rfl, rfl, rfl, rfl, rfl⟩
  simp [tables, allInMemory_iff, and_assoc]

/-- The checks look at the two blocks alike. -/
theorem accepts_exchangeBlocks {s : State} (hacc : Accepts i s) : Accepts i s.exchangeBlocks := by
  simp only [accepts_pair_iff hi, List.forall_mem_cons] at hacc ⊢
  obtain ⟨hinit, hsize, ⟨hbaseA, hbaseB⟩, ⟨hstrideA, hstrideB⟩, hareaA, hareaB, hnone⟩ := hacc
  simp only [State.signedReg, s.exchangeBlocks_g, s.exchangeBlocks_areaA, s.exchangeBlocks_areaB]
  exact ⟨hinit, hsize, ⟨hbaseB, hbaseA⟩, ⟨hstrideB, hstrideA⟩, hareaB, hareaA, by simp⟩

/-- A metric that returns `value` in `q0` has both laws when `value` does. -/
theorem laws_of_returnsResults {s t : State} {value : State → Int}
    (hreturns : ∀ s, Accepts i s → ReturnsResults i s (s.q.set 0 (BitVec.ofInt 32 (value s))))
    (hzero : s.BlocksAgree wc.pixels hc.pixels → value s = 0) (hexchange : value s.exchangeBlocks = value s)
    (hacc : Accepts i s) (hexec : exec i s = .next t) :
    (s.BlocksAgree wc.pixels hc.pixels → t.q[0] = 0) ∧ ∃ t', exec i s.exchangeBlocks = .next t' ∧ t'.q = t.q := by
  cases hexec.symm.trans (hreturns s hacc)
  refine ⟨fun hagree => ?_, _, hreturns _ (accepts_exchangeBlocks hi hacc), ?_⟩
  · simp [hzero hagree]
  · rw [hexchange]
    rfl

end

/-- Settles O40: the four values are 0 on equal blocks and the same after the exchange. -/
theorem metricLaws : Obligations.MetricLaws := by
  intro wc hc i s t hi hacc hexec
  have hcase := hi
  simp only [List.mem_cons, List.not_mem_nil, or_false] at hcase
  rcases hcase with rfl | rfl | rfl | rfl
  · exact laws_of_returnsResults hi (fun s => (sadAndSsdReturnSums wc hc s).1) sadAgainst_eq_zero
      (sadAgainst_exchangeBlocks s _ _) hacc hexec
  · exact laws_of_returnsResults hi (satdReturnsTransformedSum wc hc) (fun h => by rw [tilesSum_eq_zero h]; rfl)
      (by rw [tilesSum_exchangeBlocks]) hacc hexec
  · exact laws_of_returnsResults hi (fun s => (sadAndSsdReturnSums wc hc s).2) ssdOf_eq_zero
      (ssdOf_exchangeBlocks s _ _) hacc hexec
  · exact laws_of_returnsResults hi (sa8dReturnsTransformedSum wc hc) (fun h => by rw [tilesSum_eq_zero h]; rfl)
      (by rw [tilesSum_exchangeBlocks]) hacc hexec

/-! ## The list of an ADS command (41_metrics.md R126 to R130) -/

/-- What an ADS command in range writes: the list of candidates and its length (41_metrics.md R127). -/
def listEffect (l : List Nat) : Effect where
  bytes := coefBytes (l.map Int.ofNat)
  results := [(0, BitVec.ofNat 32 l.length)]

/-- The write phase stores the list's elements, which fit their two bytes, and no byte outside them. -/
theorem commit_listEffect {s : State} (hm : s.mem.wf) {l : List Nat} (hlength : l.length ≤ s.uval P0)
    (hfits : ∀ n ∈ l, n ≤ 32767) :
    (∀ k < l.length, s16At (s.commit [⟨s.addr DST, 2 * s.uval P0⟩] (listEffect l)).mem (s.unsignedReg 0 + 2 * (k : Nat)) =
        (l.getD k 0 : Nat)) ∧
      ∀ a : Nat, ((a : Int) < s.unsignedReg 0 ∨ s.unsignedReg 0 + 2 * (l.length : Nat) ≤ a) →
        (s.commit [⟨s.addr DST, 2 * s.uval P0⟩] (listEffect l)).mem.read a = s.mem.read a := by
  obtain ⟨helement, hother⟩ := State.commit_array hm (r := ⟨s.addr DST, 2 * s.uval P0⟩) (addr_nonneg s DST)
    (vs := l.map Int.ofNat) (by rw [List.length_map]; exact Nat.mul_le_mul_left 2 hlength) (e := listEffect l) rfl
  rw [List.length_map] at hother
  refine ⟨fun k hk => ?_, hother⟩
  have hget : (l.map Int.ofNat)[k]? = some (l.getD k 0 : Int) := by simp [hk]
  have hbase : 0 ≤ s.unsignedReg 0 := addr_nonneg s DST
  have haddress : (s.unsignedReg 0 + 2 * (k : Int)).toNat = (s.unsignedReg 0).toNat + 2 * k := by omega
  have hvalue : l.getD k 0 ≤ 32767 := by
    rw [List.getD_eq_getElem _ _ hk]
    exact hfits _ (List.getElem_mem hk)
  exact s16At_of_mod (by omega) (by rw [haddress]; exact helement k _ hget) (by omega)

section
variable {i : Instr} (hi : i ∈ [Instr.ads1, .ads2, .ads4])
include hi

/-- The three commands differ in their offset vectors only. -/
theorem ads_common (s : State) : isControl i = false ∧ exec i s = ads i (adsOffsets i) s ∧
    params i s = [(9, decide (s.unsignedReg 9 ≤ 32767))] := by
  simp only [List.mem_cons, List.not_mem_nil, or_false] at hi
  rcases hi with rfl | rfl | rfl <;> exact ⟨rfl, rfl, rfl⟩

variable {s : State}

/-- A candidate's number is an `s16` element: the width is at most 32767 (41_metrics.md R127). -/
theorem adsList_le (hacc : Accepts i s) : ∀ n ∈ adsList i s, n ≤ 32767 := by
  intro n hn
  obtain ⟨⟨⟨⟨⟨-, hparams⟩, -⟩, -⟩, -⟩, -⟩ := hacc
  have hwidth : s.unsignedReg 9 ≤ 32767 := by simpa [ads_common hi s] using hparams
  have hlt := List.mem_range.1 (List.mem_filter.1 hn).1
  simp only [State.unsignedReg] at hwidth
  omega

/-- In range the effect is the list and its length. -/
theorem adsEffect_of_adsCost_lt (hin : s.allInMemory (reads i s))
    (hcost : ∀ n < s.g[(9 : Fin 16)].toNat, adsCost i s n < 2 ^ 31) :
    adsEffect (adsOffsets i s) s = listEffect (adsList i s) := by
  have hrange : adsInRange (adsOffsets i s) s = true := by
    refine List.all_eq_true.2 fun n hn => decide_eq_true ?_
    rw [adsTotal_eq_adsCost hi hin (List.mem_range.1 hn)]
    exact ⟨adsCost_nonneg i s n, hcost n (List.mem_range.1 hn)⟩
  have hlist : adsAccepted (adsOffsets i s) s = adsList i s :=
    List.filter_congr fun n hn => by rw [adsTotal_eq_adsCost hi hin (List.mem_range.1 hn)]; rfl
  rw [adsEffect, ranged, if_pos hrange, hlist, listEffect]

end

theorem adsList_length_le (i : Instr) (s : State) : (adsList i s).length ≤ s.g[(9 : Fin 16)].toNat :=
  (List.length_filter_le _ _).trans_eq (List.length_range)

/-- Settles O38: the effect is the list of the claim, and the write phase stores that list and nothing else. -/
theorem adsListsAcceptedCandidates : Obligations.AdsListsAcceptedCandidates := by
  intro i s hi hm hacc hcost
  obtain ⟨hkind, hexec, -⟩ := ads_common hi s
  have hdone := exec_of_accepts hacc hkind hexec
  have hfits := adsList_le hi hacc
  obtain ⟨-, hin, -⟩ := hacc
  rw [adsEffect_of_adsCost_lt hi hin hcost] at hdone
  exact ⟨_, hdone, commit_listEffect hm (adsList_length_le i s) hfits⟩

end Sys2Proof.Machine
end

section
/-! The statements of the family 42_transform_quant.md: an accepted command from array to array or into a block leaves the
numbers it computes, the passes of each transform are those of the claims, and the numbers stay in their range. -/

namespace Sys2Proof.Machine

/-! ## What an accepted command passed (60_exceptions.md R333) -/

/-- The checks that an accepted command made were passed. -/
theorem checks_of_accepts {i : Instr} {checks : List Check} {foot : State → Footprint} {effect : State → Effect} {s : State}
    (hacc : Accepts i s) (hkind : isControl i = false) (hexec : exec i s = operation i checks foot effect s) :
    s.inited = true ∧ (∀ c ∈ checks, c s = none) ∧ accessCheck foot s = none := by
  rcases operation_cases i checks foot effect s with ⟨v, -, hraise⟩ | ⟨hinit, hchecks, haccess, -⟩
  · have hstate : s.raise v = (s.commit (foot s).writes (effect s)).advance :=
      Host.Outcome.next.inj (hraise.symm.trans (hexec.symm.trans (exec_of_accepts hacc hkind hexec)))
    have hcp : s.cp = s.cp + 8 := congrArg State.cp hstate
    simp at hcp
  · exact ⟨hinit, hchecks, haccess⟩

theorem stride_of_accepts {i : Instr} {s : State} (hacc : Accepts i s) :
    ∀ r ∈ (strides i s).1, (strides i s).2 ≤ s.signedReg r := by
  obtain ⟨⟨⟨-, hstrides⟩, -⟩, -⟩ := hacc
  exact hstrides

theorem sizeOk_of_accepts {i : Instr} {s : State} (hacc : Accepts i s) : sizeOk i = true := by
  obtain ⟨⟨⟨⟨⟨⟨-, hsize⟩, -⟩, -⟩, -⟩, -⟩, -⟩ := hacc
  exact hsize

/-! ## Raster order by the element's number (00_scope.md R18) -/

/-- Element `k` of a block in raster order is at column `k % w` of row `k / w`. -/
theorem raster_eq_map_range {α : Type} (w h : Nat) (f : Nat → Nat → α) :
    raster w h f = (List.range (w * h)).map fun k => f (k % w) (k / w) := by
  induction h with
  | zero => rfl
  | succ h ih =>
    have hrow : raster w (h + 1) f = raster w h f ++ (List.range w).map fun x => f x h := by
      simp [raster, List.range_succ]
    rw [hrow, ih, Nat.mul_succ, List.range_add, List.map_append, List.map_map]
    refine congrArg _ (List.map_congr_left fun x hx => ?_)
    have hw := List.mem_range.1 hx
    simp [Nat.mod_eq_of_lt hw, Nat.mul_add_div (Nat.zero_lt_of_lt hw), Nat.div_eq_of_lt hw]

theorem all_raster {α : Type} {w h : Nat} {f : Nat → Nat → α} {p : α → Bool} :
    (raster w h f).all p = true ↔ ∀ x < w, ∀ y < h, p (f x y) = true := by
  simp only [List.all_eq_true, mem_raster]
  exact ⟨fun hall x hx y hy => hall _ ⟨x, y, hx, hy, rfl⟩, fun hall _ ⟨x, y, hx, hy, he⟩ => he ▸ hall x hx y hy⟩

/-! ## What an accepted command stores (00_scope.md R16, 20_memory.md R58, R59) -/

/-- In range the effect is the rule's (00_scope.md R13). -/
theorem ranged_of_inRange {ok : Bool} (h : ok = true) (n : Nat) (regs : List (Fin 4)) (good : Effect) (s : State) :
    ranged ok n regs good s = good := if_pos h

/-- An accepted command whose effect is `n` elements of type `s16` stores them at `DST`. -/
theorem storesArray_of_accepts {i : Instr} {checks : List Check} {foot : State → Footprint} {effect : State → Effect}
    {s : State} {n : Nat} {vs : List Int} {value : Nat → Int} (hm : s.mem.wf) (hacc : Accepts i s)
    (hkind : isControl i = false) (hexec : exec i s = operation i checks foot effect s)
    (hwrites : (foot s).writes = [⟨s.addr DST, 2 * n⟩]) (heffect : effect s = { bytes := coefBytes vs })
    (hvs : vs = (List.range n).map value) (hs16 : ∀ k < n, IsS16 (value k)) : StoresArray i s n value := by
  subst hvs
  obtain ⟨hinit, hchecks, haccess⟩ := checks_of_accepts hacc hkind hexec
  obtain ⟨hreads, hin⟩ := accessCheck_eq_none.1 haccess
  have hlength : ((List.range n).map value).length = n := by simp
  obtain ⟨m, hdone, helements, hother⟩ := operation_stores hm hinit hchecks hreads
    (allInMemory_iff.2 fun a ha => hin a (by rwa [hwrites, mem_run, ← reaches_one, ← hlength]))
    (by rw [hwrites, hlength]) heffect (by simpa using hs16)
  rw [hlength] at helements hother
  exact ⟨m, hexec.trans hdone, fun k hk => by simpa [hk] using helements k hk, hother⟩

/-- An accepted command whose effect is a pixel for each position of the `w×h` destination block, in any order `ps`, fills
the block. -/
theorem fillsBlock_of_accepts {i : Instr} {checks : List Check} {foot : State → Footprint} {effect : State → Effect}
    {s : State} {w h : Nat} {ps : List (Nat × Nat)} {bs : List Byte} {value : Nat → Nat → Int} (hm : s.mem.wf)
    (hacc : Accepts i s) (hkind : isControl i = false) (hexec : exec i s = operation i checks foot effect s)
    (hstride : (w : Int) ≤ s.signedReg 1) (hnodup : ps.Nodup) (hmem : ∀ c, c ∈ ps ↔ c.1 < w ∧ c.2 < h)
    (hwrites : addresses (foot s).writes = ps.map fun c => s.blockDst.at c.1 c.2) (heffect : effect s = { bytes := bs })
    (hbytes : bs = ps.map fun c => pixelByte (value c.1 c.2)) (hvalue : ∀ x < w, ∀ y < h, 0 ≤ value x y ∧ value x y ≤ 255) :
    FillsBlock i s w h value := by
  subst hbytes
  obtain ⟨-, -, haccess⟩ := checks_of_accepts hacc hkind hexec
  have hin : ∀ c ∈ ps, 0 ≤ s.blockDst.at c.1 c.2 := fun c hc =>
    ((accessCheck_eq_none.1 haccess).2 _ (by rw [hwrites]; exact List.mem_map_of_mem hc)).1
  obtain ⟨hpixels, hother⟩ := read_positions hm hnodup (fun c hc => ((hmem c).1 hc).1) hstride hin
    (fun x y => pixelByte (value x y)) (stores := ((addresses (foot s).writes).map Int.toNat).zip (effect s).bytes)
    (by rw [hwrites, heffect, List.map_map, List.zip_map']; rfl)
  refine ⟨(s.commit (foot s).writes (effect s)).mem, ?_, fun x hx y hy => ?_, fun a ha => ?_⟩
  · rw [exec_of_accepts hacc hkind hexec, heffect]
    rfl
  · exact (congrArg (fun b : Byte => (b.toNat : Int)) (hpixels (x, y) ((hmem _).2 ⟨hx, hy⟩))).trans
      (pixelByte_value (hvalue x hx y hy))
  · exact hother a fun c hc => ha c.1 ((hmem c).1 hc).1 c.2 ((hmem c).1 hc).2

/-- The same for a command that writes the block row by row. -/
theorem fillsBlock_of_rows {i : Instr} {checks : List Check} {foot : State → Footprint} {effect : State → Effect}
    {s : State} {w h : Nat} {bs : List Byte} {value : Nat → Nat → Int} (hm : s.mem.wf) (hacc : Accepts i s)
    (hkind : isControl i = false) (hexec : exec i s = operation i checks foot effect s) (hstride : (w : Int) ≤ s.signedReg 1)
    (hwrites : (foot s).writes = s.blockDst.rows 0 0 w h) (heffect : effect s = { bytes := bs })
    (hbytes : bs = raster w h fun x y => pixelByte (value x y)) (hvalue : ∀ x < w, ∀ y < h, 0 ≤ value x y ∧ value x y ≤ 255) :
    FillsBlock i s w h value := by
  have hrows : addresses (s.blockDst.rows 0 0 w h) = (positions w h).map fun c => s.blockDst.at c.1 c.2 := by
    simp only [addresses_rows, zero_add]
    exact raster_eq_map w h _
  exact fillsBlock_of_accepts hm hacc hkind hexec hstride (positions_nodup w h) (fun _ => mem_positions) (hwrites ▸ hrows)
    heffect (hbytes.trans (raster_eq_map w h _)) hvalue

/-! ## The meaning of each command, its arm of `exec` -/

theorem exec_fdct4 (wc hc : SizeCode) (s : State) : exec (.fdct4 wc hc) s = execFdct4 wc hc s := rfl
theorem exec_idct4 (wc hc : SizeCode) (s : State) : exec (.idct4 wc hc) s = execIdct4 wc hc s := rfl
theorem exec_fdct8 (s : State) : exec .fdct8 s = execFdct8 s := rfl
theorem exec_idct8 (s : State) : exec .idct8 s = execIdct8 s := rfl
theorem exec_fdc4 (s : State) : exec .fdc4 s = execFdc4 s := rfl
theorem exec_idc4 (s : State) : exec .idc4 s = execIdc4 s := rfl
theorem exec_fdc2 (s : State) : exec .fdc2 s = execFdc2 s := rfl
theorem exec_idc2 (s : State) : exec .idc2 s = execIdc2 s := rfl
theorem exec_quant4 (s : State) : exec .quant4 s = execQuant4 s := rfl
theorem exec_quant8 (s : State) : exec .quant8 s = execQuant8 s := rfl
theorem exec_quantdc4 (s : State) : exec .quantdc4 s = execQuantdc4 s := rfl
theorem exec_quantdc2 (s : State) : exec .quantdc2 s = execQuantdc2 s := rfl
theorem exec_zigzag4 (s : State) : exec .zigzag4 s = execZigzag4 s := rfl

/-! ## The coefficients at `SRCA` (42_transform_quant.md R140, R141) -/

theorem coef_source (s : State) (k : Nat) : s.coef (s.addr SRCA) k = s.sourceCoef k := coef_eq s (addr_nonneg s SRCA) k

theorem coefBlock_source (s : State) (n : Nat) : s.coefBlock n (s.addr SRCA) = fun u v => s.sourceCoef (n * v + u) :=
  funext fun u => funext fun v => coef_source s (n * v + u)

theorem sourceCoef_bounds (s : State) (k : Nat) : IsS16 (s.sourceCoef k) := s16At_bounds _ _

theorem inS16_iff {a : Int} : inS16 a = true ↔ IsS16 a := decide_eq_true_iff

/-! ## The scan (42_transform_quant.md R167) -/

/-- Settles O48: the elements are those of the input at the table's positions, all read before any is written. -/
theorem zigzagReorders : Obligations.ZigzagReorders := by
  intro s hm hacc
  have hlist : s.cfg.zigzag4.toList.map (fun k => s.coef (s.addr SRCA) k.val) =
      (List.range 16).map fun k => s.sourceCoef (s.cfg.zigzag4.toList.getD k 0).val := by
    refine List.ext_getElem (by simp) fun k h _ => ?_
    rw [List.length_map] at h
    rw [List.getElem_map, List.getElem_map, List.getElem_range, coef_source, List.getD_eq_getElem _ _ h]
  exact storesArray_of_accepts hm hacc rfl (exec_zigzag4 s) rfl rfl hlist fun k _ => sourceCoef_bounds s _

/-! ## The quantizers (42_transform_quant.md R160 to R165) -/

theorem quant1_eq_levelOf (s : State) (c : Int) (mf : Nat) : quant1 c mf (s.uval P0) (s.uval P1) = levelOf s c mf := by
  rw [quant1, isign_eq_sign, iabs_eq_abs]
  rfl

theorem u32_table (s : State) (k : Nat) : ((s.u32 (s.addr TBL) k).toNat : Int) = multiplier s k :=
  (Int.toNat_of_nonneg (Int.natCast_nonneg _)).trans (u32_eq s (addr_nonneg s TBL) k)

/-- The range check of a quantizer (R162). -/
theorem levelsInRange_iff {ls : List Int} : (ls.all fun l => decide (iabs l ≤ 32767)) = true ↔ ∀ l ∈ ls, |l| ≤ 32767 :=
  List.all_eq_true.trans (forall₂_congr fun l _ => by rw [decide_eq_true_iff, iabs_eq_abs])

/-- A quantizer in range stores the levels for its multipliers `mf`. -/
theorem quantEffect_storesArray {i : Instr} {checks : List Check} {foot : State → Footprint} {n : Nat}
    {mf : State → Nat → Nat} {mult : Nat → Int} {s : State} (hm : s.mem.wf) (hacc : Accepts i s)
    (hkind : isControl i = false) (hexec : exec i s = operation i checks foot (fun s => quantEffect n (mf s) s) s)
    (hwrites : (foot s).writes = [⟨s.addr DST, 2 * n⟩]) (hmf : ∀ k, (mf s k : Int) = mult k)
    (hrange : ∀ k < n, |levelOf s (s.sourceCoef k) (mult k)| ≤ 32767) :
    StoresArray i s n fun k => levelOf s (s.sourceCoef k) (mult k) := by
  have hlevels : levels n (mf s) s = (List.range n).map fun k => levelOf s (s.sourceCoef k) (mult k) := by
    simp only [levels, quant1_eq_levelOf, coef_source, hmf]
  have hok : ((levels n (mf s) s).all fun l => decide (iabs l ≤ 32767)) = true := by
    rw [levelsInRange_iff, hlevels, List.forall_mem_map]
    exact fun k hk => hrange k (List.mem_range.1 hk)
  refine storesArray_of_accepts hm hacc hkind hexec hwrites (ranged_of_inRange hok ..) hlevels fun k hk => ?_
  obtain ⟨hlow, hhigh⟩ := abs_le.1 (hrange k hk)
  exact ⟨by omega, hhigh⟩

section
variable {i : Instr} {n : Nat} {s : State} (hm : s.mem.wf) (hacc : Accepts i s) (hkind : isControl i = false)
include hm hacc hkind

theorem quantTable_storesArray (hexec : exec i s = quantTable i n s)
    (hrange : ∀ k < n, |levelOf s (s.sourceCoef k) (multiplier s k)| ≤ 32767) :
    StoresArray i s n fun k => levelOf s (s.sourceCoef k) (multiplier s k) :=
  quantEffect_storesArray hm hacc hkind hexec rfl (u32_table s) hrange

theorem quantScalar_storesArray (hexec : exec i s = quantScalar i n s)
    (hrange : ∀ k < n, |levelOf s (s.sourceCoef k) (s.unsignedReg 11)| ≤ 32767) :
    StoresArray i s n fun k => levelOf s (s.sourceCoef k) (s.unsignedReg 11) :=
  quantEffect_storesArray (mult := fun _ => s.unsignedReg 11) hm hacc hkind hexec rfl (fun _ => rfl) hrange

end

/-- Settles O47: two quantizers take their multipliers from the table, two from `P2`. -/
theorem quantizersStoreLevels : Obligations.QuantizersStoreLevels := fun s hm =>
  ⟨fun hacc => quantTable_storesArray hm hacc rfl (exec_quant4 s),
    fun hacc => quantTable_storesArray hm hacc rfl (exec_quant8 s),
    fun hacc => quantScalar_storesArray hm hacc rfl (exec_quantdc4 s),
    fun hacc => quantScalar_storesArray hm hacc rfl (exec_quantdc2 s)⟩

/-! ## The DC transforms (42_transform_quant.md R153 to R158) -/

/-- `HAD4` is the matrix of the claims. -/
theorem had4_eq_matrix (f : Nat → Int) {u : Nat} (hu : u < 4) :
    had4 f u = ∑ x ∈ Finset.range 4, entry hadMatrix u x * f x := by
  interval_cases u <;> simp [had4, entry, hadMatrix, Finset.sum_range_succ] <;> ring

section
variable (s : State)

theorem hadRows_source {u : Nat} (hu : u < 4) (r : Nat) : hadRows (s.coefBlock 4 (s.addr SRCA)) u r = dcRow s u r := by
  simp only [hadRows, rowPass, coefBlock_source, had4_eq_matrix _ hu, dcRow]

theorem haddc4_source {u v : Nat} (hu : u < 4) (hv : v < 4) : haddc4 (s.coefBlock 4 (s.addr SRCA)) u v = dcCol s u v := by
  simp only [haddc4, colPass, hadRows_source s hu, had4_eq_matrix _ hv, dcCol]

theorem haddc2_source : haddc2 (s.coef (s.addr SRCA)) = (List.range 4).map (dc2 s) := by
  simp [haddc2, coef_source, List.range_succ, dc2, entry, had2Matrix, Finset.sum_range_succ, sub_eq_add_neg]

/-- The elements of the second pass. -/
theorem elements_haddc4 :
    elements 4 (haddc4 (s.coefBlock 4 (s.addr SRCA))) = (List.range 16).map fun k => dcCol s (k % 4) (k / 4) := by
  refine (raster_eq_map_range 4 4 _).trans (List.map_congr_left fun k hk => ?_)
  have hlt : k < 16 := List.mem_range.1 hk
  exact haddc4_source s (by omega) (by omega)

variable {s} {p : Int → Bool}

theorem all_hadRows (hp : ∀ u < 4, ∀ r < 4, p (dcRow s u r) = true) :
    (elements 4 (hadRows (s.coefBlock 4 (s.addr SRCA)))).all p = true :=
  all_raster.2 fun u hu r hr => by rw [hadRows_source s hu]; exact hp u hu r hr

theorem all_haddc4 (hp : ∀ u < 4, ∀ v < 4, p (dcCol s u v) = true) :
    (elements 4 (haddc4 (s.coefBlock 4 (s.addr SRCA)))).all p = true :=
  all_raster.2 fun u hu v hv => by rw [haddc4_source s hu hv]; exact hp u hu v hv

end

section
variable {s : State} (hm : s.mem.wf)
include hm

theorem fdc4_storesArray (hacc : Accepts .fdc4 s) (hrange : ∀ u < 4, ∀ v < 4, IsS16 (dcRow s u v) ∧ IsS16 (dcCol s u v)) :
    StoresArray .fdc4 s 16 fun k => dcCol s (k % 4) (k / 4) := by
  have hrows := all_hadRows fun u hu r hr => inS16_iff.2 (hrange u hu r hr).1
  have hcols := all_haddc4 fun u hu v hv => inS16_iff.2 (hrange u hu v hv).2
  refine storesArray_of_accepts hm hacc rfl (exec_fdc4 s) rfl
    (ranged_of_inRange (List.all_append.trans (by rw [hrows, hcols]; rfl)) ..) (elements_haddc4 s) fun k hk => ?_
  exact (hrange _ (by omega) _ (by omega)).2

theorem idc4_storesArray (hacc : Accepts .idc4 s)
    (hrange : ∀ u < 4, ∀ v < 4, IsS16 (dcRow s u v) ∧ IsS16 (dcCol s u v) ∧ IsS16 (dcCol s u v + 1)) :
    StoresArray .idc4 s 16 fun k => (dcCol s (k % 4) (k / 4) + 1) / 2 := by
  have hrows := all_hadRows fun u hu r hr => inS16_iff.2 (hrange u hu r hr).1
  have hcols := all_haddc4 (p := fun y => inS16 y && inS16 (y + 1)) fun u hu v hv => by
    rw [Bool.and_eq_true, inS16_iff, inS16_iff]
    exact (hrange u hu v hv).2
  refine storesArray_of_accepts hm hacc rfl (exec_idc4 s) rfl
    (ranged_of_inRange (by rw [hrows, hcols]; rfl) ..) (by rw [elements_haddc4, List.map_map]; rfl) fun k hk => ?_
  obtain ⟨-, -, hlow, hhigh⟩ := hrange (k % 4) (by omega) (k / 4) (by omega)
  exact ⟨by omega, by omega⟩

theorem fdc2_storesArray (hacc : Accepts .fdc2 s) (hrange : ∀ k < 4, IsS16 (dc2 s k)) :
    StoresArray .fdc2 s 4 fun k => dc2 s k := by
  have hok : (haddc2 (s.coef (s.addr SRCA))).all inS16 = true := by simpa [haddc2_source, inS16_iff] using hrange
  exact storesArray_of_accepts hm hacc rfl (exec_fdc2 s) rfl (ranged_of_inRange hok ..) (haddc2_source s) hrange

theorem idc2_storesArray (hacc : Accepts .idc2 s) (hrange : ∀ k < 4, IsS16 (dc2 s k) ∧ IsS16 (dc2 s k + 1)) :
    StoresArray .idc2 s 4 fun k => (dc2 s k + 1) / 2 := by
  have hok : ((haddc2 (s.coef (s.addr SRCA))).all fun y => inS16 y && inS16 (y + 1)) = true := by
    simpa [haddc2_source, inS16_iff] using hrange
  refine storesArray_of_accepts hm hacc rfl (exec_idc2 s) rfl (ranged_of_inRange hok ..)
    (by rw [haddc2_source, List.map_map]; rfl) fun k hk => ?_
  obtain ⟨-, hlow, hhigh⟩ := hrange k hk
  exact ⟨by omega, by omega⟩

end

/-- Settles O46: the passes of the model are the matrix products of the claim, and the checked values are in range. -/
theorem dcTransformsStore : Obligations.DcTransformsStore := fun _ hm =>
  ⟨fdc4_storesArray hm, idc4_storesArray hm, fdc2_storesArray hm, idc2_storesArray hm⟩

/-! ## The layout of an aggregate (42_transform_quant.md R141) -/

theorem subX_eq (n : Nat) : subX n = 8 * (n / 4 % 2) + 4 * (n % 2) := by simp [subX, Nat.shiftRight_eq_div_pow]

theorem subY_eq (n : Nat) : subY n = 8 * (n / 8) + 4 * (n / 2 % 2) := by simp [subY, Nat.shiftRight_eq_div_pow]

theorem subOffset_eq (n : Nat) : subOffset n = (subX n, subY n) := by rw [subOffset, subX_eq, subY_eq]

/-- The 4×4 blocks of an aggregate are numbered through, 16 elements to a sub-block (R141). -/
theorem subBlocks_eq_map {α : Type} (n : Nat) (f : Nat → Nat → Nat → α) :
    ((List.range n).flatMap fun k => raster 4 4 (f k)) =
      (List.range (16 * n)).map fun k => f (k / 16) (k % 4) (k / 4 % 4) := by
  simp only [raster_eq_map_range 4 4]
  refine (raster_eq_map_range 16 n fun k m => f m (k % 4) (k / 4)).trans (List.map_congr_left fun k _ => ?_)
  rw [show k % 16 % 4 = k % 4 by omega, show k % 16 / 4 = k / 4 % 4 by omega]

/-- The sizes of a square block, and that its sub-blocks have all its elements. -/
theorem square_subCount {wc hc : SizeCode} (h : SizeSet.square3.has wc hc = true) :
    hc = wc ∧ (wc.pixels = 4 ∨ wc.pixels = 8 ∨ wc.pixels = 16) ∧ 16 * subCount wc.pixels = wc.pixels * wc.pixels := by
  obtain ⟨hsquare, hn⟩ := square_pixels h
  refine ⟨hsquare, hn, ?_⟩
  rcases hn with hn | hn | hn <;> rw [hn] <;> rfl

/-! ## Two-pass transforms (42_transform_quant.md R142, R148) -/

/-- A transform whose two passes are one matrix `m` is the matrix product `m·d·mᵀ` (R142). -/
theorem colPass_rowPass_eq_blockSum {n : Nat} {f : (Nat → Int) → Nat → Int} {m : Nat → Nat → Int}
    (hf : ∀ g, ∀ u < n, f g u = ∑ x ∈ Finset.range n, m u x * g x) (d : Nat → Nat → Int) {u v : Nat} (hu : u < n) (hv : v < n) :
    colPass f (rowPass f d) u v = blockSum n n fun x y => m u x * m v y * d x y := by
  simp only [colPass, rowPass, hf _ u hu, hf _ v hv, blockSum, Finset.mul_sum]
  refine Finset.sum_congr rfl fun y _ => Finset.sum_congr rfl fun x _ => ?_
  ring

/-- The number is at most `b` in absolute value. -/
abbrev Within (b a : Int) : Prop := -b ≤ a ∧ a ≤ b

/-- `f` takes `n` numbers within `b` to numbers within `c*b + e` (R144, R149). -/
def Enlarges (n : Nat) (c e : Int) (f : (Nat → Int) → Nat → Int) : Prop :=
  ∀ (g : Nat → Int) (b : Int), (∀ x < n, Within b (g x)) → ∀ u, Within (c * b + e) (f g u)

/-- Two such passes over differences stay in the `s16` interval when the bound does (R144, R149). -/
theorem Enlarges.twoPasses_s16 {n : Nat} {c e : Int} {f : (Nat → Int) → Nat → Int} (hf : Enlarges n c e f)
    (hbound : c * (c * 255 + e) + e ≤ 32767) {d : Nat → Nat → Int} (hd : ∀ x y, Within 255 (d x y)) (u v : Nat) :
    IsS16 (colPass f (rowPass f d) u v) := by
  obtain ⟨hlow, hhigh⟩ := hf _ _ (fun y _ => hf _ _ (fun x _ => hd x y) u) v
  exact ⟨le_trans (by linarith) hlow, hhigh.trans hbound⟩

theorem diff_within (s : State) (x y : Nat) : Within 255 (s.diff x y) := by
  obtain ⟨ha0, ha⟩ := pix_bounds s s.blockA x y
  obtain ⟨hb0, hb⟩ := pix_bounds s s.blockB x y
  simp only [State.diff]
  omega

/-! ## `FDCT4` (42_transform_quant.md R142 to R144) -/

/-- `FWD4` is the matrix of the claims. -/
theorem fwd4_eq_matrix (f : Nat → Int) {u : Nat} (hu : u < 4) :
    fwd4 f u = ∑ x ∈ Finset.range 4, entry fwdMatrix u x * f x := by
  interval_cases u <;> simp [fwd4, entry, fwdMatrix, Finset.sum_range_succ] <;> ring

/-- The largest row of the matrix has absolute sum 6 (R144). -/
theorem fwd4_enlarges : Enlarges 4 6 0 fwd4 := by
  intro g b hg u
  have h0 := hg 0 (by omega)
  have h1 := hg 1 (by omega)
  have h2 := hg 2 (by omega)
  have h3 := hg 3 (by omega)
  rcases u with _ | _ | _ | u <;> simp only [fwd4] <;> omega

/-- An entry of the matrix product, over the differences of a sub-block (R142, R143). -/
theorem fdct4x4_tile (s : State) (n : Nat) {u v : Nat} (hu : u < 4) (hv : v < 4) :
    fdct4x4 (s.tile (subX n) (subY n)) u v = blockSum 4 4 fun x y => entry fwdMatrix u x * entry fwdMatrix v y *
      (s.sampleA ↑((subOffset n).1 + x) ↑((subOffset n).2 + y) - s.sampleB ↑((subOffset n).1 + x) ↑((subOffset n).2 + y)) := by
  rw [fdct4x4, colPass_rowPass_eq_blockSum (fun g u => fwd4_eq_matrix g) _ hu hv]
  simp only [State.tile, State.diff_eq, subOffset_eq]

/-- Settles O42: the elements of all sub-blocks in order are entries of matrix products, and their bound is below `2^15`. -/
theorem fdct4StoresTransform : Obligations.Fdct4StoresTransform := by
  intro wc hc s hm hacc
  obtain ⟨rfl, -, hcount⟩ := square_subCount (has_of_sizeOk (sizeOk_of_accepts hacc) rfl)
  have helements := subBlocks_eq_map (subCount hc.pixels) fun n => fdct4x4 (s.tile (subX n) (subY n))
  rw [hcount] at helements
  have hvalue := fun k : Nat => fdct4x4_tile s (k / 16) (u := k % 4) (v := k / 4 % 4) (by omega) (by omega)
  refine storesArray_of_accepts hm hacc rfl (exec_fdct4 hc hc s) (by rw [← Nat.mul_assoc]) rfl
    (helements.trans (List.map_congr_left fun k _ => hvalue k)) fun k _ => ?_
  rw [← hvalue]
  exact fwd4_enlarges.twoPasses_s16 (by decide) (fun x y => diff_within s _ _) _ _

/-! ## `FDCT8` (42_transform_quant.md R148, R149) -/

theorem dct8_eq_dct8Out (f : Nat → Int) (k : Nat) : dct8 f k = dct8Out f k := by
  rcases k with _ | _ | _ | _ | _ | _ | _ | k <;> rfl

/-- The largest row of the transform has absolute sum 8, and the shifts add at most 3 (R149). -/
theorem dct8_enlarges : Enlarges 8 8 3 dct8 := by
  intro g b hg u
  have h0 := hg 0 (by omega)
  have h1 := hg 1 (by omega)
  have h2 := hg 2 (by omega)
  have h3 := hg 3 (by omega)
  have h4 := hg 4 (by omega)
  have h5 := hg 5 (by omega)
  have h6 := hg 6 (by omega)
  have h7 := hg 7 (by omega)
  rcases u with _ | _ | _ | _ | _ | _ | _ | u <;> simp only [dct8, asr] <;> omega

theorem fdct8x8_eq (s : State) (u v : Nat) : fdct8x8 s.diff u v = dct8Coef s u v := by
  simp only [fdct8x8, colPass, rowPass, dct8_eq_dct8Out, State.diff_eq, dct8Coef]

/-- Settles O44: the elements in raster order are those of the two passes, and each pass keeps its bound. -/
theorem fdct8StoresTransform : Obligations.Fdct8StoresTransform := by
  intro s hm hacc
  have helements : elements 8 (fdct8x8 s.diff) = (List.range 64).map fun k => dct8Coef s (k % 8) (k / 8) := by
    simp only [elements, raster_eq_map_range, fdct8x8_eq]
  refine storesArray_of_accepts hm hacc rfl (exec_fdct8 s) rfl rfl helements fun k _ => ?_
  rw [← fdct8x8_eq]
  exact dct8_enlarges.twoPasses_s16 (by decide) (diff_within s) _ _

/-! ## `IDCT4` (42_transform_quant.md R141, R145 to R147) -/

theorem clip8_eq_clipped (a : Int) : clip8 a = clipped a := by
  simp only [clip8, clipped]
  omega

theorem clipped_bounds (a : Int) : 0 ≤ clipped a ∧ clipped a ≤ 255 := clip8_eq_clipped a ▸ clip8_bounds a

theorem inv4_eq_inv4Out (c : Nat → Int) (k : Nat) : inv4 c k = inv4Out c k := by
  rcases k with _ | _ | _ | k <;> rfl

/-- The sub-block's array begins 16 elements after the one before it (R141). -/
theorem subCoefs_eq (s : State) (n : Nat) : s.subCoefs n = fun u v => s.sourceCoef (16 * n + (4 * v + u)) := by
  refine funext fun u => funext fun v => ?_
  have hbase : 0 ≤ s.addr SRCA + 32 * (n : Int) := Int.add_nonneg (addr_nonneg s SRCA) (by omega)
  refine (coef_eq s hbase (4 * v + u)).trans (congrArg (s16At s.mem) ?_)
  change s.unsignedReg 2 + 32 * (n : Int) + _ = _
  push_cast
  ring

section
variable (s : State) (n x y : Nat)

theorem rowPass_subCoefs : rowPass inv4 (s.subCoefs n) x y = inv4Row (fun k => s.sourceCoef (16 * n + k)) x y := by
  simp only [rowPass, inv4_eq_inv4Out, subCoefs_eq, inv4Row]

theorem inverse4_subCoefs : inverse4 (s.subCoefs n) x y = inv4Col (fun k => s.sourceCoef (16 * n + k)) x y := by
  simp only [inverse4, colPass, rowPass_subCoefs, inv4_eq_inv4Out, inv4Col]

end

theorem idct4InRange_iff {s : State} {n : Nat} :
    idct4InRange (s.subCoefs n) = true ↔ Inv4InRange fun k => s.sourceCoef (16 * n + k) := by
  simp only [idct4InRange, all_raster, id, Bool.and_eq_true, inS16_iff, rowPass_subCoefs, inverse4_subCoefs, Inv4InRange,
    and_assoc]

/-- The position of element `k` of the aggregate in the block (R141). -/
def subPosition (k : Nat) : Nat × Nat := (subX (k / 16) + k % 4, subY (k / 16) + k / 4 % 4)

/-- The sub-block a position lies in, and its place in it. -/
theorem subPosition_place (k : Nat) : subIndex (subPosition k).1 (subPosition k).2 = k / 16 ∧
    (subPosition k).1 % 4 = k % 4 ∧ (subPosition k).2 % 4 = k / 4 % 4 := by
  simp only [subPosition, subIndex, subX_eq, subY_eq]
  omega

theorem subPositions_nodup (n : Nat) : ((List.range n).map subPosition).Nodup := by
  refine List.nodup_range.map fun j k hjk => ?_
  obtain ⟨hj, hjx, hjy⟩ := subPosition_place j
  obtain ⟨hk, hkx, hky⟩ := subPosition_place k
  rw [hjk] at hj hjx hjy
  omega

theorem subPosition_element (m : Nat) {x y : Nat} (hx : x < 4) (hy : y < 4) :
    subPosition (16 * m + (4 * y + x)) = (subX m + x, subY m + y) := by
  rw [subPosition, show (16 * m + (4 * y + x)) / 16 = m by omega, show (16 * m + (4 * y + x)) % 4 = x by omega,
    show (16 * m + (4 * y + x)) / 4 % 4 = y by omega]

/-- The positions of all elements are those of the block (R141). -/
theorem mem_subPositions {n : Nat} (hn : n = 4 ∨ n = 8 ∨ n = 16) (c : Nat × Nat) :
    c ∈ (List.range (n * n)).map subPosition ↔ c.1 < n ∧ c.2 < n := by
  simp only [List.mem_map, List.mem_range]
  constructor
  · rintro ⟨k, hk, rfl⟩
    have hsub : 16 * (k / 16) < n * n := (Nat.mul_div_le k 16).trans_lt hk
    simp only [subPosition, subX_eq, subY_eq]
    generalize k / 16 = m at hsub
    rcases hn with rfl | rfl | rfl <;> omega
  · rintro ⟨hx, hy⟩
    refine ⟨16 * subIndex c.1 c.2 + (4 * (c.2 % 4) + c.1 % 4), ?_, ?_⟩
    · rw [subIndex]
      rcases hn with rfl | rfl | rfl <;> omega
    · rw [subPosition_element _ (Nat.mod_lt _ (by omega)) (Nat.mod_lt _ (by omega)), subX_eq, subY_eq, subIndex]
      rcases hn with rfl | rfl | rfl <;> exact Prod.ext (by omega) (by omega)

/-- The write set in the order of the sub-blocks. -/
theorem addresses_subBlocks (b : Block) (n : Nat) :
    addresses ((List.range n).flatMap fun k => b.rows (subX k) (subY k) 4 4) =
      ((List.range (16 * n)).map subPosition).map fun c => b.at c.1 c.2 := by
  simp only [addresses_flatMap, addresses_rows, subBlocks_eq_map n fun k x y => b.at (subX k + x) (subY k + y), List.map_map,
    Function.comp_def, subPosition, Nat.cast_add]

/-- Settles O43: the write set in the order of the sub-blocks is the block, and the residual of each pixel is that of its
sub-block. -/
theorem idct4AddsResidual : Obligations.Idct4AddsResidual := by
  intro wc hc s hm hacc hrange
  obtain ⟨rfl, hn, hcount⟩ := square_subCount (has_of_sizeOk (sizeOk_of_accepts hacc) rfl)
  have hok : ((List.range (subCount hc.pixels)).all fun n => idct4InRange (s.subCoefs n)) = true :=
    List.all_eq_true.2 fun n hmem => idct4InRange_iff.2 (hrange n (by rw [List.mem_range] at hmem; omega))
  refine fillsBlock_of_accepts hm hacc rfl (exec_idct4 hc hc s) (stride_of_accepts hacc 1 (List.mem_singleton_self _))
    (subPositions_nodup _) (mem_subPositions hn) (by rw [← hcount]; exact addresses_subBlocks _ _)
    (ranged_of_inRange hok ..) ?_ fun _ _ _ _ => clipped_bounds _
  rw [subBlocks_eq_map (subCount hc.pixels) fun n x y =>
    pixelByte (clip8 (s.pix s.blockDst ↑(subX n + x) ↑(subY n + y) + idct4x4 (s.subCoefs n) x y)), hcount, List.map_map]
  refine List.map_congr_left fun k _ => congrArg pixelByte ((clip8_eq_clipped _).trans (congrArg clipped ?_))
  obtain ⟨hindex, hx, hy⟩ := subPosition_place k
  rw [hindex, hx, hy, idct4x4, inverse4_subCoefs]
  exact congrArg₂ (· + ·) (pix_block s DST DSTS _ _) rfl

/-! ## `IDCT8` (42_transform_quant.md R150 to R152) -/

theorem idct8_eq_inv8Out (c : Nat → Int) (k : Nat) : idct8 c k = inv8Out c k := by
  rcases k with _ | _ | _ | _ | _ | _ | _ | k <;> rfl

section
variable (s : State)

theorem biased_source (u v : Nat) : biased (s.coefBlock 8 (s.addr SRCA)) u v = biasedCoef s (8 * v + u) := by
  simp only [biased, coefBlock_source, biasedCoef]
  by_cases h : u = 0 ∧ v = 0
  · obtain ⟨rfl, rfl⟩ := h
    simp
  · rw [if_neg h, if_neg (by omega), Int.add_zero]

theorem rowPass_biased (x v : Nat) : rowPass idct8 (biased (s.coefBlock 8 (s.addr SRCA))) x v = inv8Row s x v := by
  simp only [rowPass, idct8_eq_inv8Out, biased_source, inv8Row]

theorem inverse8_source (x y : Nat) : inverse8 (s.coefBlock 8 (s.addr SRCA)) x y = inv8Col s x y := by
  simp only [inverse8, colPass, rowPass_biased, idct8_eq_inv8Out, inv8Col]

theorem idct8InRange_iff : idct8InRange (s.coefBlock 8 (s.addr SRCA)) = true ↔ Inv8InRange s := by
  have hbias : s.coefBlock 8 (s.addr SRCA) 0 0 + 32 = biasedCoef s 0 := biased_source s 0 0
  simp only [idct8InRange, all_raster, id, Bool.and_eq_true, inS16_iff, hbias, rowPass_biased, inverse8_source, Inv8InRange]

end

/-- Settles O45: the bias and the two passes are those of the claim, and the block is filled row by row. -/
theorem idct8AddsResidual : Obligations.Idct8AddsResidual := by
  intro s hm hacc hrange
  refine fillsBlock_of_rows hm hacc rfl (exec_idct8 s) (stride_of_accepts hacc 1 (List.mem_singleton_self _)) rfl
    (ranged_of_inRange ((idct8InRange_iff s).2 hrange) ..) ?_ fun _ _ _ _ => clipped_bounds _
  simp only [clip8_eq_clipped, idct8x8, inverse8_source, State.blockDst, pix_block]
  rfl

end Sys2Proof.Machine
end

section
/-! The statements of the family 43_intra_4x4.md: an accepted prediction fills the block with the values of its mode, the
neighbours, sums and directional modes of the model are those of the claims, and their values are pixels. -/

namespace Sys2Proof.Machine

/-! ## The neighbours (43_intra_4x4.md R181, 44_intra_8x8_16x16_chroma.md R220) -/

/-- In the interval of a pixel (20_memory.md R58). -/
abbrev IsPixel (v : Int) : Prop := 0 ≤ v ∧ v ≤ 255

/-- The neighbours are the row `t` and the column `l`; no rule names a left neighbour below index -1, the corner. -/
structure Context.Matches (c : Context) (t l : Int → Int) : Prop where
  top : c.t = t
  left : ∀ j, -1 ≤ j → c.l j = l j

section
variable (s : State)

theorem around_matches : s.around.Matches s.topOf s.leftOf :=
  ⟨funext fun i => pix_block s DST DSTS i (-1), fun j _ => pix_block s DST DSTS (-1) j⟩

/-- The corner of the edge array is both `t[-1]` and `l[-1]`. -/
theorem edgeContext_matches : s.edgeContext.Matches s.edgeTop s.edgeLeft := by
  refine ⟨funext fun i => ?_, fun j hj => ?_⟩
  · exact (load_one s _).trans (congrArg (byteAt s.mem) (Int.add_assoc _ 1 i).symm)
  · simp only [State.edgeContext, State.edgeLeft, State.edge, load_one]
    by_cases hcorner : j = -1
    · rw [if_pos (by omega), if_pos hcorner, Int.add_zero]
      rfl
    · rw [if_neg (by omega), if_neg hcorner, ← Int.add_assoc]
      rfl

theorem topOf_isPixel (i : Int) : IsPixel (s.topOf i) := byteAt_bounds _ _
theorem leftOf_isPixel (j : Int) : IsPixel (s.leftOf j) := byteAt_bounds _ _
theorem edgeTop_isPixel (i : Int) : IsPixel (s.edgeTop i) := byteAt_bounds _ _
theorem edgeLeft_isPixel (j : Int) : IsPixel (s.edgeLeft j) := byteAt_bounds _ _

end

/-! ## What an accepted prediction fills (43_intra_4x4.md R180, R183) -/

theorem fillsBlock_of_predict {i : Instr} {n : Nat} {nulls : List (Fin 16)} {reads : State → List Run}
    {mode : State → Nat → Nat → Int} {s : State} {value : Nat → Nat → Int} (hm : s.mem.wf) (hacc : Accepts i s)
    (hkind : isControl i = false) (hexec : exec i s = predict i n nulls reads mode s)
    (hmode : ∀ x y, mode s x y = value x y) (hvalue : ∀ x y, IsPixel (value x y)) : FillsBlock i s n n value := by
  obtain rfl : mode s = value := funext fun x => funext (hmode x)
  obtain ⟨-, hchecks, -⟩ := checks_of_accepts hacc hkind hexec
  have hstride : strideCheck n [DSTS] s = none := hchecks _ (List.mem_cons_of_mem _ (List.mem_singleton_self _))
  exact fillsBlock_of_rows hm hacc hkind hexec (strideCheck_eq_none.1 hstride DSTS (List.mem_singleton_self _)) rfl rfl rfl
    fun x _ y _ => hvalue x y

section
variable {i : Instr} {n : Nat} {reads : State → List Run} {mode : Context → Nat → Nat → Int} {s : State}
  {value : Nat → Nat → Int} (hm : s.mem.wf) (hacc : Accepts i s) (hkind : isControl i = false)
include hm hacc hkind

theorem fillsBlock_of_around (hexec : exec i s = predictAround i n reads mode s)
    (hmode : ∀ x y, mode s.around x y = value x y) (hvalue : ∀ x y, IsPixel (value x y)) : FillsBlock i s n n value :=
  fillsBlock_of_predict (mode := fun s => mode s.around) hm hacc hkind hexec hmode hvalue

theorem fillsBlock_of_edge (hexec : exec i s = predictEdge i mode s)
    (hmode : ∀ x y, mode s.edgeContext x y = value x y) (hvalue : ∀ x y, IsPixel (value x y)) : FillsBlock i s 8 8 value :=
  fillsBlock_of_predict (mode := fun s => mode s.edgeContext) hm hacc hkind hexec hmode hvalue

theorem fillsBlock_of_constant (hexec : exec i s = predict128 i n s) : FillsBlock i s n n fun _ _ => 128 :=
  fillsBlock_of_predict (mode := fun _ _ _ => 128) hm hacc hkind hexec (fun _ _ => rfl) fun _ _ => by decide

end

/-! ## The meaning of each command, its arm of `exec` -/

theorem exec_pred4V (s : State) : exec .pred4V s = execPred4V s := rfl
theorem exec_pred4H (s : State) : exec .pred4H s = execPred4H s := rfl
theorem exec_pred4DC (s : State) : exec .pred4DC s = execPred4DC s := rfl
theorem exec_pred4DDL (s : State) : exec .pred4DDL s = execPred4DDL s := rfl
theorem exec_pred4DDR (s : State) : exec .pred4DDR s = execPred4DDR s := rfl
theorem exec_pred4VR (s : State) : exec .pred4VR s = execPred4VR s := rfl
theorem exec_pred4HD (s : State) : exec .pred4HD s = execPred4HD s := rfl
theorem exec_pred4VL (s : State) : exec .pred4VL s = execPred4VL s := rfl
theorem exec_pred4HU (s : State) : exec .pred4HU s = execPred4HU s := rfl
theorem exec_pred4DCL (s : State) : exec .pred4DCL s = execPred4DCL s := rfl
theorem exec_pred4DCT (s : State) : exec .pred4DCT s = execPred4DCT s := rfl
theorem exec_pred4DC128 (s : State) : exec .pred4DC128 s = execPred4DC128 s := rfl
theorem exec_pred8V (s : State) : exec .pred8V s = execPred8V s := rfl
theorem exec_pred8H (s : State) : exec .pred8H s = execPred8H s := rfl
theorem exec_pred8DC (s : State) : exec .pred8DC s = execPred8DC s := rfl
theorem exec_pred8DCL (s : State) : exec .pred8DCL s = execPred8DCL s := rfl
theorem exec_pred8DCT (s : State) : exec .pred8DCT s = execPred8DCT s := rfl
theorem exec_pred8DC128 (s : State) : exec .pred8DC128 s = execPred8DC128 s := rfl
theorem exec_pred16V (s : State) : exec .pred16V s = execPred16V s := rfl
theorem exec_pred16H (s : State) : exec .pred16H s = execPred16H s := rfl
theorem exec_pred16DC (s : State) : exec .pred16DC s = execPred16DC s := rfl
theorem exec_pred16DCL (s : State) : exec .pred16DCL s = execPred16DCL s := rfl
theorem exec_pred16DCT (s : State) : exec .pred16DCT s = execPred16DCT s := rfl
theorem exec_pred16DC128 (s : State) : exec .pred16DC128 s = execPred16DC128 s := rfl
theorem exec_predCV (s : State) : exec .predCV s = execPredCV s := rfl
theorem exec_predCH (s : State) : exec .predCH s = execPredCH s := rfl
theorem exec_predCDC128 (s : State) : exec .predCDC128 s = execPredCDC128 s := rfl

/-! ## The plain modes (43_intra_4x4.md R186, R187, R197) -/

section
variable {c : Context} {t l : Int → Int} (h : c.Matches t l) (x y : Nat)
include h

theorem modeV_eq : modeV c x y = t x := congrFun h.top x

theorem modeH_eq : modeH c x y = l y := h.left y (by omega)

end

/-- Settles O49: the modes are the row, the column and 128, all of them pixels. -/
theorem predictPlainModes : Obligations.PredictPlainModes := by
  intro s hm
  have haround := around_matches s
  have hedge := edgeContext_matches s
  exact ⟨fun h => fillsBlock_of_around hm h rfl (exec_pred4V s) (modeV_eq haround) fun x _ => topOf_isPixel s x,
    fun h => fillsBlock_of_around hm h rfl (exec_pred4H s) (modeH_eq haround) fun _ y => leftOf_isPixel s y,
    fun h => fillsBlock_of_constant hm h rfl (exec_pred4DC128 s),
    fun h => fillsBlock_of_edge hm h rfl (exec_pred8V s) (modeV_eq hedge) fun x _ => edgeTop_isPixel s x,
    fun h => fillsBlock_of_edge hm h rfl (exec_pred8H s) (modeH_eq hedge) fun _ y => edgeLeft_isPixel s y,
    fun h => fillsBlock_of_constant hm h rfl (exec_pred8DC128 s),
    fun h => fillsBlock_of_around hm h rfl (exec_pred16V s) (modeV_eq haround) fun x _ => topOf_isPixel s x,
    fun h => fillsBlock_of_around hm h rfl (exec_pred16H s) (modeH_eq haround) fun _ y => leftOf_isPixel s y,
    fun h => fillsBlock_of_constant hm h rfl (exec_pred16DC128 s),
    fun h => fillsBlock_of_around hm h rfl (exec_predCV s) (modeV_eq haround) fun x _ => topOf_isPixel s x,
    fun h => fillsBlock_of_around hm h rfl (exec_predCH s) (modeH_eq haround) fun _ y => leftOf_isPixel s y,
    fun h => fillsBlock_of_constant hm h rfl (exec_predCDC128 s)⟩

/-! ## The DC modes (43_intra_4x4.md R185) -/

theorem sumFrom_eq_stretchSum (f : Int → Int) (a n : Nat) : sumFrom f a n = stretchSum f a n := sumTo_eq_sum _ _

section
variable {c : Context} {t l : Int → Int} (h : c.Matches t l)
include h

theorem sumFrom_top (a n : Nat) : sumFrom c.t a n = stretchSum t a n := by rw [sumFrom_eq_stretchSum, h.top]

theorem sumFrom_left (a n : Nat) : sumFrom c.l a n = stretchSum l a n :=
  (sumFrom_eq_stretchSum _ _ _).trans (Finset.sum_congr rfl fun i _ => h.left _ (by omega))

theorem dcFull_eq (k : Nat) :
    dcFull k c = (stretchSum t 0 (2 ^ k) + stretchSum l 0 (2 ^ k) + 2 ^ k) / 2 ^ (k + 1) := by
  rw [dcFull, average, sumFrom_top h, sumFrom_left h, asr, Nat.add_sub_cancel]

theorem dcLeft_eq (k : Nat) : dcLeft k c = (stretchSum l 0 (2 ^ k) + 2 ^ (k - 1)) / 2 ^ k := by
  rw [dcLeft, average, sumFrom_left h, asr]

theorem dcTop_eq (k : Nat) : dcTop k c = (stretchSum t 0 (2 ^ k) + 2 ^ (k - 1)) / 2 ^ k := by
  rw [dcTop, average, sumFrom_top h, asr]

end

theorem stretchSum_bounds {f : Int → Int} (hf : ∀ i, IsPixel (f i)) (a n : Nat) :
    0 ≤ stretchSum f a n ∧ stretchSum f a n ≤ 255 * n := by
  refine ⟨Finset.sum_nonneg fun i _ => (hf _).1, ?_⟩
  have hle := Finset.sum_le_card_nsmul (Finset.range n) (fun i => f ((a + i : Nat) : Int)) 255 fun i _ => (hf _).2
  rwa [Finset.card_range, nsmul_eq_mul, mul_comm] at hle

/-- A rounded mean of pixels is a pixel. -/
theorem mean_isPixel {sum half count : Int} (hsum : 0 ≤ sum ∧ sum ≤ 255 * count) (hhalf : 0 ≤ half ∧ half < count) :
    IsPixel ((sum + half) / count) := by
  have hlt : sum + half < 256 * count := by omega
  exact ⟨Int.ediv_nonneg (by omega) (by omega), Int.lt_add_one_iff.1 (Int.ediv_lt_of_lt_mul (by omega) hlt)⟩

section
variable {t l : Int → Int} (ht : ∀ i, IsPixel (t i)) (hl : ∀ j, IsPixel (l j))

include ht in
theorem stretchMean_isPixel {a n : Nat} {half count : Int} (hcount : count = n) (hhalf : 0 ≤ half ∧ half < count) :
    IsPixel ((stretchSum t a n + half) / count) :=
  mean_isPixel (hcount ▸ stretchSum_bounds ht a n) hhalf

include ht hl in
theorem pairMean_isPixel {a b n : Nat} {half count : Int} (hcount : count = 2 * n) (hhalf : 0 ≤ half ∧ half < count) :
    IsPixel ((stretchSum t a n + stretchSum l b n + half) / count) := by
  have htop := stretchSum_bounds ht a n
  have hleft := stretchSum_bounds hl b n
  exact mean_isPixel (by omega) hhalf

end

/-- Settles O50: each class has its own size `2^k`, and the mean of its neighbours is a pixel. -/
theorem predictLumaDcModes : Obligations.PredictLumaDcModes := by
  intro s hm
  have haround := around_matches s
  have hedge := edgeContext_matches s
  have ht := topOf_isPixel s
  have hl := leftOf_isPixel s
  have het := edgeTop_isPixel s
  have hel := edgeLeft_isPixel s
  exact ⟨fun h => fillsBlock_of_around hm h rfl (exec_pred4DC s) (fun _ _ => dcFull_eq haround 2) fun _ _ =>
      pairMean_isPixel ht hl rfl (by decide),
    fun h => fillsBlock_of_around hm h rfl (exec_pred4DCL s) (fun _ _ => dcLeft_eq haround 2) fun _ _ =>
      stretchMean_isPixel hl rfl (by decide),
    fun h => fillsBlock_of_around hm h rfl (exec_pred4DCT s) (fun _ _ => dcTop_eq haround 2) fun _ _ =>
      stretchMean_isPixel ht rfl (by decide),
    fun h => fillsBlock_of_edge hm h rfl (exec_pred8DC s) (fun _ _ => dcFull_eq hedge 3) fun _ _ =>
      pairMean_isPixel het hel rfl (by decide),
    fun h => fillsBlock_of_edge hm h rfl (exec_pred8DCL s) (fun _ _ => dcLeft_eq hedge 3) fun _ _ =>
      stretchMean_isPixel hel rfl (by decide),
    fun h => fillsBlock_of_edge hm h rfl (exec_pred8DCT s) (fun _ _ => dcTop_eq hedge 3) fun _ _ =>
      stretchMean_isPixel het rfl (by decide),
    fun h => fillsBlock_of_around hm h rfl (exec_pred16DC s) (fun _ _ => dcFull_eq haround 4) fun _ _ =>
      pairMean_isPixel ht hl rfl (by decide),
    fun h => fillsBlock_of_around hm h rfl (exec_pred16DCL s) (fun _ _ => dcLeft_eq haround 4) fun _ _ =>
      stretchMean_isPixel hl rfl (by decide),
    fun h => fillsBlock_of_around hm h rfl (exec_pred16DCT s) (fun _ _ => dcTop_eq haround 4) fun _ _ =>
      stretchMean_isPixel ht rfl (by decide)⟩

/-! ## The directional modes, for both block sizes (43_intra_4x4.md R184, R189 to R194) -/

theorem f2_eq_tap2 (a b : Int) : f2 a b = tap2 a b := rfl

theorem f3_eq_tap3 (a b c : Int) : f3 a b c = tap3 a b c := rfl

section
variable {c : Context} {t l : Int → Int} (h : c.Matches t l) (x y : Nat)
include h

theorem modeDDL_eq (n x y : Nat) : modeDDL n c x y = downLeft n t x y := by
  obtain ⟨rfl, -⟩ := h
  have hcorner : (x + 1 = n ∧ y + 1 = n) ↔ ((x : Int) = n - 1 ∧ (y : Int) = n - 1) := by omega
  simp only [modeDDL, downLeft, hcorner, f3_eq_tap3, asr]
  rfl

theorem modeDDR_eq : modeDDR c x y = downRight t l x y := by
  obtain ⟨rfl, hleft⟩ := h
  simp only [modeDDR, downRight, f3_eq_tap3]
  rcases Nat.lt_trichotomy y x with hlt | rfl | hgt
  · rw [if_pos hlt, if_pos (by omega)]
  · rw [if_neg (by omega), if_neg (by omega), if_neg (by omega), if_neg (by omega), hleft 0 (by omega)]
  · rw [if_neg (by omega), if_pos hgt, if_neg (by omega), if_pos (by omega), hleft _ (by omega), hleft _ (by omega),
      hleft _ (by omega)]

/-- The four cases are those of the zone `z = 2x - y`: below -1, -1, even, odd. -/
theorem modeVR_eq : modeVR c x y = verticalRight t l x y := by
  obtain ⟨rfl, hleft⟩ := h
  simp only [modeVR, verticalRight, f2_eq_tap2, f3_eq_tap3, asr, pow_one]
  by_cases hbelow : 2 * (x : Int) - y < -1
  · rw [if_neg (by omega), if_neg (by omega), if_neg (by omega), if_pos hbelow, hleft _ (by omega), hleft _ (by omega),
      hleft _ (by omega)]
  by_cases hcorner : 2 * (x : Int) - y = -1
  · rw [if_neg (by omega), if_neg (by omega), if_pos hcorner, if_neg hbelow, if_pos hcorner, hleft 0 (by omega)]
  by_cases heven : (2 * (x : Int) - y) % 2 = 0
  · rw [if_pos ⟨by omega, heven⟩, if_neg hbelow, if_neg hcorner, if_pos heven]
  · rw [if_neg fun hz => heven hz.2, if_pos (by omega), if_neg hbelow, if_neg hcorner, if_neg heven]

/-- The four cases are those of the zone `z = 2y - x`: below -1, -1, even, odd. -/
theorem modeHD_eq : modeHD c x y = horizontalDown t l x y := by
  obtain ⟨rfl, hleft⟩ := h
  simp only [modeHD, horizontalDown, f2_eq_tap2, f3_eq_tap3, asr, pow_one]
  by_cases hbelow : 2 * (y : Int) - x < -1
  · rw [if_neg (by omega), if_neg (by omega), if_neg (by omega), if_pos hbelow]
  by_cases hcorner : 2 * (y : Int) - x = -1
  · rw [if_neg (by omega), if_neg (by omega), if_pos hcorner, if_neg hbelow, if_pos hcorner, hleft 0 (by omega)]
  by_cases heven : (2 * (y : Int) - x) % 2 = 0
  · rw [if_pos ⟨by omega, heven⟩, if_neg hbelow, if_neg hcorner, if_pos heven, hleft _ (by omega), hleft _ (by omega)]
  · rw [if_neg fun hz => heven hz.2, if_pos (by omega), if_neg hbelow, if_neg hcorner, if_neg heven,
      hleft _ (by omega), hleft _ (by omega), hleft _ (by omega)]

theorem modeVL_eq : modeVL c x y = verticalLeft t x y := by
  obtain ⟨rfl, -⟩ := h
  have heven : y % 2 = 0 ↔ (y : Int) % 2 = 0 := by omega
  simp only [modeVL, verticalLeft, heven, f2_eq_tap2, f3_eq_tap3, asr, pow_one]

theorem modeHU_eq {n : Nat} (hn : 2 ≤ n) : modeHU n c x y = horizontalUp n l x y := by
  obtain ⟨-, hleft⟩ := h
  have hlast : 2 * n - 3 < x + 2 * y ↔ (x : Int) + 2 * y > 2 * n - 3 := by omega
  have hborder : x + 2 * y = 2 * n - 3 ↔ (x : Int) + 2 * y = 2 * n - 3 := by omega
  have heven : (x + 2 * y) % 2 = 0 ↔ ((x : Int) + 2 * y) % 2 = 0 := by omega
  simp only [modeHU, horizontalUp, hlast, hborder, heven, f2_eq_tap2, f3_eq_tap3, asr, pow_one]
  rw [hleft _ (by omega), hleft _ (by omega), hleft _ (by omega), hleft _ (by omega), hleft _ (by omega)]
  rfl

end

theorem tap2_isPixel {a b : Int} (ha : IsPixel a) (hb : IsPixel b) : IsPixel (tap2 a b) := by
  simp only [IsPixel, tap2] at *
  omega

theorem tap3_isPixel {a b c : Int} (ha : IsPixel a) (hb : IsPixel b) (hc : IsPixel c) : IsPixel (tap3 a b c) := by
  simp only [IsPixel, tap3] at *
  omega

/-- At the end of a row or column the last neighbour stands for the one after it. -/
theorem endTap_isPixel {a b : Int} (ha : IsPixel a) (hb : IsPixel b) : IsPixel ((a + 3 * b + 2) / 4) := by
  simp only [IsPixel] at *
  omega

section
variable {t l : Int → Int} (ht : ∀ i, IsPixel (t i)) (hl : ∀ j, IsPixel (l j)) (n x y : Int)

section
include ht

theorem downLeft_isPixel : IsPixel (downLeft n t x y) := by
  unfold downLeft
  split
  · exact endTap_isPixel (ht _) (ht _)
  · exact tap3_isPixel (ht _) (ht _) (ht _)

theorem verticalLeft_isPixel : IsPixel (verticalLeft t x y) := by
  unfold verticalLeft
  split
  · exact tap2_isPixel (ht _) (ht _)
  · exact tap3_isPixel (ht _) (ht _) (ht _)

end

include hl in
theorem horizontalUp_isPixel : IsPixel (horizontalUp n l x y) := by
  unfold horizontalUp
  split_ifs
  · exact hl _
  · exact endTap_isPixel (hl _) (hl _)
  · exact tap2_isPixel (hl _) (hl _)
  · exact tap3_isPixel (hl _) (hl _) (hl _)

include ht hl

theorem downRight_isPixel : IsPixel (downRight t l x y) := by
  unfold downRight
  split_ifs
  · exact tap3_isPixel (ht _) (ht _) (ht _)
  · exact tap3_isPixel (hl _) (hl _) (hl _)
  · exact tap3_isPixel (ht _) (ht _) (hl _)

theorem verticalRight_isPixel : IsPixel (verticalRight t l x y) := by
  unfold verticalRight
  split_ifs
  · exact tap3_isPixel (hl _) (hl _) (hl _)
  · exact tap3_isPixel (hl _) (ht _) (ht _)
  · exact tap2_isPixel (ht _) (ht _)
  · exact tap3_isPixel (ht _) (ht _) (ht _)

theorem horizontalDown_isPixel : IsPixel (horizontalDown t l x y) := by
  unfold horizontalDown
  split_ifs
  · exact tap3_isPixel (ht _) (ht _) (ht _)
  · exact tap3_isPixel (hl _) (ht _) (ht _)
  · exact tap2_isPixel (hl _) (hl _)
  · exact tap3_isPixel (hl _) (hl _) (hl _)

end

/-- Settles O52: the modes are those of the claim over the neighbours around the block. -/
theorem predictDirectional4 : Obligations.PredictDirectional4 := by
  intro s hm
  have haround := around_matches s
  have ht := topOf_isPixel s
  have hl := leftOf_isPixel s
  exact ⟨
    fun h => fillsBlock_of_around hm h rfl (exec_pred4DDL s) (modeDDL_eq haround 4) fun _ _ => downLeft_isPixel ht _ _ _,
    fun h => fillsBlock_of_around hm h rfl (exec_pred4DDR s) (modeDDR_eq haround) fun _ _ => downRight_isPixel ht hl _ _,
    fun h => fillsBlock_of_around hm h rfl (exec_pred4VR s) (modeVR_eq haround) fun _ _ => verticalRight_isPixel ht hl _ _,
    fun h => fillsBlock_of_around hm h rfl (exec_pred4HD s) (modeHD_eq haround) fun _ _ => horizontalDown_isPixel ht hl _ _,
    fun h => fillsBlock_of_around hm h rfl (exec_pred4VL s) (modeVL_eq haround) fun _ _ => verticalLeft_isPixel ht _ _,
    fun h => fillsBlock_of_around hm h rfl (exec_pred4HU s) (fun x y => modeHU_eq haround x y (by decide)) fun _ _ =>
      horizontalUp_isPixel hl _ _ _⟩

end Sys2Proof.Machine
end

section
/-! The statements of the family 44_intra_8x8_16x16_chroma.md: the directional modes over the edge array, the means of the
chroma quadrants and the plane of the model are those of the claims. -/

namespace Sys2Proof.Machine

/-! ## The meaning of each command, its arm of `exec` -/

theorem exec_pred8DDL (s : State) : exec .pred8DDL s = execPred8DDL s := rfl
theorem exec_pred8DDR (s : State) : exec .pred8DDR s = execPred8DDR s := rfl
theorem exec_pred8VR (s : State) : exec .pred8VR s = execPred8VR s := rfl
theorem exec_pred8HD (s : State) : exec .pred8HD s = execPred8HD s := rfl
theorem exec_pred8VL (s : State) : exec .pred8VL s = execPred8VL s := rfl
theorem exec_pred8HU (s : State) : exec .pred8HU s = execPred8HU s := rfl
theorem exec_predCDC (s : State) : exec .predCDC s = execPredCDC s := rfl
theorem exec_predCDCL (s : State) : exec .predCDCL s = execPredCDCL s := rfl
theorem exec_predCDCT (s : State) : exec .predCDCT s = execPredCDCT s := rfl
theorem exec_pred16P (s : State) : exec .pred16P s = execPred16P s := rfl
theorem exec_predCP (s : State) : exec .predCP s = execPredCP s := rfl

/-! ## The directional modes of the 8×8 class (44_intra_8x8_16x16_chroma.md R225 to R230) -/

/-- Settles O53: the modes are those of the 4×4 class, over the neighbours of the edge array. -/
theorem predictDirectional8 : Obligations.PredictDirectional8 := by
  intro s hm
  have hedge := edgeContext_matches s
  have ht := edgeTop_isPixel s
  have hl := edgeLeft_isPixel s
  exact ⟨
    fun h => fillsBlock_of_edge hm h rfl (exec_pred8DDL s) (modeDDL_eq hedge 8) fun _ _ => downLeft_isPixel ht _ _ _,
    fun h => fillsBlock_of_edge hm h rfl (exec_pred8DDR s) (modeDDR_eq hedge) fun _ _ => downRight_isPixel ht hl _ _,
    fun h => fillsBlock_of_edge hm h rfl (exec_pred8VR s) (modeVR_eq hedge) fun _ _ => verticalRight_isPixel ht hl _ _,
    fun h => fillsBlock_of_edge hm h rfl (exec_pred8HD s) (modeHD_eq hedge) fun _ _ => horizontalDown_isPixel ht hl _ _,
    fun h => fillsBlock_of_edge hm h rfl (exec_pred8VL s) (modeVL_eq hedge) fun _ _ => verticalLeft_isPixel ht _ _,
    fun h => fillsBlock_of_edge hm h rfl (exec_pred8HU s) (fun x y => modeHU_eq hedge x y (by decide)) fun _ _ =>
      horizontalUp_isPixel hl _ _ _⟩

/-! ## The DC modes of the chroma class (44_intra_8x8_16x16_chroma.md R244, R247 to R249) -/

/-- The model asks for the row of the quadrant first, the claim for the top left one. -/
theorem quadrant_eq_byQuadrant (tl tr bl br : Int) (x y : Nat) : quadrant tl tr bl br x y = byQuadrant tl tr bl br x y := by
  unfold quadrant byQuadrant
  by_cases hy : y < 4
  · simp only [hy, if_true, and_true]
  · simp only [hy, if_false, and_false]

theorem byQuadrant_isPixel {tl tr bl br : Int} (htl : IsPixel tl) (htr : IsPixel tr) (hbl : IsPixel bl) (hbr : IsPixel br)
    (x y : Nat) : IsPixel (byQuadrant tl tr bl br x y) := by
  unfold byQuadrant
  split_ifs
  · exact htl
  · exact htr
  · exact hbl
  · exact hbr

section
variable {c : Context} {t l : Int → Int} (h : c.Matches t l) (x y : Nat)
include h

theorem chromaDc_eq : chromaDc c x y =
    byQuadrant ((stretchSum t 0 4 + stretchSum l 0 4 + 4) / 8) ((stretchSum t 4 4 + 2) / 4) ((stretchSum l 4 4 + 2) / 4)
      ((stretchSum t 4 4 + stretchSum l 4 4 + 4) / 8) x y := by
  simp only [chromaDc, quadrant_eq_byQuadrant, sumFrom_top h, sumFrom_left h, asr]
  rfl

theorem chromaDcLeft_eq : chromaDcLeft c x y =
    byQuadrant ((stretchSum l 0 4 + 2) / 4) ((stretchSum l 0 4 + 2) / 4) ((stretchSum l 4 4 + 2) / 4)
      ((stretchSum l 4 4 + 2) / 4) x y := by
  simp only [chromaDcLeft, quadrant_eq_byQuadrant, sumFrom_left h, asr]
  rfl

theorem chromaDcTop_eq : chromaDcTop c x y =
    byQuadrant ((stretchSum t 0 4 + 2) / 4) ((stretchSum t 4 4 + 2) / 4) ((stretchSum t 0 4 + 2) / 4)
      ((stretchSum t 4 4 + 2) / 4) x y := by
  simp only [chromaDcTop, quadrant_eq_byQuadrant, sumFrom_top h, asr]
  rfl

end

/-- Settles O51: each quadrant holds the mean of its own neighbours, a pixel. -/
theorem predictChromaDcModes : Obligations.PredictChromaDcModes := by
  intro s hm
  have haround := around_matches s
  have top (a : Nat) : IsPixel ((stretchSum s.topOf a 4 + 2) / 4) :=
    stretchMean_isPixel (topOf_isPixel s) rfl (by decide)
  have left (a : Nat) : IsPixel ((stretchSum s.leftOf a 4 + 2) / 4) :=
    stretchMean_isPixel (leftOf_isPixel s) rfl (by decide)
  have both (a : Nat) : IsPixel ((stretchSum s.topOf a 4 + stretchSum s.leftOf a 4 + 4) / 8) :=
    pairMean_isPixel (topOf_isPixel s) (leftOf_isPixel s) rfl (by decide)
  exact ⟨fun h => fillsBlock_of_around hm h rfl (exec_predCDC s) (chromaDc_eq haround)
      (byQuadrant_isPixel (both 0) (top 4) (left 4) (both 4)),
    fun h => fillsBlock_of_around hm h rfl (exec_predCDCL s) (chromaDcLeft_eq haround)
      (byQuadrant_isPixel (left 0) (left 0) (left 4) (left 4)),
    fun h => fillsBlock_of_around hm h rfl (exec_predCDCT s) (chromaDcTop_eq haround)
      (byQuadrant_isPixel (top 0) (top 4) (top 0) (top 4))⟩

/-! ## Planar prediction (44_intra_8x8_16x16_chroma.md R235, R242, R251) -/

/-- The gradient as the model sums it is the claim's: the two number the neighbours of a term from different ends. -/
theorem sumTo_eq_gradientOf (n : Nat) (f : Int → Int) :
    sumTo n (fun i => ((i : Int) + 1) * (f (n + i) - f (n - 2 - i))) = gradientOf n f := by
  refine (sumTo_eq_sum _ _).trans (Finset.sum_congr rfl fun i _ => ?_)
  rw [show (n : Int) - 1 + (i + 1) = n + i by omega, show (n : Int) - 1 - (i + 1) = n - 2 - i by omega]

/-- A gradient reaches down to the corner, index -1, and no further. -/
theorem gradientOf_congr {n : Nat} {f g : Int → Int} (hfg : ∀ j, -1 ≤ j → f j = g j) : gradientOf n f = gradientOf n g := by
  refine Finset.sum_congr rfl fun i hi => ?_
  have hin : i < n := Finset.mem_range.1 hi
  rw [hfg _ (by omega), hfg _ (by omega)]

theorem planar_eq {c : Context} {t l : Int → Int} (h : c.Matches t l) (n : Nat) (slope : Int → Int) (x y : Nat) :
    planar n slope c x y = planarPixel n t l (slope (gradientOf n t)) (slope (gradientOf n l)) x y := by
  obtain ⟨rfl, hleft⟩ := h
  simp only [planar, planarPixel, sumTo_eq_gradientOf, gradientOf_congr hleft, hleft (2 * n - 1) (by omega),
    clip8_eq_clipped, asr]
  rfl

/-- Settles O54: the plane of each class has the slopes of its own formula, and its values are clipped to pixels. -/
theorem predictPlanar : Obligations.PredictPlanar := by
  intro s hm
  have haround := around_matches s
  exact ⟨fun h => fillsBlock_of_around hm h rfl (exec_pred16P s) (planar_eq haround 8 _) fun _ _ => clipped_bounds _,
    fun h => fillsBlock_of_around hm h rfl (exec_predCP s) (planar_eq haround 4 _) fun _ _ => clipped_bounds _⟩

end Sys2Proof.Machine
end

section
/-! The statements of the family 45_motion_comp.md: an accepted motion-compensation command fills the block with the pixels
of its formula, and with a zero vector `MCLUMA` and `COPY` have one acceptance and one outcome. -/

namespace Sys2Proof.Machine

/-! ## The meaning of each command, its arm of `exec` -/

theorem exec_mcluma (wc hc : SizeCode) (s : State) : exec (.mcluma wc hc) s = execMcluma wc hc s := rfl
theorem exec_mcchroma (wc hc : SizeCode) (s : State) : exec (.mcchroma wc hc) s = execMcchroma wc hc s := rfl
theorem exec_copy (wc hc : SizeCode) (s : State) : exec (.copy wc hc) s = execCopy wc hc s := rfl
theorem exec_avg (wc hc : SizeCode) (s : State) : exec (.avg wc hc) s = execAvg wc hc s := rfl
theorem exec_hpelh (wc hc : SizeCode) (s : State) : exec (.hpelh wc hc) s = execHpelh wc hc s := rfl
theorem exec_hpelv (wc hc : SizeCode) (s : State) : exec (.hpelv wc hc) s = execHpelv wc hc s := rfl
theorem exec_hpelc (wc hc : SizeCode) (s : State) : exec (.hpelc wc hc) s = execHpelc wc hc s := rfl

/-! ## What an accepted command fills (45_motion_comp.md R270) -/

section
variable {i : Instr} {wc hc : SizeCode} {checks : List Check} {reads : State → List Run} {pixel : State → Nat → Nat → Int}
  {s : State} {value : Nat → Nat → Int} (hacc : Accepts i s) (hkind : isControl i = false)
  (hexec : exec i s = fill i wc hc checks reads pixel s) (hpixel : ∀ x y, pixel s x y = value x y)
include hacc hkind hexec hpixel

/-- The stride check of every such command begins with the destination's. -/
theorem fillsBlock_of_fill {rs : List (Fin 16)} (hm : s.mem.wf) (hstrides : strides i s = (1 :: rs, (wc.pixels : Int)))
    (hvalue : ∀ x y, IsPixel (value x y)) : FillsBlock i s wc.pixels hc.pixels value := by
  obtain rfl : pixel s = value := funext fun x => funext (hpixel x)
  have hstride := stride_of_accepts hacc
  rw [hstrides] at hstride
  exact fillsBlock_of_rows hm hacc hkind hexec (hstride 1 List.mem_cons_self) rfl rfl rfl fun x _ y _ => hvalue x y

/-- The outcome depends on the values of the pixels and on the destination block alone. -/
theorem exec_of_fill : exec i s = .next (s.commit (s.blockDst.rows 0 0 wc.pixels hc.pixels)
    { bytes := raster wc.pixels hc.pixels fun x y => pixelByte (value x y) }).advance := by
  obtain rfl : pixel s = value := funext fun x => funext (hpixel x)
  exact exec_of_accepts hacc hkind hexec

end

/-! ## Copy and average (45_motion_comp.md R278, R279) -/

theorem sample_isPixel (s : State) (base stride : Fin 16) (x y : Int) : IsPixel (s.sample base stride x y) :=
  byteAt_bounds _ _

theorem pix_blockA (s : State) (x y : Int) : s.pix s.blockA x y = s.sampleA x y := pix_block s 2 3 x y

theorem pix_blockB (s : State) (x y : Int) : s.pix s.blockB x y = s.sampleB x y := pix_block s 4 5 x y

/-- Settles O57: both take their pixels from the state before the command, and a mean of two pixels is one. -/
theorem copyAndAverage : Obligations.CopyAndAverage := by
  intro wc hc s hm
  refine ⟨fun h => fillsBlock_of_fill h rfl (exec_copy wc hc s) (fun x y => pix_blockB s x y) hm rfl
      fun x y => sample_isPixel s 4 5 x y,
    fun h => fillsBlock_of_fill h rfl (exec_avg wc hc s) (fun x y => ?_) hm rfl
      fun x y => tap2_isPixel (sample_isPixel s 2 3 x y) (sample_isPixel s 4 5 x y)⟩
  rw [pix_blockA, pix_blockB]
  rfl

/-! ## Luma (45_motion_comp.md R271, R272) -/

theorem pix_lumaSrc1 (s : State) (x y : Int) :
    s.pix s.lumaSrc1 x y = byteAt s.mem (s.firstBase + y * s.signedReg 5 + x) := by
  rw [pix_eq, lumaSrc1_eq, Block.at]

theorem pix_lumaSrc2 (s : State) (x y : Int) :
    s.pix s.lumaSrc2 x y = byteAt s.mem (s.secondBase + y * s.signedReg 5 + x) := by
  rw [pix_eq, lumaSrc2_eq, Block.at]

/-- Settles O55: the phase chooses between the first source and the mean of the two. -/
theorem mclumaInterpolates : Obligations.MclumaInterpolates := by
  intro wc hc s hm h
  refine fillsBlock_of_fill h rfl (exec_mcluma wc hc s) (fun x y => ?_) hm rfl fun x y => ?_
  · simp only [usesSecond_eq, pix_lumaSrc1, pix_lumaSrc2]
    rfl
  · split_ifs
    · exact tap2_isPixel (byteAt_bounds _ _) (byteAt_bounds _ _)
    · exact byteAt_bounds _ _

/-! ## Chroma (45_motion_comp.md R275, R276) -/

/-- Two values up to `c`, weighted in eighths. -/
theorem weighted_bounds {d a b c : Int} (hd : 0 ≤ d ∧ d ≤ 8) (ha : 0 ≤ a ∧ a ≤ c) (hb : 0 ≤ b ∧ b ≤ c) :
    0 ≤ (8 - d) * a + d * b ∧ (8 - d) * a + d * b ≤ 8 * c := by
  obtain ⟨hd0, hd8⟩ := hd
  constructor
  · exact add_nonneg (mul_nonneg (by omega) ha.1) (mul_nonneg hd0 hb.1)
  · calc (8 - d) * a + d * b ≤ (8 - d) * c + d * c :=
          add_le_add (mul_le_mul_of_nonneg_left ha.2 (by omega)) (mul_le_mul_of_nonneg_left hb.2 hd0)
      _ = 8 * c := by ring

/-- The weighting of four samples, row by row. -/
theorem bilinear_eq_rows (dx dy a b c d : Int) :
    (8 - dx) * (8 - dy) * a + dx * (8 - dy) * b + (8 - dx) * dy * c + dx * dy * d =
      (8 - dy) * ((8 - dx) * a + dx * b) + dy * ((8 - dx) * c + dx * d) := by
  ring

theorem fractionOf_eight_bounds (v : Int) : 0 ≤ fractionOf v 8 ∧ fractionOf v 8 ≤ 8 := by
  unfold fractionOf
  omega

/-- The rows are weighted first, then the two weighted rows; the weights add up to 64. -/
theorem chromaPixel_isPixel (s : State) (x y : Int) : IsPixel (chromaPixel s x y) := by
  have hdx := fractionOf_eight_bounds (s.signedReg 9)
  have hdy := fractionOf_eight_bounds (s.signedReg 10)
  have hsum := weighted_bounds hdy
    (weighted_bounds hdx (byteAt_bounds s.mem (s.chromaBase + y * s.signedReg 5 + x))
      (byteAt_bounds s.mem (s.chromaBase + y * s.signedReg 5 + (x + 1))))
    (weighted_bounds hdx (byteAt_bounds s.mem (s.chromaBase + (y + 1) * s.signedReg 5 + x))
      (byteAt_bounds s.mem (s.chromaBase + (y + 1) * s.signedReg 5 + (x + 1))))
  simp only [IsPixel, chromaPixel, bilinear_eq_rows]
  omega

theorem chromaValue_eq (s : State) (x y : Nat) : s.chromaValue x y = chromaPixel s x y := by
  have hdx : (fraction (s.sval P0) 8 : Int) = fractionOf (s.signedReg 9) 8 := fraction_eq _ (by decide)
  have hdy : (fraction (s.sval P1) 8 : Int) = fractionOf (s.signedReg 10) 8 := fraction_eq _ (by decide)
  simp only [State.chromaValue, hdx, hdy, pix_eq, chromaSrc_eq]
  rfl

/-- Settles O56: the model's weighting is the claim's. -/
theorem mcchromaInterpolates : Obligations.McchromaInterpolates := fun wc hc s hm h =>
  fillsBlock_of_fill h rfl (exec_mcchroma wc hc s) (chromaValue_eq s) hm rfl fun x y => chromaPixel_isPixel s x y

/-! ## Half-pel filters (45_motion_comp.md R280 to R283) -/

theorem tap6_eq_sum (p : Int → Int) : tap6 p = ∑ k ∈ Finset.range 6, taps.getD k 0 * p k := by
  simp [tap6, taps, Finset.sum_range_succ]
  ring

section
variable (s : State) (x y : Int)

theorem tapH_eq_filterH : s.tapH x y = filterH s x y := by
  simp only [State.tapH, tap6_eq_sum, pix_blockB, filterH]

theorem tapV_eq_filterV : s.tapV x y = filterV s x y := by
  simp only [State.tapV, tap6_eq_sum, pix_blockB, filterV]

/-- The horizontal filter of the vertical one is the filter in two dimensions. -/
theorem tap6_tapV_eq_filterC : tap6 (fun k => s.tapV (x - 2 + k) y) = filterC s x y := by
  simp only [tap6_eq_sum, tapV_eq_filterV, filterV, filterC, Finset.mul_sum]
  rw [Finset.sum_comm]
  refine Finset.sum_congr rfl fun j _ => Finset.sum_congr rfl fun k _ => ?_
  ring

end

/-- Settles O58: the filters of the model are the sums of the claim, rounded by the same shifts and clipped to pixels. -/
theorem halfPelFilters : Obligations.HalfPelFilters := by
  intro wc hc s hm
  refine ⟨fun h => fillsBlock_of_fill h rfl (exec_hpelh wc hc s) (fun x y => ?_) hm rfl fun _ _ => clipped_bounds _,
    fun h => fillsBlock_of_fill h rfl (exec_hpelv wc hc s) (fun x y => ?_) hm rfl fun _ _ => clipped_bounds _,
    fun h => fillsBlock_of_fill h rfl (exec_hpelc wc hc s) (fun x y => ?_) hm rfl fun _ _ => clipped_bounds _⟩
  · rw [clip8_eq_clipped, tapH_eq_filterH]
    rfl
  · rw [clip8_eq_clipped, tapV_eq_filterV]
    rfl
  · rw [clip8_eq_clipped, tap6_tapV_eq_filterC]
    rfl

/-! ## The zero vector (45_motion_comp.md R274) -/

theorem hpelRef0_zero_of_wf {c : Config} (hwf : c.wf = true) : tableEntry c.hpelRef0 0 = 0 := by
  simp only [Config.wf, Bool.and_eq_true, decide_eq_true_eq] at hwf
  obtain ⟨⟨-, hentry⟩, -⟩ := hwf
  simp [tableEntry, List.getD, hentry]

section
variable {s : State} (hP0 : s.signedReg 9 = 0) (hP1 : s.signedReg 10 = 0)
include hP0 hP1

theorem lumaPhase_of_zero : s.lumaPhase = 0 := by simp [State.lumaPhase, fractionOf, hP0, hP1]

theorem usesSecond_of_zero : s.usesSecond = false := by simp [State.usesSecond, fractionOf, hP0, hP1]

variable (hwf : s.cfg.wf = true)
include hwf

theorem firstPlane_of_zero : s.firstPlane = 4 := by
  rw [State.firstPlane, lumaPhase_of_zero hP0 hP1, hpelRef0_zero_of_wf hwf]
  rfl

theorem firstBase_of_zero : s.firstBase = s.unsignedReg 4 := by
  simp [State.firstBase, fractionOf, firstPlane_of_zero hP0 hP1 hwf, hP0, hP1]

variable (wc hc : SizeCode)

theorem bases_mcluma_of_zero : bases (.mcluma wc hc) s = bases (.copy wc hc) s := by
  simp [bases, firstPlane_of_zero hP0 hP1 hwf, usesSecond_of_zero hP0 hP1]

theorem reads_mcluma_of_zero : reads (.mcluma wc hc) s = reads (.copy wc hc) s := by
  simp [reads, firstBase_of_zero hP0 hP1 hwf, usesSecond_of_zero hP0 hP1, State.area]

/-- The tables of checks and sets of the two commands agree. -/
theorem accepts_mcluma_iff_copy : Accepts (.mcluma wc hc) s ↔ Accepts (.copy wc hc) s := by
  simp only [Accepts, PassesAlignment, PassesStrides, PassesNulls, bases_mcluma_of_zero hP0 hP1 hwf,
    reads_mcluma_of_zero hP0 hP1 hwf]
  rfl

theorem lumaPixel_of_zero (x y : Int) :
    (if s.lumaTwo then asr (s.pix s.lumaSrc1 x y + s.pix s.lumaSrc2 x y + 1) 1 else s.pix s.lumaSrc1 x y)
      = s.pix s.blockB x y := by
  rw [usesSecond_eq, usesSecond_of_zero hP0 hP1, lumaSrc1_eq, firstBase_of_zero hP0 hP1 hwf]
  rfl

end

/-- Settles O59: the two commands pass the same checks and write the same pixels to the same block. -/
theorem zeroVectorIsCopy : Obligations.ZeroVectorIsCopy := by
  intro wc hc s hwf hP0 hP1
  have haccepts := accepts_mcluma_iff_copy hP0 hP1 hwf wc hc
  refine ⟨haccepts, fun hcopy => ?_⟩
  exact (exec_of_fill (haccepts.2 hcopy) rfl (exec_mcluma wc hc s) fun x y => lumaPixel_of_zero hP0 hP1 hwf x y).trans
    (exec_of_fill hcopy rfl (exec_copy wc hc s) fun _ _ => rfl).symm

end Sys2Proof.Machine
end

section
/-! The statements of the family 46_control_dispatch.md: the control commands, and the step of the engine that does not depend
on `CAP`. -/

namespace Sys2Proof.Machine

/-! ## The control commands (46_control_dispatch.md R300, R301) -/

theorem exec_endList (s : State) : exec .endList s = .next { s with st := .halted } := rfl
theorem exec_ldi (r : Fin 16) (imm : Word) (s : State) : exec (.ldi r imm) s = .next (s.setG r imm).advance := rfl

/-- Settles O29: the meaning of `END` is this state. -/
theorem endHalts : Obligations.EndHalts := exec_endList

/-- Settles O30: `LDI` is the write of its register and the advance of `CP`. -/
theorem ldiLoadsRegister : Obligations.LdiLoadsRegister := by
  intro r imm s
  refine ⟨_, exec_ldi r imm s, ?_, fun k hk => ?_, rfl⟩
  · simp
  · have hne : (r : Nat) ≠ k := fun e => hk (Fin.ext e.symm)
    simp [hne]

/-! ## The write of a result register (46_control_dispatch.md R302, 20_memory.md R50) -/

/-- The four bytes of a number, lowest first (20_memory.md R50). -/
theorem leBytes_four (v : Int) :
    leBytes 4 v = [BitVec.ofInt 8 v, BitVec.ofInt 8 (asr v 8), BitVec.ofInt 8 (asr v 16), BitVec.ofInt 8 (asr v 24)] := by
  simp [leBytes, asr, List.range_succ_eq_map]

/-- Four bytes little-endian are the number modulo 2^32. -/
theorem fourBytes_value (v : Int) :
    ((BitVec.ofInt 8 v).toNat + 256 * (BitVec.ofInt 8 (asr v 8)).toNat
      + 65536 * ((BitVec.ofInt 8 (asr v 16)).toNat + 256 * (BitVec.ofInt 8 (asr v 24)).toNat) : Int) = v % 2 ^ 32 := by
  simp only [asr, BitVec.toNat_ofInt]
  omega

/-- Memory that holds the four bytes of a word holds the word. -/
theorem u32At_of_leBytes {m : Memory} {a : Nat} {w : Word}
    (h : ∀ (j : Nat) (v : Byte), (leBytes 4 w.toNat)[j]? = some v → m.read (a + j) = v) : u32At m a = w.toNat := by
  rw [leBytes_four] at h
  have h0 : m.read a = _ := h 0 _ rfl
  have h1 : m.read (a + 1) = _ := h 1 _ rfl
  have h2 : m.read (a + 2) = _ := h 2 _ rfl
  have h3 : m.read (a + 2 + 1) = _ := h 3 _ rfl
  have hbytes := fourBytes_value w.toNat
  rw [← h0, ← h1, ← h2, ← h3] at hbytes
  have hw := w.isLt
  show ((m.read a).toNat + 256 * (m.read (a + 1)).toNat
    + 65536 * ((m.read (a + 2)).toNat + 256 * (m.read (a + 2 + 1)).toNat) : Int) = w.toNat
  omega

/-- `STQ` with an aligned address in memory is its write phase (46_control_dispatch.md R302). -/
theorem exec_stq_completes (r : Fin 4) {imm : Word} {s : State} (halign : imm.toNat % 4 = 0)
    (hin : imm.toNat + 4 ≤ s.cfg.memSize) :
    exec (.stq r imm) s = .next (s.commit [⟨imm.toNat, 4⟩] { bytes := leBytes 4 s.q[r].toNat }).advance := by
  refine command_completes (foot := storeFootprint imm) (effect := fun s => { bytes := leBytes 4 s.q[r].toNat })
    (fun c hc => ?_) (accessCheck_eq_none.2 ⟨fun a ha => ?_, fun a ha => ?_⟩)
  · obtain rfl := List.mem_singleton.1 hc
    exact storeAlignment_eq_none.2 halign
  · exact absurd ha List.not_mem_nil
  · have hrun := has_stretch.1 (mem_run.1 ha)
    show 0 ≤ a ∧ a < (s.cfg.memSize : Int)
    omega

/-- Settles O31: the write phase of `STQ` is one run of four bytes. -/
theorem stqStoresResultRegister : Obligations.StqStoresResultRegister := by
  intro r imm s hm halign hin
  have hlength := leBytes_length 4 (s.q[r].toNat : Int)
  obtain ⟨hstored, hkept⟩ := read_run hm (r := ⟨imm.toNat, 4⟩) (Int.natCast_nonneg _) hlength.le
  refine ⟨_, (exec_stq_completes r halign hin).trans rfl, u32At_of_leBytes hstored, fun a ha => hkept a ?_⟩
  rw [hlength]
  show (a : Int) < imm.toNat ∨ (imm.toNat : Int) + 4 ≤ a
  omega

/-! ## What does not depend on `CAP` (46_control_dispatch.md R305) -/

/-- The state with another value of `CAP`. -/
def State.withCap (s : State) (c : Word) : State := { s with cap := c }

theorem State.withCap_seen (s : State) (c : Word) : (s.withCap c).seen = s.seen.withCap c := rfl
theorem State.withCap_popMove (s : State) (c : Word) : (s.withCap c).popMove = s.popMove.withCap c := rfl

/-- An outcome but for the `CAP` of its state. -/
def forgetCap : Out → Out
  | .next t => .next (t.withCap 0)
  | .fault f => .fault f
  | .refused r => .refused r

theorem forgetCap_ite {p : Prop} [Decidable p] {a b a' b' : Out} (ha : forgetCap a' = forgetCap a)
    (hb : forgetCap b' = forgetCap b) : forgetCap (if p then a' else b') = forgetCap (if p then a else b) := by
  split <;> assumption

theorem forgetCap_next_eq {o : Out} {t : State} (h : forgetCap o = forgetCap (.next t)) :
    ∃ t', o = .next t' ∧ t'.withCap 0 = t.withCap 0 := by
  cases o with
  | next t' => exact ⟨t', rfl, by injection h⟩
  | fault f => cases h
  | refused r => cases h

/-- A command whose checks, sets and effect do not read `CAP` has one outcome but for `CAP`. -/
theorem forgetCap_command {checks : List Check} {foot : State → Footprint} {effect : State → Effect} {s : State} {c : Word}
    (hchecks : firstFailure (checks ++ [accessCheck foot]) (s.withCap c) = firstFailure (checks ++ [accessCheck foot]) s)
    (hwrites : (foot (s.withCap c)).writes = (foot s).writes) (heffect : effect (s.withCap c) = effect s) :
    forgetCap (command checks foot effect (s.withCap c)) = forgetCap (command checks foot effect s) := by
  unfold command
  rw [hchecks, hwrites, heffect]
  split <;> rfl

theorem nullCheck_withCap (rs : List (Fin 16)) (s : State) (c : Word) : nullCheck rs (s.withCap c) = nullCheck rs s := by
  induction rs with
  | nil => rfl
  | cons r rs ih =>
    unfold nullCheck
    rw [ih]
    rfl

/-- An operation command whose checks, sets and effect do not read `CAP`. -/
theorem forgetCap_operation {i : Instr} {checks : List Check} {foot : State → Footprint} {effect : State → Effect}
    {s : State} {c : Word} (hchecks : firstFailure checks (s.withCap c) = firstFailure checks s)
    (hfoot : foot (s.withCap c) = foot s) (heffect : effect (s.withCap c) = effect s) :
    forgetCap (operation i checks foot effect (s.withCap c)) = forgetCap (operation i checks foot effect s) := by
  have hinit : notInitialized i (s.withCap c) = notInitialized i s := rfl
  have haccess : accessCheck foot (s.withCap c) = accessCheck foot s := by
    unfold accessCheck
    rw [hfoot]
    rfl
  refine forgetCap_command ?_ (congrArg Footprint.writes hfoot) heffect
  simp only [firstFailure_append_one, firstFailure, hinit, hchecks, haccess]

/-! ## The shapes of the operation commands -/

section
variable {i : Instr} {s : State} {c : Word}

theorem forgetCap_metric {set : SizeSet} {wc hc : SizeCode} {value : State → Nat → Nat → Int}
    (hvalue : value (s.withCap c) = value s) :
    forgetCap (metric i set wc hc value (s.withCap c)) = forgetCap (metric i set wc hc value s) :=
  forgetCap_operation rfl rfl (by rw [hvalue])

theorem forgetCap_batchedSad {bases : List (Fin 16)} {wc hc : SizeCode} :
    forgetCap (batchedSad i bases wc hc (s.withCap c)) = forgetCap (batchedSad i bases wc hc s) :=
  forgetCap_operation (by simp only [firstFailure, nullCheck_withCap]; rfl) rfl rfl

theorem forgetCap_ads {off : State → List Int} (hoff : off (s.withCap c) = off s) :
    forgetCap (ads i off (s.withCap c)) = forgetCap (ads i off s) :=
  forgetCap_operation rfl (by rw [hoff]; rfl) (by rw [hoff]; rfl)

theorem forgetCap_quantTable {n : Nat} : forgetCap (quantTable i n (s.withCap c)) = forgetCap (quantTable i n s) :=
  forgetCap_operation rfl rfl rfl

theorem forgetCap_quantScalar {n : Nat} : forgetCap (quantScalar i n (s.withCap c)) = forgetCap (quantScalar i n s) :=
  forgetCap_operation rfl rfl rfl

theorem forgetCap_predict {n : Nat} {nulls : List (Fin 16)} {reads : State → List Run} {value : State → Nat → Nat → Int}
    (hreads : reads (s.withCap c) = reads s) (hvalue : value (s.withCap c) = value s) :
    forgetCap (predict i n nulls reads value (s.withCap c)) = forgetCap (predict i n nulls reads value s) :=
  forgetCap_operation (by simp only [firstFailure, nullCheck_withCap]; rfl) (by rw [hreads]; rfl) (by rw [hvalue])

theorem forgetCap_predictAround {n : Nat} {reads : State → List Run} {mode : Context → Nat → Nat → Int}
    (hreads : reads (s.withCap c) = reads s) :
    forgetCap (predictAround i n reads mode (s.withCap c)) = forgetCap (predictAround i n reads mode s) :=
  forgetCap_predict hreads rfl

theorem forgetCap_predictEdge {mode : Context → Nat → Nat → Int} :
    forgetCap (predictEdge i mode (s.withCap c)) = forgetCap (predictEdge i mode s) :=
  forgetCap_predict rfl rfl

theorem forgetCap_predict128 {n : Nat} : forgetCap (predict128 i n (s.withCap c)) = forgetCap (predict128 i n s) :=
  forgetCap_predict rfl rfl

theorem forgetCap_fill {wc hc : SizeCode} {checks : List Check} {reads : State → List Run}
    {value : State → Nat → Nat → Int} (hchecks : firstFailure checks (s.withCap c) = firstFailure checks s)
    (hreads : reads (s.withCap c) = reads s) (hvalue : value (s.withCap c) = value s) :
    forgetCap (fill i wc hc checks reads value (s.withCap c)) = forgetCap (fill i wc hc checks reads value s) :=
  forgetCap_operation (by rw [firstFailure, hchecks]; rfl) (by rw [hreads]; rfl) (by rw [hvalue])

end

/-! ## Every instruction, and the step -/

/-- No instruction reads `CAP`: `INIT` writes it, and in every other one it stands in no check, set or effect. Each
follows from the lemma of its shape; the last case is that of the predictions from the neighbours around the block. -/
theorem forgetCap_exec (i : Instr) (s : State) (c : Word) : forgetCap (exec i (s.withCap c)) = forgetCap (exec i s) := by
  unfold exec
  cases i with
  | endList => rfl
  | ldi r imm => rfl
  | stq r imm => exact forgetCap_command (effect := fun s => { bytes := leBytes 4 s.q[r].toNat }) rfl rfl rfl
  | init imm => exact forgetCap_ite rfl rfl
  | sad wc hc | ssd wc hc | satd wc hc | sa8d wc hc => exact forgetCap_metric (by rfl)
  | sadx3 wc hc | sadx4 wc hc => exact forgetCap_batchedSad
  | ads1 | ads2 | ads4 => exact forgetCap_ads rfl
  | pred8DC128 | pred4DC128 | pred16DC128 | predCDC128 => exact forgetCap_predict128
  | pred8V | pred8H | pred8DC | pred8DDL | pred8DDR | pred8VR | pred8HD | pred8VL | pred8HU | pred8DCL | pred8DCT =>
    exact forgetCap_predictEdge
  | mcluma wc hc =>
    have hnulls : lumaNulls (s.withCap c) = lumaNulls s := nullCheck_withCap _ s c
    exact forgetCap_fill (by simp only [firstFailure, hnulls]; rfl) rfl rfl
  | mcchroma wc hc | copy wc hc | avg wc hc | hpelh wc hc | hpelv wc hc | hpelc wc hc => exact forgetCap_fill rfl rfl rfl
  | quant4 | quant8 => exact forgetCap_quantTable
  | quantdc4 | quantdc2 => exact forgetCap_quantScalar
  | ssdwh | ssim4 | fdct4 wc hc | idct4 wc hc | fdct8 | idct8 | fdc4 | idc4 | fdc2 | idc2 | zigzag4 =>
    exact forgetCap_operation rfl rfl rfl
  | _ => exact forgetCap_predictAround rfl

theorem storedBy_withCap (i : Instr) (s : State) (c : Word) : storedBy i (s.withCap c) = storedBy i s := by
  cases i <;> rfl

theorem forgetCap_afterCommand (s : State) (ws : List Rect) (o : Out) :
    forgetCap (s.afterCommand ws o) = s.afterCommand ws (forgetCap o) := by
  cases o with
  | next t =>
    show Host.Outcome.next (State.withCap (if t.st = .faulted then _ else _) 0) = .next (if t.st = .faulted then _ else _)
    split <;> rfl
  | fault f => rfl
  | refused r => rfl

/-- What follows a command depends on `CAP` neither of the state before nor of the command's own. -/
theorem forgetCap_afterCommand_withCap {s : State} {c : Word} {ws : List Rect} {o o' : Out} (h : forgetCap o' = forgetCap o) :
    forgetCap ((s.withCap c).afterCommand ws o') = forgetCap (s.afterCommand ws o) :=
  calc forgetCap ((s.withCap c).afterCommand ws o')
      = s.afterCommand ws (forgetCap o') := forgetCap_afterCommand (s.withCap c) ws o'
    _ = forgetCap (s.afterCommand ws o) := by rw [h, forgetCap_afterCommand]

theorem forgetCap_fetchAndRun (s : State) (c : Word) : forgetCap (s.withCap c).fetchAndRun = forgetCap s.fetchAndRun := by
  have hfetch : (s.withCap c).seen.mem.fetch (s.withCap c).cp.toNat = s.seen.mem.fetch s.cp.toNat := rfl
  refine forgetCap_ite rfl (forgetCap_ite rfl ?_)
  rw [hfetch]
  cases decode (s.seen.mem.fetch s.cp.toNat) with
  | ok i =>
    simp only [State.withCap_seen, storedBy_withCap]
    exact forgetCap_afterCommand_withCap (forgetCap_exec i s.seen c)
  | error e => exact forgetCap_afterCommand_withCap rfl

theorem forgetCap_engineMove (s : State) (c : Word) : forgetCap (s.withCap c).engineMove = forgetCap s.engineMove :=
  forgetCap_ite rfl (forgetCap_ite (forgetCap_fetchAndRun s c) rfl)

/-- Settles O28: the engine's move on the state with the move taken from the schedule does not depend on `CAP`. -/
theorem capSelectsNothing : Obligations.CapSelectsNothing := by
  intro s t c hmove hstep
  refine forgetCap_next_eq ?_
  calc forgetCap (step (s.withCap c))
      = forgetCap (s.popMove.withCap c).engineMove := by rw [step_of_engine (s := s.withCap c) hmove, State.withCap_popMove]
    _ = forgetCap s.popMove.engineMove := forgetCap_engineMove s.popMove c
    _ = forgetCap (.next t) := by rw [← step_of_engine hmove, hstep]

end Sys2Proof.Machine
end

section
/-! The statements of the family 60_exceptions.md: the check that fails is the one raised, each with its information; a
command completes when all pass; fault entry, and the state that an engine which does not run keeps. -/

namespace Sys2Proof.Machine

/-! ## The first check that fails is the one raised (60_exceptions.md R333) -/

/-- A failing check in front of which every check passes is what a store or operation command raises. -/
theorem exec_raises_of_check {i : Instr} {s : State} {passed rest : List Check} {c : Check} {v : Violation}
    (hkind : isControl i = false) (hpassed : ∀ d ∈ passed, d s = none)
    (hsplit : standardChecks i s = passed ++ c :: rest) (hc : c s = some v) : exec i s = .next (s.raise v) := by
  obtain ⟨f, e, -, -, hexec⟩ := exec_profile i s hkind
  have hfirst : firstFailure (standardChecks i s ++ [accessCheck fun _ => f]) s = some v := by
    rw [hsplit, List.append_assoc, firstFailure_append hpassed]
    exact firstFailure_cons_some hc
  rw [hexec, hfirst]

/-- Past its other checks a store or operation command raises what the access check finds in its sets. -/
theorem exec_raises_of_accessCheck {i : Instr} {s : State} (hkind : isControl i = false) (hpass : PassesAlignment i s) :
    ∃ f : Footprint, (∀ a, a ∈ addresses f.reads ↔ Reaches (reads i s) a) ∧
      (∀ a, a ∈ addresses f.writes ↔ Reaches (writes i s) a) ∧
      ∀ v, accessCheck (fun _ => f) s = some v → exec i s = .next (s.raise v) := by
  obtain ⟨f, e, hsets, -, hexec⟩ := exec_profile i s hkind
  obtain ⟨hreads, hwrites⟩ := hsets hpass.1.1.1.1.2
  refine ⟨f, hreads, hwrites, fun v hv => ?_⟩
  rw [hexec, firstFailure_append_one, (standardChecks_pass hkind).2 hpass]
  simp only [hv]

theorem isControl_of_operation {i : Instr} (h : isOperation i = true) : isControl i = false := by
  cases i with
  | endList | ldi r imm | init imm | stq r imm => cases h
  | _ => rfl

/-- A control command, `STQ` included, names no size and checks no operand register. -/
theorem tables_of_not_operation {i : Instr} (h : ¬isOperation i = true) (s : State) :
    sizeOk i = true ∧ params i s = [] ∧ bases i s = [] ∧ (strides i s).1 = [] ∧ arrays i = [] := by
  cases i with
  | endList | ldi r imm | init imm | stq r imm => exact ⟨rfl, rfl, rfl, rfl, rfl⟩
  | _ => exact absurd rfl h

/-- A control command without checks of its operands reaches no address. -/
theorem sets_of_control {i : Instr} (h : isControl i = true) (s : State) : reads i s = [] ∧ writes i s = [] := by
  cases i with
  | endList | ldi r imm | init imm => exact ⟨rfl, rfl⟩
  | _ => cases h

theorem isControl_of_reaches {i : Instr} {s : State} {a : Int} (h : Reaches (reads i s) a ∨ Reaches (writes i s) a) :
    isControl i = false := by
  refine Bool.eq_false_iff.2 fun hc => ?_
  obtain ⟨hr, hw⟩ := sets_of_control hc s
  simp [hr, hw] at h

/-! ## What each check finds: the lowest-numbered register that fails it (60_exceptions.md R325 to R328) -/

/-- A check that tests the elements of a list in turn raises the violation of the first one that fails. -/
theorem check_eq_find {α : Type} {check : List α → Check} {s : State} {fails : α → Prop} [DecidablePred fails]
    {violation : α → Violation} (hnil : check [] s = none)
    (hcons : ∀ a l, check (a :: l) s = if fails a then some (violation a) else check l s) (l : List α) :
    check l s = (l.find? fun a => fails a).map violation := by
  induction l with
  | nil => exact hnil
  | cons a l ih =>
    rw [hcons]
    by_cases ha : fails a
    · rw [if_pos ha, List.find?_cons_of_pos (by simpa using ha), Option.map_some]
    · rw [if_neg ha, List.find?_cons_of_neg (by simpa using ha), ih]

theorem paramsCheck_eq_find (ps : List (Fin 16 × Bool)) (s : State) :
    paramsCheck ps s = (ps.find? fun p => p.2 = false).map fun p => ⟨.badParam, regInfo p.1⟩ :=
  check_eq_find rfl (fun ⟨_, ok⟩ _ => by cases ok <;> rfl) ps

theorem nullCheck_eq_find (rs : List (Fin 16)) (s : State) :
    nullCheck rs s = (rs.find? fun r => s.g[r] = 0).map fun r => ⟨.nullBuffer, regInfo r⟩ :=
  check_eq_find rfl (fun _ _ => rfl) rs

theorem strideCheck_eq_find (w : Int) (rs : List (Fin 16)) (s : State) :
    strideCheck w rs s = (rs.find? fun r => s.signedReg r < w).map fun r => ⟨.badStride, regInfo r⟩ :=
  check_eq_find (check := strideCheck w) rfl (fun _ _ => rfl) rs

theorem alignCheck_eq_find (cs : List (Fin 16 × Nat)) (s : State) :
    alignCheck cs s = (cs.find? fun c => s.g[c.1].toNat % c.2 ≠ 0).map fun c => ⟨.misaligned, s.g[c.1]⟩ :=
  check_eq_find rfl (fun _ _ => rfl) cs

/-- In a list in ascending register number the first element that fails a test is the lowest-numbered one. -/
theorem find?_of_lowest {α : Type} {number : α → Fin 16} {l : List α} {fails : α → Bool} {a : α}
    (hsorted : l.Pairwise fun b c => number b < number c) (ha : a ∈ l) (hfails : fails a = true)
    (hlowest : ∀ b ∈ l, number b < number a → fails b = false) : l.find? fails = some a := by
  obtain ⟨before, after, rfl⟩ := List.append_of_mem ha
  obtain ⟨-, -, hbefore⟩ := List.pairwise_append.1 hsorted
  refine List.find?_eq_some_iff_append.2 ⟨hfails, before, after, rfl, fun b hb => ?_⟩
  simp [hlowest b (List.mem_append_left _ hb) (hbefore b hb a List.mem_cons_self)]

/-! ## The tables name registers in ascending number (60_exceptions.md R325 to R328) -/

theorem params_sorted (i : Instr) (s : State) : (params i s).Pairwise fun p q => p.1 < q.1 := by
  unfold params
  split <;> simp

/-- `MCLUMA` tests the planes that it uses, in the order of all planes; every other row is a list of register numbers. -/
theorem bases_sorted (i : Instr) (s : State) : (bases i s).Pairwise (· < ·) := by
  cases i with
  | mcluma wc hc =>
    have hplanes : ([0, 4, 6, 7, 8] : List (Fin 16)).Pairwise (· < ·) := by decide
    exact hplanes.sublist (List.filter_sublist.cons_cons 0)
  | _ => exact of_decide_eq_true rfl

theorem strides_sorted (i : Instr) (s : State) : (strides i s).1.Pairwise (· < ·) := by
  cases i <;> exact of_decide_eq_true rfl

theorem arrays_sorted (i : Instr) : (arrays i).Pairwise fun c d => c.1 < d.1 := by
  unfold arrays
  split <;> decide

/-! ## The checks passed before the next one (60_exceptions.md R333) -/

section
variable {i : Instr} {s : State} (ho : isOperation i = true)
include ho

theorem checks_of_passesSize (h : PassesSize i s) : ∀ c ∈ [notInitialized i, namedSizeCheck i], c s = none := by
  have hinit : s.inited = true := (dispatchOk_operation ho s).symm.trans h.1
  simp [notInitialized_eq_none, hinit, namedSizeCheck_eq_none, h.2]

theorem checks_of_passesParams (h : PassesParams i s) :
    ∀ c ∈ [notInitialized i, namedSizeCheck i, paramsCheck (params i s)], c s = none := by
  simpa [paramsCheck_eq_none.2 h.2] using checks_of_passesSize ho h.1

theorem checks_of_passesNulls (h : PassesNulls i s) :
    ∀ c ∈ [notInitialized i, namedSizeCheck i, paramsCheck (params i s), nullCheck (bases i s)], c s = none := by
  simpa [nullCheck_eq_none.2 h.2] using checks_of_passesParams ho h.1

theorem checks_of_passesStrides (h : PassesStrides i s) :
    ∀ c ∈ [notInitialized i, namedSizeCheck i, paramsCheck (params i s), nullCheck (bases i s),
      strideCheck (strides i s).2 (strides i s).1], c s = none := by
  simpa [strideCheck_eq_none.2 h.2] using checks_of_passesNulls ho h.1

end

/-! ## The fault of each check of an operation command (60_exceptions.md R324 to R328) -/

/-- `W0[15:12]` is the height code and the width code (30_encoding.md R81). -/
theorem sizeField_w0Of {i : Instr} {set : SizeSet} {wc hc : SizeCode} (h : i.size? = some (set, wc, hc)) :
    (w0Of i).extractLsb' 12 4 = hc.bits ++ wc.bits := by
  obtain ⟨op, hw⟩ : ∃ op, w0Of i = packW0 op 0 wc.bits hc.bits 0 0 := by cases i <;> cases h <;> exact ⟨_, rfl⟩
  calc (w0Of i).extractLsb' 12 4
      = hcField (w0Of i) ++ wcField (w0Of i) := by
        rw [hcField, wcField, BitVec.extractLsb'_append_extractLsb'_eq_extractLsb' (by decide)]
    _ = hc.bits ++ wc.bits := by rw [hw, hcField_packW0, wcField_packW0]

theorem namedSizeCheck_of_not_sizeOk {i : Instr} (h : sizeOk i = false) (s : State) :
    namedSizeCheck i s = some ⟨.invalidSize, BitVec.ofNat 32 (wordField (w0Of i) 12 4)⟩ := by
  cases hsize : i.size? with
  | none => simp [sizeOk, hsize] at h
  | some named =>
    obtain ⟨set, wc, hc⟩ := named
    have hset : set.has wc hc = false := by simpa only [sizeOk, hsize, sizesOf_contains] using h
    have hinfo : BitVec.ofNat 32 (wordField (w0Of i) 12 4) = (hc.bits ++ wc.bits).setWidth 32 := by
      rw [← toNat_field, sizeField_w0Of hsize, BitVec.ofNat_toNat]
    simp only [namedSizeCheck, hsize, sizeCheck, hset, hinfo]
    rfl

/-- Settles O20: the size check comes after the one of the dispatch state. -/
theorem invalidSizeFault : Obligations.InvalidSizeFault := by
  intro i s hinit hbad
  have ho : isOperation i = true := by_contra fun hno => by simp [tables_of_not_operation hno s] at hbad
  exact exec_raises_of_check (passed := [notInitialized i]) (isControl_of_operation ho)
    (by simpa using notInitialized_eq_none.2 hinit) (standardChecks_operation ho s) (namedSizeCheck_of_not_sizeOk hbad s)

/-- Settles O21: the parameter check finds the first failing register of a list in ascending number. -/
theorem badParamFault : Obligations.BadParamFault := by
  intro i s r hpass hr hlowest
  have ho : isOperation i = true := by_contra fun hno => by simp [tables_of_not_operation hno s] at hr
  refine exec_raises_of_check (v := ⟨_, _⟩) (isControl_of_operation ho) (checks_of_passesSize ho hpass)
    (standardChecks_operation ho s) ?_
  rw [paramsCheck_eq_find, find?_of_lowest (params_sorted i s) hr (by simp) (by simpa using hlowest)]
  rfl

/-- Settles O22: the null check finds the first base register that holds 0. -/
theorem nullBufferFault : Obligations.NullBufferFault := by
  intro i s r hpass hr hnull hlowest
  have ho : isOperation i = true := by_contra fun hno => by simp [tables_of_not_operation hno s] at hr
  refine exec_raises_of_check (v := ⟨_, _⟩) (isControl_of_operation ho) (checks_of_passesParams ho hpass)
    (standardChecks_operation ho s) ?_
  rw [nullCheck_eq_find, find?_of_lowest (number := id) (bases_sorted i s) hr (by simpa using hnull)
    (by simpa using hlowest)]
  rfl

/-- Settles O23: the stride check finds the first stride register below the width. -/
theorem badStrideFault : Obligations.BadStrideFault := by
  intro i s r hpass hr hbelow hlowest
  have ho : isOperation i = true := by_contra fun hno => by simp [tables_of_not_operation hno s] at hr
  refine exec_raises_of_check (v := ⟨_, _⟩) (isControl_of_operation ho) (checks_of_passesNulls ho hpass)
    (standardChecks_operation ho s) ?_
  rw [strideCheck_eq_find, find?_of_lowest (number := id) (strides_sorted i s) hr (by simpa using hbelow)
    (by simpa using hlowest)]
  rfl

/-! ## The faults of the fetch (60_exceptions.md R330) -/

theorem step_of_misaligned {s : State} (hready : s.ready) (hmis : s.cp.toNat % 8 ≠ 0) :
    step s = .next (faulted s.popMove .misaligned s.cp) := by
  rw [step_of_ready hready]
  exact if_pos hmis

theorem step_of_outside {s : State} (hready : s.ready) (halign : s.cp.toNat % 8 = 0)
    (hout : s.cfg.memSize < s.cp.toNat + 8) : step s = .next (faulted s.popMove .access s.cp) := by
  rw [step_of_ready hready]
  exact (if_neg (not_not.2 halign)).trans (if_pos hout)

/-- Settles O6: the two faults come first in the fetch; 0xFFFFFFF8 is the last command of a full memory. -/
theorem fetchFaults : Obligations.FetchFaults := by
  refine ⟨fun s => step_of_misaligned, fun s => step_of_outside, fun s hmem hcp => ?_⟩
  exact ⟨⟨by simp [hcp], by simp [hmem, hcp]⟩, by simp [hcp]⟩

/-- Settles O24: the fetch, the alignment check of an operation command, and the one of `STQ`. -/
theorem misalignedFault : Obligations.MisalignedFault := by
  refine ⟨fun s => step_of_misaligned, fun i s r n hpass hr hmis hlowest => ?_, fun r imm s hmis => ?_⟩
  · have ho : isOperation i = true := by_contra fun hno => by simp [tables_of_not_operation hno s] at hr
    refine exec_raises_of_check (v := ⟨_, _⟩) (isControl_of_operation ho) (checks_of_passesStrides ho hpass)
      (standardChecks_operation ho s) ?_
    rw [alignCheck_eq_find, find?_of_lowest (arrays_sorted i) hr (by simpa using hmis) (by simpa using hlowest)]
    rfl
  · exact exec_raises_of_check (i := .stq r imm) (passed := []) rfl (by simp) rfl (if_pos hmis)

/-! ## The access check (60_exceptions.md R329) -/

theorem lowestBad_of_least {n : Nat} {rs : List Run} {a : Int} (ha : a ∈ addresses rs)
    (hbad : ¬(0 ≤ a ∧ a < (n : Int))) (hleast : ∀ b ∈ addresses rs, ¬(0 ≤ b ∧ b < (n : Int)) → a ≤ b) :
    lowestBad n rs = some a := by
  cases h : lowestBad n rs with
  | none => exact absurd (lowestBad_eq_none.1 h a ha) hbad
  | some b =>
    obtain ⟨hb, hbbad, hbleast⟩ := lowestBad_spec h
    rw [le_antisymm (hbleast a ha hbad) (hleast b hb hbbad)]

/-- Settles O25: the fetch, and the access check over the sets of the tables. -/
theorem accessFault : Obligations.AccessFault := by
  refine ⟨fun s => step_of_outside, fun i s a hpass ha hbad hleast => ?_, fun i s a hpass hin ha hbad hleast => ?_⟩
  · obtain ⟨f, hreads, -, hraise⟩ := exec_raises_of_accessCheck (isControl_of_reaches (.inl ha)) hpass
    have hlow : lowestBad s.cfg.memSize f.reads = some a :=
      lowestBad_of_least ((hreads a).2 ha) hbad fun b hb => hleast b ((hreads b).1 hb)
    exact hraise ⟨.access, BitVec.ofInt 32 a⟩ (by simp only [accessCheck, hlow])
  · obtain ⟨f, hreads, hwrites, hraise⟩ := exec_raises_of_accessCheck (isControl_of_reaches (.inr ha)) hpass
    have hnone : lowestBad s.cfg.memSize f.reads = none :=
      lowestBad_eq_none.2 fun b hb => allInMemory_iff.1 hin b ((hreads b).1 hb)
    have hlow : lowestBad s.cfg.memSize f.writes = some a :=
      lowestBad_of_least ((hwrites a).2 ha) hbad fun b hb => hleast b ((hwrites b).1 hb)
    exact hraise ⟨.access, BitVec.ofInt 32 a⟩ (by simp only [accessCheck, hnone, hlow])

/-- Settles O26: by the outcome of the instruction, which says whether it was accepted. -/
theorem completesExactlyWhenAccepted : Obligations.CompletesExactlyWhenAccepted := by
  intro i s hst
  obtain ⟨t, ht⟩ := exec_answers i s
  cases exec_outcome ht with
  | halted => exact ⟨fun _ => ⟨_, ht, by simp⟩, fun hrej => absurd (accepts_endList s) hrej⟩
  | loaded r imm => exact ⟨fun _ => ⟨_, ht, by simp [hst]⟩, fun hrej => absurd (accepts_ldi r imm s) hrej⟩
  | initialized imm hinit =>
    exact ⟨fun _ => ⟨_, ht, by simp [hst]⟩, fun hrej => absurd ((accepts_init imm s).2 hinit) hrej⟩
  | raised v hrej => exact ⟨fun hacc => absurd hacc hrej, fun _ => ⟨v.cause, v.info, ht⟩⟩
  | completed w e _ hacc => exact ⟨fun _ => ⟨_, ht, by simp [hst]⟩, fun hrej => absurd hacc hrej⟩

/-! ## The causes of each command (60_exceptions.md R332) -/

/-- The row of an operation command holds a cause for each check that has something to test. -/
theorem causesOf_operation {i : Instr} (ho : isOperation i = true) (s : State) :
    .notInitialized ∈ causesOf i ∧ (i.size? ≠ none → .invalidSize ∈ causesOf i) ∧
      (params i s ≠ [] → .badParam ∈ causesOf i) ∧ .nullBuffer ∈ causesOf i ∧
      ((strides i s).1 ≠ [] → .badStride ∈ causesOf i) ∧ (arrays i ≠ [] → .misaligned ∈ causesOf i) ∧
      .access ∈ causesOf i := by
  cases i with
  | endList | ldi r imm | init imm | stq r imm => cases ho
  | _ => exact of_decide_eq_true rfl

theorem notInitialized_cause {i : Instr} {s : State} {v : Violation} (h : notInitialized i s = some v) :
    v.cause = .notInitialized := by
  unfold notInitialized at h
  split at h <;> cases h
  rfl

theorem namedSizeCheck_cause {i : Instr} {s : State} {v : Violation} (h : namedSizeCheck i s = some v) :
    v.cause = .invalidSize ∧ i.size? ≠ none := by
  unfold namedSizeCheck at h
  split at h
  · unfold sizeCheck at h
    split at h <;> cases h
    exact ⟨rfl, by simp [*]⟩
  · cases h

theorem storeAlignment_cause {imm : Word} {s : State} {v : Violation} (h : storeAlignment imm s = some v) :
    v.cause = .misaligned := by
  unfold storeAlignment at h
  split at h <;> cases h
  rfl

theorem accessCheck_cause {foot : State → Footprint} {s : State} {v : Violation} (h : accessCheck foot s = some v) :
    v.cause = .access := by
  unfold accessCheck at h
  split at h
  · cases h; rfl
  · split at h <;> cases h
    rfl

/-- A check that tests the elements of a list finds nothing in the empty one. -/
theorem ne_nil_of_find?_map {α : Type} {l : List α} {fails : α → Bool} {violation : α → Violation} {v : Violation}
    (h : (l.find? fails).map violation = some v) : l ≠ [] ∧ ∃ a, v = violation a := by
  obtain ⟨a, ha, rfl⟩ := Option.map_eq_some_iff.1 h
  exact ⟨List.ne_nil_of_mem (List.mem_of_find?_eq_some ha), a, rfl⟩

/-- What a check of a store or operation command finds has a cause of the command's row. -/
theorem standardChecks_cause {i : Instr} {s : State} {c : Check} {v : Violation} (hkind : isControl i = false)
    (hc : c ∈ standardChecks i s) (hv : c s = some v) : v.cause ∈ causesOf i := by
  by_cases ho : isOperation i = true
  · obtain ⟨hinit, hsize, hparam, hnull, hstride, halign, -⟩ := causesOf_operation ho s
    rw [standardChecks_operation ho] at hc
    simp only [List.mem_cons, List.not_mem_nil, or_false] at hc
    rcases hc with rfl | rfl | rfl | rfl | rfl | rfl
    · rwa [notInitialized_cause hv]
    · obtain ⟨hcause, hnamed⟩ := namedSizeCheck_cause hv
      rw [hcause]
      exact hsize hnamed
    · rw [paramsCheck_eq_find] at hv
      obtain ⟨hne, -, rfl⟩ := ne_nil_of_find?_map hv
      exact hparam hne
    · rw [nullCheck_eq_find] at hv
      obtain ⟨-, -, rfl⟩ := ne_nil_of_find?_map hv
      exact hnull
    · rw [strideCheck_eq_find] at hv
      obtain ⟨hne, -, rfl⟩ := ne_nil_of_find?_map hv
      exact hstride hne
    · rw [alignCheck_eq_find] at hv
      obtain ⟨hne, -, rfl⟩ := ne_nil_of_find?_map hv
      exact halign hne
  · obtain ⟨r, imm, rfl⟩ := stq_of_not_operation hkind ho
    cases List.mem_singleton.1 hc
    rw [storeAlignment_cause hv]
    exact List.mem_cons_self

theorem access_mem_causesOf {i : Instr} (hkind : isControl i = false) (s : State) : .access ∈ causesOf i := by
  by_cases ho : isOperation i = true
  · obtain ⟨-, -, -, -, -, -, haccess⟩ := causesOf_operation ho s
    exact haccess
  · obtain ⟨r, imm, rfl⟩ := stq_of_not_operation hkind ho
    exact List.mem_cons_of_mem _ List.mem_cons_self

/-- A state whose `CP` has moved on is not the fault entry, which leaves `CP` (60_exceptions.md R336). -/
theorem State.ne_raise_of_cp {s t : State} (hcp : t.cp = s.cp + 8) (v : Violation) : t ≠ s.raise v := by
  rintro rfl
  simp at hcp

theorem State.cause_of_raise_eq {s : State} {v w : Violation} (h : s.raise v = s.raise w) : v.cause = w.cause :=
  Option.some.inj (congrArg State.fcause h)

/-- Fault entry by an instruction has a cause of the instruction's row. -/
theorem cause_of_exec_eq_raise {i : Instr} {s : State} {v : Violation} (h : exec i s = .next (s.raise v)) :
    v.cause ∈ causesOf i := by
  by_cases hc : isControl i = true
  · cases i with
    | endList => cases congrArg State.st (Host.Outcome.next.inj h)
    | ldi r imm => exact absurd (Host.Outcome.next.inj h) (State.ne_raise_of_cp rfl v)
    | init imm =>
      simp only [exec, execInit] at h
      split at h
      · rw [← State.cause_of_raise_eq (Host.Outcome.next.inj h)]
        exact List.mem_cons_self
      · exact absurd (Host.Outcome.next.inj h) (State.ne_raise_of_cp rfl v)
    | _ => cases hc
  · have hkind : isControl i = false := by simpa using hc
    obtain ⟨f, e, -, -, hexec⟩ := exec_profile i s hkind
    rw [h] at hexec
    split at hexec
    · rw [State.cause_of_raise_eq (Host.Outcome.next.inj hexec)]
      obtain ⟨c, hmem, hv⟩ := firstFailure_eq_some ‹_›
      rcases List.mem_append.1 hmem with hmem | hmem
      · exact standardChecks_cause hkind hmem hv
      · cases List.mem_singleton.1 hmem
        rw [accessCheck_cause hv]
        exact access_mem_causesOf hkind s
    · exact absurd (Host.Outcome.next.inj hexec).symm (State.ne_raise_of_cp rfl v)

/-- Settles O18: what leaves the engine `FAULTED` is fault entry, with a cause of the row. -/
theorem causesByInstruction : Obligations.CausesByInstruction := by
  intro i s t hs h ht
  obtain ⟨v, rfl⟩ := exec_eq_raise_of_faulted hs h ht
  exact ⟨v.cause, cause_of_exec_eq_raise h, rfl⟩

/-! ## The dispatch state (60_exceptions.md R322, R331) -/

/-- The operation commands are those with an operation code of 0x10 or more (30_encoding.md R92). -/
theorem opcode_operation_iff (i : Instr) : 0x10 ≤ wordField (w0Of i) 0 8 ↔ isOperation i = true := by
  have hop {op : BitVec 8} {r : BitVec 4} {wc hc : BitVec 2} {mode : BitVec 4} {cls : BitVec 2} :
      wordField (packW0 op r wc hc mode cls) 0 8 = op.toNat := by rw [← toNat_opField, opField_packW0]
  cases i with
  | endList | ldi r imm | init imm | stq r imm => exact iff_of_false (hop.trans_lt (by decide)).not_ge Bool.false_ne_true
  | _ => exact iff_of_true (le_of_le_of_eq (by decide) hop.symm) rfl

/-- Settles O19: the check of the dispatch state is the first of every operation command, and its cause stands in no row of
a control command. -/
theorem notInitializedFault : Obligations.NotInitializedFault := by
  refine ⟨fun i s hop hinit => ?_, fun i s info hop h => ?_⟩
  · have ho : isOperation i = true := (opcode_operation_iff i).1 hop
    exact exec_raises_of_check (passed := []) (v := ⟨.notInitialized, w0Of i⟩) (isControl_of_operation ho) (by simp)
      (standardChecks_operation ho s) (by simp [notInitialized, hinit])
  · have hcause : .notInitialized ∈ causesOf i := cause_of_exec_eq_raise (v := ⟨.notInitialized, info⟩) h
    have hno : ¬isOperation i = true := fun ho => Nat.not_lt.2 ((opcode_operation_iff i).2 ho) hop
    cases i with
    | endList | ldi r imm | init imm | stq r imm => exact absurd hcause (of_decide_eq_false rfl)
    | _ => exact hno rfl

theorem exec_init_initializes {imm : Word} {s : State} (h : s.inited = false) :
    exec (.init imm) s = .next { s with cap := imm, inited := true }.advance :=
  if_neg (by simp [h])

theorem exec_init_raises {imm : Word} {s : State} (h : s.inited = true) :
    exec (.init imm) s = .next (s.raise ⟨.reinit, w0Of (.init imm)⟩) := if_pos h

/-- Settles O32: the two cases of `INIT`, whose control word names no register. -/
theorem initInitializes : Obligations.InitInitializes :=
  fun _ _ => ⟨exec_init_initializes, exec_init_raises⟩

/-! ## Fault entry, and the state a stopped engine keeps (60_exceptions.md R336, R337, R344) -/

/-- No operation of the host but `RESET` changes the fault registers or leaves `FAULTED`. -/
theorem hostMove_keeps_fault {op : HostOp} {s t : State} (hs : s.st = .faulted) (hreset : op ≠ .reset)
    (h : hostMove op s = .next t) : t.fcause = s.fcause ∧ t.finfo = s.finfo ∧ t.fcp = s.fcp ∧ t.st = .faulted := by
  cases op with
  | reset => exact absurd rfl hreset
  | start a =>
    cases h
    rw [State.hostStart_of_running_or_faulted (.inr hs)]
    exact ⟨rfl, rfl, rfl, hs⟩
  | read n => cases h; exact ⟨rfl, rfl, rfl, hs⟩
  | write n v =>
    cases h
    rw [State.hostWrite_eq]
    split <;> exact ⟨rfl, rfl, rfl, hs⟩
  | memRead a =>
    obtain ⟨_, _, rfl⟩ := State.hostMemRead_next h
    exact ⟨rfl, rfl, rfl, hs⟩
  | memWrite a v => obtain ⟨-, rfl | rfl⟩ := State.hostMemWrite_next h <;> exact ⟨rfl, rfl, rfl, hs⟩

/-- Settles O16: fault entry by an instruction; and of the outcomes of a step, a faulted engine has the stopped one and those
of the host. -/
theorem faultEntry : Obligations.FaultEntry := by
  refine ⟨fun i s t hs h ht => ?_, fun s t hs hmove h => ?_⟩
  · obtain ⟨v, rfl⟩ := exec_eq_raise_of_faulted hs h ht
    exact ⟨v.cause, v.info, rfl⟩
  · cases step_outcome h with
    | stopped => exact ⟨rfl, rfl, rfl, hs⟩
    | faulted _ hst | ran _ hst => cases hs.symm.trans hst
    | host hop hdone => exact hostMove_keeps_fault (s := s.popMove) hs (fun e => hmove (e ▸ hop)) hdone

/-- Settles O7: the engine's move on the state with the move taken from the schedule. -/
theorem stoppedEngineKeepsState : Obligations.StoppedEngineKeepsState := by
  intro s hwf hmove hst
  rw [step_of_engine hmove, State.engineMove]
  simp [hwf, hst]

end Sys2Proof.Machine
end
